-- ==== Sys2Proof/Word.lean ====
section
/-! DEFINITION. The word types of the block: bytes, 32-bit register values and line levels. -/

namespace Sys2Proof

/-- A byte is 8 bits (00_scope.md R10). -/
abbrev Byte := BitVec 8

/-- A register value, a mask and the IRQ status are unsigned 32-bit values (00_scope.md R10). -/
abbrev Word := BitVec 32

/-- The level of a line or one busy sample (10_state.md R23). -/
abbrev Level := Bool

/-- The level 0. -/
abbrev low : Level := false

/-- The level 1. -/
abbrev high : Level := true

end Sys2Proof
end

