-- ==== Sys2Proof/Config.lean ====
section
/-! DEFINITION. What is fixed before power-up (00_scope.md R8, R9; 70_reset_and_hazards.md R302) and what nothing fixes: the
implementation parameters as one record, their reference values, and the free values the environment and the
scheduler draw from. -/

namespace Sys2Proof

/-- The implementation parameters. The first group has the source's value as its default (R8), the second group is not
given by the source (R9). A limit `none` is the value ∞ of R9. -/
structure Params where
  /-- `N_HANDLES`: reader handles sharing one bus. -/
  nHandles : Nat
  /-- `T_CS_SETUP_MS`: settle delay after chip-select is asserted. -/
  tCsSetupMs : Nat
  /-- `T_CS_HOLD_MS`: delay after chip-select is de-asserted. -/
  tCsHoldMs : Nat
  /-- `T_RST_PULSE_US`: length of the active reset pulse. -/
  tRstPulseUs : Nat
  /-- `T_RAMP_MS`: wait after reset goes inactive. -/
  tRampMs : Nat
  /-- `T_INV_SETTLE_MS`: wait after the inventory request. -/
  tInvSettleMs : Nat
  /-- `EEPROM_MAX_ADDR`: highest EEPROM address accepted. -/
  eepromMaxAddr : Nat
  /-- `MAX_SEND_PAYLOAD`: largest SEND_DATA payload in bytes. -/
  maxSendPayload : Nat
  /-- `MAX_READ_DATA`: largest READ_DATA length in bytes. -/
  maxReadData : Nat
  /-- `REG_VALUE_BITS`: width of a register value, as its range check takes it (R82; log 1). -/
  regValueBits : Nat
  /-- `REG_ADDR_MAX`: highest register address. -/
  regAddrMax : Nat
  /-- `N_SLOTS`: anti-collision slots per inventory pass. -/
  nSlots : Nat
  /-- `TS_SHIFT`: lowest bit of the transceiver-state field of RF_STATUS. -/
  tsShift : Nat
  /-- `TS_WIDTH`: width of the transceiver-state field of RF_STATUS. -/
  tsWidth : Nat
  /-- `RXLEN_WIDTH`: width of the response-length field of RX_STATUS. -/
  rxLenWidth : Nat
  /-- `BROAD_IRQ_MASK`: IRQ clear mask used by the inventory. -/
  broadIrqMask : Word
  /-- `ALL_IRQ_MASK`: IRQ clear mask used by RESET. -/
  allIrqMask : Word
  /-- `INV_FLAGS`: first byte of the inventory request. -/
  invFlags : Byte
  /-- `INV_CMD`: second byte of the inventory request. -/
  invCmd : Byte
  /-- `INV_MASK_LEN`: third byte of the inventory request. -/
  invMaskLen : Byte
  /-- `REG_SYSTEM_CONFIG`: address of SYSTEM_CONFIG. -/
  regSystemConfig : Byte
  /-- `REG_IRQ_STATUS`: address of the IRQ status register. -/
  regIrqStatus : Byte
  /-- `REG_IRQ_CLEAR`: address of the IRQ clear register. -/
  regIrqClear : Byte
  /-- `REG_RX_STATUS`: address of RX_STATUS. -/
  regRxStatus : Byte
  /-- `REG_TX_CONFIG`: address of TX_CONFIG. -/
  regTxConfig : Byte
  /-- `REG_RF_STATUS`: address of RF_STATUS. -/
  regRfStatus : Byte
  /-- `IDLE_AND_MASK`: AND mask on SYSTEM_CONFIG that forces Idle. -/
  idleAndMask : Word
  /-- `TRANSCEIVE_OR_MASK`: OR mask on SYSTEM_CONFIG that arms Transceive. -/
  transceiveOrMask : Word
  /-- `EOF_ONLY_TX_AND_MASK`: AND mask on TX_CONFIG that makes the next send an EOF only. -/
  eofOnlyTxAndMask : Word
  /-- `IRQ_BIT_RX`, condition "RX end" (10_state.md R40). No rule tests it. -/
  irqBitRx : Fin 32
  /-- `IRQ_BIT_TX`, condition "TX end". No rule tests it. -/
  irqBitTx : Fin 32
  /-- `IRQ_BIT_IDLE`, condition "idle": tested by RESET. -/
  irqBitIdle : Fin 32
  /-- `IRQ_BIT_RFOFF_DET`, condition "RF-off detected". No rule tests it. -/
  irqBitRfOffDet : Fin 32
  /-- `IRQ_BIT_RFON_DET`, condition "RF-on detected". No rule tests it. -/
  irqBitRfOnDet : Fin 32
  /-- `IRQ_BIT_TX_RFOFF`, condition "TX RF-off". No rule tests it. -/
  irqBitTxRfOff : Fin 32
  /-- `IRQ_BIT_TX_RFON`, condition "TX RF-on": tested by RF_ON where `RFON_CONFIRM_BIT` names it. -/
  irqBitTxRfOn : Fin 32
  /-- `IRQ_BIT_RX_SOF`, condition "RX start-of-frame detected": tested by the inventory slot check. -/
  irqBitRxSof : Fin 32
  /-- `RFON_CONFIRM_BIT`: the IRQ bit RF_ON waits for. -/
  rfOnConfirmBit : Fin 32
  /-- `ISO15693_TX_CONF`: transmit profile index loaded by SETUP_RF. -/
  iso15693TxConf : Byte
  /-- `ISO15693_RX_CONF`: receive profile index loaded by SETUP_RF. -/
  iso15693RxConf : Byte
  /-- `READ_FILL_BYTE`: byte driven on the data-out line while reading. -/
  readFillByte : Byte
  /-- `RST_ACTIVE_LEVEL`: level of the reset line when active. -/
  rstActiveLevel : Level
  /-- `POLL_LIMIT_BUSY`: most busy-line samples in one wait. -/
  pollLimitBusy : Option Nat
  /-- `POLL_LIMIT_IRQ`: most IRQ-status reads in the RF-on wait. -/
  pollLimitIrq : Option Nat
  /-- `POLL_LIMIT_STARTUP`: most IRQ-status reads in the RESET wait. -/
  pollLimitStartup : Option Nat
  /-- `T_SLOT_MS`: delay between slot advances. -/
  tSlotMs : Nat
  /-- `DEBUG_ENABLE`: debug trace enable. -/
  debugEnable : Bool
  deriving DecidableEq, Repr

namespace Params

/-- The reference instance: the values of the tables of 00_scope.md R8 and R9 and of 10_state.md R40. The values of R9 are
PRESUMED (log 2); the limits, `T_SLOT_MS` and `DEBUG_ENABLE` are DESIGN CHOICE (log 3). -/
def reference : Params where
  nHandles := 2
  tCsSetupMs := 2
  tCsHoldMs := 1
  tRstPulseUs := 10
  tRampMs := 10
  tInvSettleMs := 15
  eepromMaxAddr := 254
  maxSendPayload := 260
  maxReadData := 508
  regValueBits := 32
  regAddrMax := 255
  nSlots := 16
  tsShift := 24
  tsWidth := 3
  rxLenWidth := 9
  broadIrqMask := 0x000FFFFF#32
  allIrqMask := 0xFFFFFFFF#32
  invFlags := 0x06#8
  invCmd := 0x01#8
  invMaskLen := 0x00#8
  regSystemConfig := 0x00#8
  regIrqStatus := 0x02#8
  regIrqClear := 0x03#8
  regRxStatus := 0x13#8
  regTxConfig := 0x18#8
  regRfStatus := 0x1D#8
  idleAndMask := 0xFFFFFFF8#32
  transceiveOrMask := 0x00000003#32
  eofOnlyTxAndMask := 0xFFFFFB3F#32
  irqBitRx := 0
  irqBitTx := 1
  irqBitIdle := 2
  irqBitRfOffDet := 6
  irqBitRfOnDet := 7
  irqBitTxRfOff := 8
  irqBitTxRfOn := 9
  irqBitRxSof := 14
  rfOnConfirmBit := 9
  iso15693TxConf := 0x0D#8
  iso15693RxConf := 0x8D#8
  readFillByte := 0xFF#8
  rstActiveLevel := low
  pollLimitBusy := none
  pollLimitIrq := none
  pollLimitStartup := none
  tSlotMs := 0
  debugEnable := false

/-- What R8, R9 and R10 require of every instance: each limit is at least 1, an address fits its byte and the registers the
block uses have accepted addresses, a register value fits the four bytes that carry it and the masks the block uses are
accepted values, the payload of an inventory request passes its own range check, and the two decoded fields lie inside a
32-bit value and have the widths of R10 at most. -/
def wf (p : Params) : Bool :=
  decide (p.regAddrMax ≤ 255) && decide (p.eepromMaxAddr ≤ 255) && decide (3 ≤ p.maxSendPayload) &&
    decide (p.regSystemConfig.toNat ≤ p.regAddrMax) && decide (p.regIrqStatus.toNat ≤ p.regAddrMax) &&
    decide (p.regIrqClear.toNat ≤ p.regAddrMax) && decide (p.regRxStatus.toNat ≤ p.regAddrMax) &&
    decide (p.regTxConfig.toNat ≤ p.regAddrMax) && decide (p.regRfStatus.toNat ≤ p.regAddrMax) &&
    decide (p.regValueBits ≤ 32) && decide (p.broadIrqMask.toNat < 2 ^ p.regValueBits) &&
    decide (p.allIrqMask.toNat < 2 ^ p.regValueBits) && decide (p.idleAndMask.toNat < 2 ^ p.regValueBits) &&
    decide (p.transceiveOrMask.toNat < 2 ^ p.regValueBits) && decide (p.eofOnlyTxAndMask.toNat < 2 ^ p.regValueBits) &&
    decide (p.rfOnConfirmBit.val < p.regValueBits) &&
    decide (p.tsWidth ≤ 3) && decide (p.tsShift + p.tsWidth ≤ 32) && decide (p.rxLenWidth ≤ 9) &&
    decide (p.pollLimitBusy ≠ some 0) && decide (p.pollLimitIrq ≠ some 0) && decide (p.pollLimitStartup ≠ some 0)

end Params

namespace Config

/-- The free draws of the busy line (10_state.md R31): what the n-th sample of handle h beyond the input tape returns. -/
opaque freeBusy : Nat → Nat → Level

/-- The free draws of the data-in line (10_state.md R31): what the n-th byte of handle h beyond the input tape is. -/
opaque freeData : Nat → Nat → Byte

/-- The free choice of the handle controller that moves in the n-th turn beyond the given schedule (60_exceptions.md R287). -/
opaque freeTurnHandle : Nat → Nat

/-- The free choice of how many transitions the n-th turn beyond the given schedule allows. -/
opaque freeTurnQuantum : Nat → Nat

end Config

end Sys2Proof
end

