-- ==== Sys2Proof/Syntax.lean ====
section
/-! DEFINITION. The instructions: the 10 wire command frames and the 19 host operations of spec/opcode_table.json
(30_encoding.md R80, R99), and the requests that carry them to a handle controller. -/

namespace Sys2Proof

/-- One constructor per row of spec/opcode_table.json. Host arguments are naturals and byte sequences, checked when the
operation runs (30_encoding.md R82); frame operands already have the width of their field. -/
inductive Instr where
  /-- WIRE_WRITE_REGISTER, opcode 0x00 (R84). -/
  | wireWriteRegister (addr : Byte) (value : Word)
  /-- WIRE_WRITE_REGISTER_OR_MASK, opcode 0x01 (R85). -/
  | wireWriteRegisterOrMask (addr : Byte) (mask : Word)
  /-- WIRE_WRITE_REGISTER_AND_MASK, opcode 0x02 (R86). -/
  | wireWriteRegisterAndMask (addr : Byte) (mask : Word)
  /-- WIRE_READ_REGISTER, opcode 0x04 (R87). -/
  | wireReadRegister (addr : Byte)
  /-- WIRE_READ_EEPROM, opcode 0x07 (R88). -/
  | wireReadEeprom (addr : Byte) (len : Byte)
  /-- WIRE_SEND_DATA, opcode 0x09 (R89). -/
  | wireSendData (validBits : Byte) (payload : List Byte)
  /-- WIRE_READ_DATA, opcode 0x0A (R90); the length is the length of the read phase, not a field of the frame. The second
  byte, 0x00 in R90, is an operand because R102 decodes whatever it is (log 25). -/
  | wireReadData (len : Nat) (second : Byte := 0x00#8)
  /-- WIRE_LOAD_RF_CONFIG, opcode 0x11 (R91). -/
  | wireLoadRfConfig (txConf : Byte) (rxConf : Byte)
  /-- WIRE_RF_ON, opcode 0x16 (R92), with its second byte. -/
  | wireRfOn (second : Byte := 0x00#8)
  /-- WIRE_RF_OFF, opcode 0x17 (R93), with its second byte. -/
  | wireRfOff (second : Byte := 0x00#8)
  /-- TRANSACT, selector 0x00 (40_transaction_engine.md R120). -/
  | transact (tx : List Byte) (n : Nat)
  /-- WRITE_REGISTER, selector 0x01 (41_command_layer.md R155). -/
  | writeRegister (addr : Nat) (value : Nat)
  /-- WRITE_REGISTER_OR, selector 0x02 (R156). -/
  | writeRegisterOr (addr : Nat) (mask : Nat)
  /-- WRITE_REGISTER_AND, selector 0x03 (R157). -/
  | writeRegisterAnd (addr : Nat) (mask : Nat)
  /-- READ_REGISTER, selector 0x04 (R158). -/
  | readRegister (addr : Nat)
  /-- READ_EEPROM, selector 0x05 (R160). -/
  | readEeprom (addr : Nat) (len : Nat)
  /-- SEND_DATA, selector 0x06 (R165). -/
  | sendData (payload : List Byte) (validBits : Nat)
  /-- READ_DATA, selector 0x07 (R162). -/
  | readData (len : Nat)
  /-- LOAD_RF_CONFIG, selector 0x08 (R163). -/
  | loadRfConfig (txConf : Nat) (rxConf : Nat)
  /-- RF_ON, selector 0x09 (R167). -/
  | rfOn
  /-- RF_OFF, selector 0x0A (R168). -/
  | rfOff
  /-- GET_IRQ_STATUS, selector 0x0B (R170). -/
  | getIrqStatus
  /-- CLEAR_IRQ_STATUS, selector 0x0C (R171). -/
  | clearIrqStatus (mask : Nat)
  /-- GET_TRANSCEIVE_STATE, selector 0x0D (R172). -/
  | getTransceiveState
  /-- BEGIN, selector 0x0E (42_radio_controller.md R200). -/
  | beginLines
  /-- RESET, selector 0x0F (R202). -/
  | resetChip
  /-- SEND_EOF, selector 0x10 (R204). -/
  | sendEof
  /-- SETUP_RF, selector 0x11 (43_inventory.md R230). -/
  | setupRf
  /-- GET_INVENTORY_16_SLOTS, selector 0x12 (R240). -/
  | getInventory16Slots
  deriving DecidableEq, Repr

/-- A host argument as HOST hands it over: its type is part of the request (30_encoding.md R82, R101). -/
inductive Arg where
  | num (n : Nat)
  | bytes (bs : List Byte)
  deriving DecidableEq, Repr

/-- What a request asks for, before it is decoded. -/
inductive Body where
  /-- A host operation: its 8-bit selector and its arguments (R80). -/
  | host (sel : Byte) (args : List Arg)
  /-- A command frame and the length of its read phase (R83). -/
  | wire (frame : List Byte) (rxLen : Nat)
  deriving DecidableEq, Repr

/-- A host request `(h, op, args)` (30_encoding.md R80). -/
structure Request where
  handle : Nat
  body : Body
  deriving DecidableEq, Repr

/-- Why a request is not an instruction (30_encoding.md R80, R101, R102). -/
inductive DecodeError where
  /-- The selector is one of 0x13..0xFF (R80). -/
  | unassignedSelector (sel : Byte)
  /-- The arguments have the wrong number or types for the selector (R101). -/
  | wrongArguments (sel : Byte)
  /-- A frame has no opcode byte (R83). -/
  | emptyFrame
  /-- The frame's opcode is not in the map of R99: `Invalid` (R102). -/
  | unknownOpcode (op : Byte)
  /-- The frame's length differs from the fixed length of its opcode: `Invalid` (R102). -/
  | wrongFrameLength (op : Byte) (len : Nat)
  /-- The read phase asked for differs from the receive length of R99 (log 25). -/
  | wrongReceiveLength (op : Byte) (n : Nat)
  deriving DecidableEq, Repr

end Sys2Proof
end

