-- ==== Sys2Proof/Decode.lean ====
section
/-! DEFINITION. Decoding of host requests and of wire command frames, total, rejecting by name; then the encoder, written
from the same tables (30_encoding.md R80, R82, R84 to R93, R99, R102, R103). -/

namespace Sys2Proof

/-! ### Byte order -/

/-- `le32(v)` is `[v[7:0], v[15:8], v[23:16], v[31:24]]` (00_scope.md R11; 20_memory.md R62). -/
def le32 (v : Word) : List Byte :=
  [v.extractLsb' 0 8, v.extractLsb' 8 8, v.extractLsb' 16 8, v.extractLsb' 24 8]

/-- `from_le32([b0,b1,b2,b3])` is `b0 | b1<<8 | b2<<16 | b3<<24` (00_scope.md R11). -/
def fromLe32 (b0 b1 b2 b3 : Byte) : Word :=
  b0.zeroExtend 32 ||| (b1.zeroExtend 32 <<< 8) ||| (b2.zeroExtend 32 <<< 16) ||| (b3.zeroExtend 32 <<< 24)

/-! ### The wire frames -/

/-- R84: `[0x00, addr8] ++ le32(value)`. -/
def writeRegisterFrame (addr : Byte) (value : Word) : List Byte := [0x00#8, addr] ++ le32 value

/-- R85: `[0x01, addr8] ++ le32(mask)`. -/
def writeRegisterOrFrame (addr : Byte) (mask : Word) : List Byte := [0x01#8, addr] ++ le32 mask

/-- R86: `[0x02, addr8] ++ le32(mask)`. -/
def writeRegisterAndFrame (addr : Byte) (mask : Word) : List Byte := [0x02#8, addr] ++ le32 mask

/-- R87: `[0x04, addr8]`. -/
def readRegisterFrame (addr : Byte) : List Byte := [0x04#8, addr]

/-- R88: `[0x07, addr8, len8]` (layout PRESUMED, log 16). -/
def readEepromFrame (addr len : Byte) : List Byte := [0x07#8, addr, len]

/-- R89: `[0x09, valid_bits8] ++ payload` (layout PRESUMED, log 16). -/
def sendDataFrame (validBits : Byte) (payload : List Byte) : List Byte := [0x09#8, validBits] ++ payload

/-- R90: `[0x0A, 0x00]` (second byte PRESUMED, log 16). -/
def readDataFrame (second : Byte := 0x00#8) : List Byte := [0x0A#8, second]

/-- R91: `[0x11, tx_conf8, rx_conf8]` (layout PRESUMED, log 16). -/
def loadRfConfigFrame (txConf rxConf : Byte) : List Byte := [0x11#8, txConf, rxConf]

/-- R92: `[0x16, 0x00]` (second byte PRESUMED, log 16). -/
def rfOnFrame (second : Byte := 0x00#8) : List Byte := [0x16#8, second]

/-- R93: `[0x17, 0x00]` (second byte PRESUMED, log 16). -/
def rfOffFrame (second : Byte := 0x00#8) : List Byte := [0x17#8, second]

/-! ### Decoding -/

/-- The host operation of a selector and its typed arguments (R80, R82). An omitted `valid_bits` of SEND_DATA is 0 (R81). -/
def decodeHost (sel : Byte) (args : List Arg) : Except DecodeError Instr :=
  match sel.toNat, args with
  | 0x00, [.bytes tx, .num n] => .ok (.transact tx n)
  | 0x01, [.num addr, .num value] => .ok (.writeRegister addr value)
  | 0x02, [.num addr, .num mask] => .ok (.writeRegisterOr addr mask)
  | 0x03, [.num addr, .num mask] => .ok (.writeRegisterAnd addr mask)
  | 0x04, [.num addr] => .ok (.readRegister addr)
  | 0x05, [.num addr, .num len] => .ok (.readEeprom addr len)
  | 0x06, [.bytes payload, .num validBits] => .ok (.sendData payload validBits)
  | 0x06, [.bytes payload] => .ok (.sendData payload 0)
  | 0x07, [.num len] => .ok (.readData len)
  | 0x08, [.num txConf, .num rxConf] => .ok (.loadRfConfig txConf rxConf)
  | 0x09, [] => .ok .rfOn
  | 0x0A, [] => .ok .rfOff
  | 0x0B, [] => .ok .getIrqStatus
  | 0x0C, [.num mask] => .ok (.clearIrqStatus mask)
  | 0x0D, [] => .ok .getTransceiveState
  | 0x0E, [] => .ok .beginLines
  | 0x0F, [] => .ok .resetChip
  | 0x10, [] => .ok .sendEof
  | 0x11, [] => .ok .setupRf
  | 0x12, [] => .ok .getInventory16Slots
  | k, _ => if k ≤ 0x12 then .error (.wrongArguments sel) else .error (.unassignedSelector sel)

/-- The frame decoder of R102: byte 0 is looked up in the map of R99, the length of a fixed-length frame follows from its
opcode, a SEND_DATA frame's payload is bytes 2 onward, everything else is `Invalid`. The read length `n` is the operand of
READ_DATA, which its frame does not carry (R90). -/
def decodeFrame (frame : List Byte) (n : Nat) : Except DecodeError Instr :=
  match frame with
  | [] => .error .emptyFrame
  | op :: rest =>
    match op.toNat, rest with
    | 0x00, [addr, b0, b1, b2, b3] => .ok (.wireWriteRegister addr (fromLe32 b0 b1 b2 b3))
    | 0x01, [addr, b0, b1, b2, b3] => .ok (.wireWriteRegisterOrMask addr (fromLe32 b0 b1 b2 b3))
    | 0x02, [addr, b0, b1, b2, b3] => .ok (.wireWriteRegisterAndMask addr (fromLe32 b0 b1 b2 b3))
    | 0x04, [addr] => .ok (.wireReadRegister addr)
    | 0x07, [addr, len] => .ok (.wireReadEeprom addr len)
    | 0x09, validBits :: payload => .ok (.wireSendData validBits payload)
    | 0x0A, [second] => .ok (.wireReadData n second)
    | 0x11, [txConf, rxConf] => .ok (.wireLoadRfConfig txConf rxConf)
    | 0x16, [second] => .ok (.wireRfOn second)
    | 0x17, [second] => .ok (.wireRfOff second)
    | k, _ =>
      if k ∈ [0x00, 0x01, 0x02, 0x04, 0x07, 0x09, 0x0A, 0x11, 0x16, 0x17] then
        .error (.wrongFrameLength op frame.length)
      else .error (.unknownOpcode op)

/-- The length of the read phase that goes with a frame (the "receive length" column of R99); 0 for a host operation, whose
rule gives its own. -/
def receiveLength : Instr → Nat
  | .wireReadRegister _ => 4
  | .wireReadEeprom _ len => len.toNat
  | .wireReadData len _ => len
  | _ => 0

/-- Decode what a request asks for. A frame whose read phase differs from the receive length of R99 is no encoding of its row and
is refused (DESIGN CHOICE, log 25): TRANSACT sends those bytes. -/
def decode : Body → Except DecodeError Instr
  | .host sel args => decodeHost sel args
  | .wire frame n =>
    match decodeFrame frame n with
    | .ok i => if n = receiveLength i then .ok i else .error (.wrongReceiveLength (frame.headD 0#8) n)
    | .error e => .error e

/-! ### Encoding -/

/-- The request that asks for an instruction. -/
def encode : Instr → Body
  | .wireWriteRegister addr value => .wire (writeRegisterFrame addr value) 0
  | .wireWriteRegisterOrMask addr mask => .wire (writeRegisterOrFrame addr mask) 0
  | .wireWriteRegisterAndMask addr mask => .wire (writeRegisterAndFrame addr mask) 0
  | .wireReadRegister addr => .wire (readRegisterFrame addr) 4
  | .wireReadEeprom addr len => .wire (readEepromFrame addr len) len.toNat
  | .wireSendData validBits payload => .wire (sendDataFrame validBits payload) 0
  | .wireReadData len second => .wire (readDataFrame second) len
  | .wireLoadRfConfig txConf rxConf => .wire (loadRfConfigFrame txConf rxConf) 0
  | .wireRfOn second => .wire (rfOnFrame second) 0
  | .wireRfOff second => .wire (rfOffFrame second) 0
  | .transact tx n => .host 0x00#8 [.bytes tx, .num n]
  | .writeRegister addr value => .host 0x01#8 [.num addr, .num value]
  | .writeRegisterOr addr mask => .host 0x02#8 [.num addr, .num mask]
  | .writeRegisterAnd addr mask => .host 0x03#8 [.num addr, .num mask]
  | .readRegister addr => .host 0x04#8 [.num addr]
  | .readEeprom addr len => .host 0x05#8 [.num addr, .num len]
  | .sendData payload validBits => .host 0x06#8 [.bytes payload, .num validBits]
  | .readData len => .host 0x07#8 [.num len]
  | .loadRfConfig txConf rxConf => .host 0x08#8 [.num txConf, .num rxConf]
  | .rfOn => .host 0x09#8 []
  | .rfOff => .host 0x0A#8 []
  | .getIrqStatus => .host 0x0B#8 []
  | .clearIrqStatus mask => .host 0x0C#8 [.num mask]
  | .getTransceiveState => .host 0x0D#8 []
  | .beginLines => .host 0x0E#8 []
  | .resetChip => .host 0x0F#8 []
  | .sendEof => .host 0x10#8 []
  | .setupRf => .host 0x11#8 []
  | .getInventory16Slots => .host 0x12#8 []

/-! ### Words numbered as spec/opcode_table.json numbers them -/

/-- The first `k` bytes of a word, the least significant byte first (bit 0 of the table is bit 0 of the first byte). -/
def tableBytes (k w : Nat) : List Byte :=
  (List.range k).map fun j => BitVec.ofNat 8 (w >>> (8 * j))

/-- The arguments of a host operation when every operand is zero; the shortest `tx` of TRANSACT is one byte (R82). -/
def zeroArgs (sel : Byte) : List Arg :=
  match sel.toNat with
  | 0x00 => [.bytes [0x00#8], .num 0]
  | 0x01 | 0x02 | 0x03 | 0x05 | 0x08 => [.num 0, .num 0]
  | 0x04 | 0x07 | 0x0C => [.num 0]
  | 0x06 => [.bytes [], .num 0]
  | _ => []

/-- The least length of a frame with this opcode (the "frame length" column of R99). -/
def frameLength (op : Byte) : Nat :=
  match op.toNat with
  | 0x00 | 0x01 | 0x02 => 6
  | 0x04 | 0x09 | 0x0A | 0x16 | 0x17 => 2
  | 0x07 | 0x11 => 3
  | _ => 1

/-- The read length that the bytes of a frame give (R99): 4 for READ_REGISTER, its length byte for READ_EEPROM, else 0. -/
def frameReceiveLength : List Byte → Nat
  | [0x04#8, _] => 4
  | [0x07#8, _, len] => len.toNat
  | _ => 0

/-- What a table word of `nbits` bits asks for. A host selector is one byte and a frame two or more, so a word of more than
8 bits is a frame; a single byte that is an assigned selector is that host operation, and any other single byte is the
first byte of a frame whose other bytes are zero (DESIGN CHOICE, log 12). -/
def tableBody (nbits w : Nat) : Body :=
  let bits := w % 2 ^ nbits
  let first : Byte := BitVec.ofNat 8 bits
  if nbits ≤ 8 ∧ first.toNat ≤ 0x12 then .host first (zeroArgs first)
  else
    let frame := tableBytes (max ((nbits + 7) / 8) (frameLength first)) bits
    .wire frame (frameReceiveLength frame)

/-- The instruction the decoder reads from a table word. -/
def decodeTableWord (nbits w : Nat) : Option Instr :=
  match decode (tableBody nbits w) with
  | .ok i => some i
  | .error _ => none

end Sys2Proof
end

