-- ==== Sys2Proof/Machine/State.lean ====
section
/-! DEFINITION. The state of the block: what spec/10_state.md gives each handle controller, the arbiter and the log; the
model's own fields (control stack, environment tapes, requests, schedule); power-up values (10_state.md R43). -/

namespace Sys2Proof.Machine

/-- The transaction-engine phases (10_state.md R25). -/
inductive TePhase where
  | idle | arb | wReadyTx | txSetup | txBytes | wAcceptTx | txHold | wDoneTx
  | rxSetup | rxBytes | wAcceptRx | rxHold | wDoneRx
  deriving DecidableEq, Repr

/-- The inventory phases (10_state.md R28). -/
inductive InvPhase where
  | idle | setup | clear0 | request | settle | slotCheck | slotRead | slotAdvance | classify
  deriving DecidableEq, Repr

/-- The status codes of a completed operation (60_exceptions.md R270). -/
inductive Status where
  | ok | rangeError | sequenceError | deviceNotResponding | notInitialised
  deriving DecidableEq, Repr

/-- The waits that can run out (60_exceptions.md R273): the busy waits `TE_W_*` of R25 (DEDUCED: R25 lists five of them and
R273 says six, log 15), `W_RFON` and `W_STARTUP`. -/
inductive WaitStage where
  | wReadyTx | wAcceptTx | wDoneTx | wAcceptRx | wDoneRx | wRfOn | wStartup
  deriving DecidableEq, Repr

/-- The transceiver states, in the order of their codes (30_encoding.md R94). -/
inductive TransceiverState where
  | idle | waitTransmit | transmitting | waitReceive | waitForData | receiving | loopBack | reserved
  deriving DecidableEq, Repr

/-- The inventory outcomes (43_inventory.md R246). -/
inductive InvOutcome where
  | ok | noCard | failed
  deriving DecidableEq, Repr

/-- The value of a completed operation (10_state.md R26). An operation without a result has none of these. -/
inductive Result where
  /-- A byte sequence: TRANSACT, READ_EEPROM, READ_DATA. -/
  | bytes (bs : List Byte)
  /-- The 4 bytes of READ_REGISTER and their value (41_command_layer.md R158). -/
  | register (bs : List Byte) (value : Word)
  /-- A 32-bit value: GET_IRQ_STATUS. -/
  | word (value : Word)
  /-- A transceiver state: GET_TRANSCEIVE_STATE. -/
  | transceiver (st : TransceiverState)
  /-- A boolean (60_exceptions.md R272). -/
  | bool (b : Bool)
  /-- `(outcome, count, identifiers)` (43_inventory.md R247). -/
  | inventory (outcome : InvOutcome) (count : Nat) (identifiers : List (List Byte))
  deriving DecidableEq, Repr

/-- A delay as the rules write it: in milliseconds or in microseconds. -/
inductive Duration where
  | ms (t : Nat)
  | us (t : Nat)
  deriving DecidableEq, Repr

/-- The records of `LOG` (10_state.md R32). -/
inductive LogRec where
  | txnStart (h : Nat) (tx : List Byte) (n : Nat)
  | txnEnd (h : Nat) (status : Status) (rx : List Byte)
  | nss (h : Nat) (v : Level)
  | rst (h : Nat) (v : Level)
  | delay (h : Nat) (t : Duration)
  | opStart (h : Nat) (op : Instr)
  | opEnd (h : Nat) (status : Status) (result : Option Result)
  deriving DecidableEq, Repr

/-- One byte slot on the data lines (00_scope.md R12 `Exchange`): the byte the block drives and the byte it samples. -/
structure Slot where
  handle : Nat
  driven : Byte
  sampled : Byte
  deriving DecidableEq, Repr

/-- A debug trace record (60_exceptions.md R290): operation, register address if any, bytes if any (log 22). -/
structure TraceRec where
  handle : Nat
  op : Option Instr
  addr : Option Nat
  bytes : List Byte
  deriving DecidableEq, Repr

/-- The steps of the operations' pseudocode (41_command_layer.md, 42_radio_controller.md, 43_inventory.md). What remains of an operation in progress is a list
of them; the end of the list is `return ok` without a value. -/
inductive Micro where
  /-- The initialisation check (R152). -/
  | initCheck
  /-- The range checks of the operation in progress (R151). -/
  | rangeCheck
  /-- `Transact(h, tx, n)` (R120). -/
  | transact (tx : List Byte) (n : Nat)
  /-- A sub-operation (00_scope.md R12). -/
  | call (op : Instr)
  /-- The `?` or `?!` after a call: an error ends the operation in progress (60_exceptions.md R276). -/
  | propagate
  /-- One round of an IRQ wait: read IRQ status, then test (R167, R202); `k` reads have failed so far. -/
  | irqPoll (bit : Fin 32) (stage : WaitStage) (k : Nat)
  /-- The test of an IRQ wait. -/
  | irqTest (bit : Fin 32) (stage : WaitStage) (k : Nat)
  /-- `SetRST(h, RST_ACTIVE_LEVEL)` or `SetRST(h, not RST_ACTIVE_LEVEL)` (R202, R200). -/
  | setRst (active : Bool)
  /-- `SetNSS(h, 1)` outside a transaction (R200). -/
  | deselect
  /-- `BEGUN[h] <- 1` (R200). -/
  | setBegun
  /-- `Delay(t)` outside a transaction. -/
  | delay (t : Duration)
  /-- SEND_DATA's check of the transceiver state just read (R165). -/
  | stateCheck
  /-- `return ok true`. -/
  | returnTrue
  /-- `return ok r`, r the bytes of the last transaction (R120, R160, R162). -/
  | returnBytes
  /-- `return ok (r, from_le32(r))` (R158). -/
  | returnRegister
  /-- `return ok v`, v the value of the register just read (R170). -/
  | returnWord
  /-- The end of GET_TRANSCEIVE_STATE, soft-fail included (R172). -/
  | returnState
  /-- `INV_FRAMES <- [] ; INV_COUNT <- 0` (R240). -/
  | invStart
  /-- `INV_PHASE <- p`. -/
  | invPhase (p : InvPhase)
  /-- `INV_SLOT <- 0`. -/
  | invSlotZero
  /-- The head of the slot loop: `while INV_SLOT < N_SLOTS` (R240). -/
  | slotLoop
  /-- The RX start-of-frame test of SlotCheck (R243). -/
  | sofTest
  /-- SlotCheck's READ_DATA of the length just read from RX_STATUS (R243). -/
  | slotRead
  /-- SlotCheck's handling of READ_DATA's outcome (R243). -/
  | slotFrame
  /-- SlotAdvance's handling of SEND_EOF's outcome (R244). -/
  | eofCheck
  /-- `INV_SLOT <- INV_SLOT + 1`. -/
  | slotNext
  /-- `return ok (outcome, INV_COUNT, INV_FRAMES)` (R240 step 6). -/
  | invReturn
  deriving DecidableEq, Repr

/-- A host operation in progress and what remains of its pseudocode. -/
structure Frame where
  op : Instr
  todo : List Micro
  deriving DecidableEq, Repr

/-- What the last transaction or sub-operation returned: the value the pseudocode binds to a name. -/
structure Ret where
  status : Status
  result : Option Result
  deriving DecidableEq, Repr

/-- One handle controller with its lines (10_state.md R23 to R28). `none` in a line is "not yet driven", in a working
register "no value" (R43, R44). -/
structure Handle where
  /-- `NSS[h]`: 0 = asserted. -/
  nss : Option Level
  /-- `RST[h]`. -/
  rst : Option Level
  /-- `TE_PHASE[h]`. -/
  tePhase : TePhase
  /-- `TX_BUF[h]`. -/
  txBuf : Option (List Byte)
  /-- `TX_IDX[h]`. -/
  txIdx : Option Nat
  /-- `RX_LEN[h]`. -/
  rxLen : Option Nat
  /-- `RX_BUF[h]`. -/
  rxBuf : Option (List Byte)
  /-- `POLL_CNT[h]`. -/
  pollCnt : Option Nat
  /-- `OP[h]`. -/
  op : Option Instr
  /-- `STATUS[h]`. -/
  status : Option Status
  /-- `RESULT[h]`. -/
  result : Option Result
  /-- `TIMEOUT_STAGE[h]`. -/
  timeoutStage : Option WaitStage
  /-- `TS_FALLBACK[h]`. -/
  tsFallback : Bool
  /-- `BEGUN[h]`. -/
  begun : Bool
  /-- `TXN_COUNT[h]`. -/
  txnCount : Nat
  /-- `INV_PHASE[h]`. -/
  invPhase : InvPhase
  /-- `INV_SLOT[h]`. -/
  invSlot : Option Nat
  /-- `INV_COUNT[h]`. -/
  invCount : Option Nat
  /-- `INV_FRAMES[h]`. -/
  invFrames : Option (List (List Byte))
  /-- MODEL'S OWN: the operations in progress, innermost first (R280, log 18). -/
  stack : List Frame
  /-- MODEL'S OWN: what the last transaction or sub-operation returned (log 18). -/
  ret : Ret
  /-- MODEL'S OWN: the busy samples to come (R31, log 4). -/
  busyIn : List Level
  /-- MODEL'S OWN: the data-in bytes to come (R31, log 4). -/
  dataIn : List Byte
  /-- MODEL'S OWN: how many busy samples were drawn beyond the tape (log 4). -/
  busyDrawn : Nat
  /-- MODEL'S OWN: how many data-in bytes were drawn beyond the tape (log 4). -/
  dataDrawn : Nat
  deriving DecidableEq, Repr

/-- What the handles share: the arbiter (10_state.md R29), the log (R32), and the two observations of the data lines
(log 21) and of the debug output (R290). -/
structure Shared where
  /-- `BUS_OWNER`. -/
  busOwner : Option Nat
  /-- `LOG`, oldest record first. It grows in BEGIN and RESET too, where R43 has a dash (log 28). -/
  log : List LogRec
  /-- The byte slots exchanged so far, oldest first. -/
  slots : List Slot
  /-- The debug trace, oldest record first. -/
  trace : List TraceRec
  deriving DecidableEq, Repr

/-- Why a request was refused before it started (30_encoding.md R80, R101, R319). -/
inductive Rejection where
  /-- The request spells no instruction. -/
  | undecodable (e : DecodeError)
  /-- No handle controller has this index. -/
  | noSuchHandle
  /-- The controller has an operation in progress. -/
  | handleBusy
  deriving DecidableEq, Repr

/-- A refusal as HOST sees it. -/
structure RefusalReport where
  handle : Nat
  reason : Rejection
  deriving DecidableEq, Repr

/-- One turn of the schedule: the handle controller that moves and the most transitions it makes (log 5). -/
structure Turn where
  handle : Nat
  quantum : Nat
  deriving DecidableEq, Repr

/-- The state of the machine. -/
structure State where
  /-- The implementation parameters, fixed before power-up (R302, log 1). -/
  params : Params
  /-- The handle controllers, indexed by h. -/
  handles : List Handle
  /-- What the handles share. -/
  shared : Shared
  /-- The requests HOST has issued and no controller has accepted or refused yet, oldest first. -/
  inbox : List Request
  /-- The refusals reported to HOST, oldest first (R101). -/
  refusals : List RefusalReport
  /-- MODEL'S OWN: the turns to come (log 5). -/
  sched : List Turn
  /-- MODEL'S OWN: the turn being run (log 5). -/
  now : Turn
  /-- MODEL'S OWN: how many turns were taken beyond the schedule (log 5). -/
  turnsDrawn : Nat
  deriving DecidableEq, Repr

/-- The working registers that can hold no value (10_state.md R43). -/
inductive WorkingReg where
  | txBuf | txIdx | rxLen | rxBuf | pollCnt | invSlot | invCount | invFrames
  deriving DecidableEq, Repr

/-- Why the machine stops. Neither happens in a run from power-up (10_state.md R44); both are safe. -/
inductive Fault where
  /-- A working register that holds no value was read: 10_state.md R44 has a model fault there (93_implementation_defined.md
  I13). Raised by the transaction engine and by the inventory steps. Safe. -/
  | noValue (r : WorkingReg)
  /-- The pseudocode uses a value that the last call did not return, or the engine waits for the bus without a call. Raised
  by the steps that read `ret`. Safe. -/
  | unbound
  deriving DecidableEq, Repr

/-- Why an instruction has no meaning. -/
inductive Refusal where
  /-- The instruction is not modelled yet. Raised by `exec` alone. Safe. -/
  | notModelled (mnemonic : String)
  deriving DecidableEq, Repr

/-- What one handle controller can touch: the parameters (read only), its own registers and what the handles share. -/
structure View where
  id : Nat
  params : Params
  c : Handle
  bus : Shared
  deriving DecidableEq, Repr

/-- The power-up column of 10_state.md R43. -/
def Handle.powerUp : Handle where
  nss := none
  rst := none
  tePhase := .idle
  txBuf := none
  txIdx := none
  rxLen := none
  rxBuf := none
  pollCnt := none
  op := none
  status := none
  result := none
  timeoutStage := none
  tsFallback := false
  begun := false
  txnCount := 0
  invPhase := .idle
  invSlot := none
  invCount := none
  invFrames := none
  stack := []
  ret := ⟨.ok, none⟩
  busyIn := []
  dataIn := []
  busyDrawn := 0
  dataDrawn := 0

/-- The machine at power-up with the given parameters (10_state.md R43; 70_reset_and_hazards.md R300). -/
def State.powerUp (p : Params) : State where
  params := p
  handles := List.replicate p.nHandles Handle.powerUp
  shared := ⟨none, [], [], []⟩
  inbox := []
  refusals := []
  sched := []
  now := ⟨0, 0⟩
  turnsDrawn := 0

/-- The machine right after power-up, with the reference parameters (10_state.md R43). -/
def State.reset : State := State.powerUp Params.reference

end Sys2Proof.Machine
end

