-- ==== Sys2Proof/Machine/Operands.lean ====
section
/-! DEFINITION. Operands: the range checks (41_command_layer.md R151), operand assembly and the fields read from registers
(30_encoding.md R94, R95, R103). -/

namespace Sys2Proof.Machine

/-- One byte holding a checked argument unchanged (R103). -/
def byteOf (n : Nat) : Byte := BitVec.ofNat 8 n

/-- The 32-bit value of a checked argument (R103). -/
def wordOf (n : Nat) : Word := BitVec.ofNat 32 n

/-- The range checks of an operation (R151). An operation the table does not list has none. -/
def rangeOk (p : Params) : Instr → Bool
  | .wireWriteRegister _ _ => true
  | .wireWriteRegisterOrMask _ _ => true
  | .wireWriteRegisterAndMask _ _ => true
  | .wireReadRegister _ => true
  | .wireReadEeprom _ _ => true
  | .wireSendData _ _ => true
  | .wireReadData _ _ => true
  | .wireLoadRfConfig _ _ => true
  | .wireRfOn _ => true
  | .wireRfOff _ => true
  | .transact tx _ => decide (1 ≤ tx.length)
  | .writeRegister addr value => decide (addr ≤ p.regAddrMax) && decide (value < 2 ^ p.regValueBits)
  | .writeRegisterOr addr mask => decide (addr ≤ p.regAddrMax) && decide (mask < 2 ^ p.regValueBits)
  | .writeRegisterAnd addr mask => decide (addr ≤ p.regAddrMax) && decide (mask < 2 ^ p.regValueBits)
  | .readRegister addr => decide (addr ≤ p.regAddrMax)
  | .readEeprom addr len => decide (addr ≤ p.eepromMaxAddr) && decide (len ≤ 255)
  | .sendData payload validBits => decide (payload.length ≤ p.maxSendPayload) && decide (validBits ≤ 255)
  | .readData len => decide (len ≤ p.maxReadData)
  | .loadRfConfig txConf rxConf => decide (txConf ≤ 255) && decide (rxConf ≤ 255)
  | .rfOn => true
  | .rfOff => true
  | .getIrqStatus => true
  | .clearIrqStatus mask => decide (mask < 2 ^ p.regValueBits)
  | .getTransceiveState => true
  | .beginLines => true
  | .resetChip => true
  | .sendEof => true
  | .setupRf => true
  | .getInventory16Slots => true

/-- The field of `width` bits of `v` from bit `shift` up (00_scope.md R11). -/
def field (v : Word) (shift width : Nat) : Nat := (v.toNat >>> shift) % 2 ^ width

/-- The transceiver state of a 3-bit code (30_encoding.md R94; D40, log 17). -/
def transceiverOfCode (code : Nat) : TransceiverState :=
  match code % 8 with
  | 0 => .idle
  | 1 => .waitTransmit
  | 2 => .transmitting
  | 3 => .waitReceive
  | 4 => .waitForData
  | 5 => .receiving
  | 6 => .loopBack
  | _ => .reserved

/-- The transceiver state in a value of RF_STATUS: bits 26:24 (R94). -/
def transceiverOf (p : Params) (v : Word) : TransceiverState := transceiverOfCode (field v p.tsShift p.tsWidth)

/-- The response length in a value of RX_STATUS: bits 8:0 (R95). -/
def responseLength (p : Params) (v : Word) : Nat := field v 0 p.rxLenWidth

/-- The register address an operation names, if any: what a trace record shows (60_exceptions.md R290). -/
def registerAddress : Instr → Option Nat
  | .writeRegister addr _ => some addr
  | .writeRegisterOr addr _ => some addr
  | .writeRegisterAnd addr _ => some addr
  | .readRegister addr => some addr
  | _ => none

/-- The bytes an operation is given, if any: what its trace record shows (R290). -/
def operandBytes : Instr → List Byte
  | .transact tx _ => tx
  | .sendData payload _ => payload
  | _ => []

end Sys2Proof.Machine
end

