-- ==== Sys2Proof/Machine/Flags.lean ====
section
/-! DEFINITION. One-bit facts: bits of the IRQ status, boolean and failure results, poll limits, which phases assert
chip-select (41_command_layer.md R173; 60_exceptions.md R271, R272; 40_transaction_engine.md R119, R122). -/

namespace Sys2Proof.Machine

/-- `s[bit] == 1` (R173). -/
def bitSet (s : Word) (bit : Fin 32) : Bool := s.getLsbD bit.val

/-- `1 << bit`, as the natural that CLEAR_IRQ_STATUS takes (R167, R173). -/
def bitMask (bit : Fin 32) : Nat := 2 ^ bit.val

/-- The operations whose source signature returns `bool` (R272). -/
def returnsBool : Instr → Bool
  | .sendData _ _ | .loadRfConfig _ _ | .rfOn | .rfOff | .sendEof | .setupRf => true
  | _ => false

/-- `RESULT[h]` of an operation that ends with an error: false, `(Failed, 0, [])`, or no value (R271 item 2). -/
def failureResult (i : Instr) : Option Result :=
  if i = .getInventory16Slots then some (.inventory .failed 0 [])
  else if returnsBool i then some (.bool false)
  else none

/-- Whether `k` failed samples reach a poll limit; `none` is ∞, which nothing reaches (R119). -/
def limitReached (limit : Option Nat) (k : Nat) : Bool :=
  match limit with
  | none => false
  | some l => decide (l ≤ k)

/-- The limit of an IRQ wait (R167, R202). -/
def irqLimit (p : Params) : WaitStage → Option Nat
  | .wRfOn => p.pollLimitIrq
  | .wStartup => p.pollLimitStartup
  | .wReadyTx | .wAcceptTx | .wDoneTx | .wAcceptRx | .wDoneRx => p.pollLimitBusy

/-- The phases in which chip-select is asserted (R122). -/
def assertsNss : TePhase → Bool
  | .txSetup | .txBytes | .wAcceptTx | .rxSetup | .rxBytes | .wAcceptRx => true
  | .idle | .arb | .wReadyTx | .txHold | .wDoneTx | .rxHold | .wDoneRx => false

/-- The phases in which a controller is inside `Transact` past `TE_ARB` (10_state.md R29). -/
def ownsBus : TePhase → Bool
  | .idle | .arb => false
  | .wReadyTx | .txSetup | .txBytes | .wAcceptTx | .txHold | .wDoneTx
  | .rxSetup | .rxBytes | .wAcceptRx | .rxHold | .wDoneRx => true

/-- The level of the reset line that `active` asks for (42_radio_controller.md R200, R202). -/
def rstLevel (p : Params) (active : Bool) : Level := if active then p.rstActiveLevel else !p.rstActiveLevel

end Sys2Proof.Machine
end

