-- ==== Sys2Proof/Machine/Ops.lean ====
section
/-! DEFINITION. The named operations of the pseudocode (00_scope.md R12): lines, delays, draws, byte slots, the log, the bus
arbiter, and the ONE operation by which an operation ends, with an error (60_exceptions.md R271) or without. -/

namespace Sys2Proof.Machine

/-! ### A handle's view of the state -/

/-- The view of handle `h`, if the handle exists. -/
def State.view (s : State) (h : Nat) : Option View :=
  (s.handles[h]?).map fun c => ⟨h, s.params, c, s.shared⟩

/-- The state with what a handle controller did put back. -/
def State.put (s : State) (v : View) : State :=
  { s with handles := s.handles.set v.id v.c, shared := v.bus }

/-- What one transition of a handle controller leads to. -/
inductive Tick where
  /-- The controller moved. -/
  | moved (v : View)
  /-- Nothing to do, or the bus is owned by another handle (60_exceptions.md R287: a hold). -/
  | held
  /-- The machine stops. -/
  | fault (f : Fault)

/-! ### Log, lines, delays -/

/-- Append a record to `LOG` (10_state.md R32), in BEGIN and RESET too (log 28). -/
def View.record (v : View) (r : LogRec) : View :=
  { v with bus := { v.bus with log := v.bus.log ++ [r] } }

/-- Emit a debug trace record when `DEBUG_ENABLE` is true (60_exceptions.md R290). -/
def View.debug (v : View) (op : Option Instr) (addr : Option Nat) (bytes : List Byte) : View :=
  if v.params.debugEnable then { v with bus := { v.bus with trace := v.bus.trace ++ [⟨v.id, op, addr, bytes⟩] } } else v

/-- `SetNSS(h, l)`, logged when the level changes (R12, R32); a line that becomes driven changes (log 6). -/
def View.setNss (v : View) (l : Level) : View :=
  if v.c.nss = some l then v else ({ v with c := { v.c with nss := some l } }).record (.nss v.id l)

/-- `SetRST(h, l)`, logged when the level changes (R12, R32). -/
def View.setRst (v : View) (l : Level) : View :=
  if v.c.rst = some l then v else ({ v with c := { v.c with rst := some l } }).record (.rst v.id l)

/-- `Delay(t)`: one transition, logged (R12, R32; 70_reset_and_hazards.md R314, log 19). -/
def View.wait (v : View) (t : Duration) : View := v.record (.delay v.id t)

/-! ### Environment draws (10_state.md R31) -/

/-- `SampleBusy(h)`. -/
def View.sampleBusy (v : View) : Level × View :=
  match v.c.busyIn with
  | b :: bs => (b, { v with c := { v.c with busyIn := bs } })
  | [] => (Config.freeBusy v.id v.c.busyDrawn, { v with c := { v.c with busyDrawn := v.c.busyDrawn + 1 } })

/-- The next data-in byte. -/
def View.sampleData (v : View) : Byte × View :=
  match v.c.dataIn with
  | b :: bs => (b, { v with c := { v.c with dataIn := bs } })
  | [] => (Config.freeData v.id v.c.dataDrawn, { v with c := { v.c with dataDrawn := v.c.dataDrawn + 1 } })

/-- `Exchange(h, o) -> i`: one byte slot (R12). -/
def View.exchange (v : View) (o : Byte) : Byte × View :=
  let d := v.sampleData
  (d.1, { d.2 with bus := { d.2.bus with slots := d.2.bus.slots ++ [⟨v.id, o, d.1⟩] } })

/-! ### The bus (60_exceptions.md R287) -/

/-- The successful half of `AcquireBus(h)`. -/
def View.acquire (v : View) : View := { v with bus := { v.bus with busOwner := some v.id } }

/-- `ReleaseBus(h)`. -/
def View.release (v : View) : View := { v with bus := { v.bus with busOwner := none } }

/-! ### The control stack -/

/-- The operation in progress runs `ms` next. -/
def View.prepend (v : View) (ms : List Micro) : View :=
  match v.c.stack with
  | f :: fs => { v with c := { v.c with stack := { f with todo := ms ++ f.todo } :: fs } }
  | [] => v

/-- An operation starts: `OpStart` is logged before its first stage (41_command_layer.md R150). -/
def View.startOp (v : View) (op : Instr) (prog : List Micro) : View :=
  (({ v with c := { v.c with stack := ⟨op, prog⟩ :: v.c.stack } }).record (.opStart v.id op)).debug
    (some op) (registerAddress op) (operandBytes op)

/-- The inventory registers return to no value when GET_INVENTORY_16_SLOTS ends (70_reset_and_hazards.md R305). -/
def clearInventory (i : Instr) (c : Handle) : Handle :=
  if i = .getInventory16Slots then
    { c with invPhase := .idle, invSlot := none, invCount := none, invFrames := none }
  else c

/-- The operation in progress ends with a status and a result: both are written and `OpEnd` is logged; `OP` is cleared when
no operation encloses it, and otherwise control returns to the enclosing one (60_exceptions.md R271; 41_command_layer.md
R150; log 8). -/
def View.endOp (v : View) (st : Status) (r : Option Result) : View :=
  match v.c.stack with
  | [] => v
  | f :: fs =>
    ({ v with c :=
        { clearInventory f.op v.c with
          status := some st, result := r, ret := ⟨st, r⟩, stack := fs,
          op := if fs = [] then none else v.c.op } }).record (.opEnd v.id st r)

/-- `raise E`: the operation in progress ends with the error `E` (60_exceptions.md R271). -/
def View.raise (v : View) (e : Status) : View :=
  match v.c.stack with
  | [] => v
  | f :: _ => v.endOp e (failureResult f.op)

/-! ### The ends of a transaction -/

/-- `Finish(h, st, rx)` (40_transaction_engine.md R120): `TxnEnd` is logged, the engine is idle, the bus is released, and the
transaction's working registers return to no value (70_reset_and_hazards.md R305). -/
def View.finish (v : View) (st : Status) (rx : List Byte) : View :=
  View.release
    { v.record (.txnEnd v.id st rx) with
      c := { v.c with tePhase := .idle, txBuf := none, txIdx := none, rxLen := none, rxBuf := none, pollCnt := none
                      ret := ⟨st, if st = .ok then some (.bytes rx) else none⟩ } }

/-- A busy wait ran out (40_transaction_engine.md R129). -/
def View.timeOut (v : View) (stage : WaitStage) : View :=
  let v1 := if v.c.nss = some low then v.setNss high else v
  ({ v1 with c := { v1.c with timeoutStage := some stage } }).finish .deviceNotResponding []

/-- A refusal is reported to HOST; the block does not change (30_encoding.md R101, log 13). -/
def State.reject (s : State) (h : Nat) (r : Rejection) : State :=
  { s with refusals := s.refusals ++ [⟨h, r⟩] }

end Sys2Proof.Machine
end

