-- ==== Sys2Proof/Machine/CommandPrograms.lean ====
section
/-! DEFINITION. The pseudocode of TRANSACT and of the Chip Command Layer (40_transaction_engine.md R120;
41_command_layer.md R155 to R172), one definition per operation. -/

namespace Sys2Proof.Machine

/-- R120 as a host operation: its own range check (empty `tx`) and one transaction. -/
def progTransact (tx : List Byte) (n : Nat) : List Micro :=
  [.initCheck, .rangeCheck, .transact tx n, .propagate, .returnBytes]

/-- R155. -/
def progWriteRegister (addr value : Nat) : List Micro :=
  [.initCheck, .rangeCheck, .transact (writeRegisterFrame (byteOf addr) (wordOf value)) 0, .propagate]

/-- R156. -/
def progWriteRegisterOr (addr mask : Nat) : List Micro :=
  [.initCheck, .rangeCheck, .transact (writeRegisterOrFrame (byteOf addr) (wordOf mask)) 0, .propagate]

/-- R157. -/
def progWriteRegisterAnd (addr mask : Nat) : List Micro :=
  [.initCheck, .rangeCheck, .transact (writeRegisterAndFrame (byteOf addr) (wordOf mask)) 0, .propagate]

/-- R158. -/
def progReadRegister (addr : Nat) : List Micro :=
  [.initCheck, .rangeCheck, .transact (readRegisterFrame (byteOf addr)) 4, .propagate, .returnRegister]

/-- R160. -/
def progReadEeprom (addr len : Nat) : List Micro :=
  [.initCheck, .rangeCheck, .transact (readEepromFrame (byteOf addr) (byteOf len)) len, .propagate, .returnBytes]

/-- R162. -/
def progReadData (len : Nat) : List Micro :=
  [.initCheck, .rangeCheck, .transact readDataFrame len, .propagate, .returnBytes]

/-- R163. -/
def progLoadRfConfig (txConf rxConf : Nat) : List Micro :=
  [.initCheck, .rangeCheck, .transact (loadRfConfigFrame (byteOf txConf) (byteOf rxConf)) 0, .propagate, .returnTrue]

/-- R167: the frame, the wait for the confirmation bit, and the clear of that bit alone. -/
def progRfOn (p : Params) : List Micro :=
  [.initCheck, .transact rfOnFrame 0, .propagate, .irqPoll p.rfOnConfirmBit .wRfOn 0,
    .call (.clearIrqStatus (bitMask p.rfOnConfirmBit)), .propagate, .returnTrue]

/-- R168: no wait and no clear. -/
def progRfOff : List Micro :=
  [.initCheck, .transact rfOffFrame 0, .propagate, .returnTrue]

/-- R170. -/
def progGetIrqStatus (p : Params) : List Micro :=
  [.initCheck, .call (.readRegister p.regIrqStatus.toNat), .propagate, .returnWord]

/-- R171. -/
def progClearIrqStatus (p : Params) (mask : Nat) : List Micro :=
  [.initCheck, .rangeCheck, .call (.writeRegister p.regIrqClear.toNat mask), .propagate]

/-- R172: no `?` after the read, whose failure is caught. -/
def progGetTransceiveState (p : Params) : List Micro :=
  [.initCheck, .call (.readRegister p.regRfStatus.toNat), .returnState]

/-- R207: the re-arm sequence, Idle then Transceive. -/
def rearm (p : Params) : List Micro :=
  [.call (.writeRegisterAnd p.regSystemConfig.toNat p.idleAndMask.toNat), .propagate,
    .call (.writeRegisterOr p.regSystemConfig.toNat p.transceiveOrMask.toNat), .propagate]

/-- R165: force Idle, arm Transceive, check for WaitTransmit, send. GET_TRANSCEIVE_STATE ends with an error only before
BEGIN, when SEND_DATA does not get this far; the `?` after it is the general rule (60_exceptions.md R276). -/
def progSendData (p : Params) (payload : List Byte) (validBits : Nat) : List Micro :=
  [.initCheck, .rangeCheck] ++ rearm p ++
    [.call .getTransceiveState, .propagate, .stateCheck, .transact (sendDataFrame (byteOf validBits) payload) 0, .propagate, .returnTrue]

end Sys2Proof.Machine
end

