-- ==== Sys2Proof/Machine/RadioPrograms.lean ====
section
/-! DEFINITION. The pseudocode of the Radio/Transceiver Controller (42_radio_controller.md R200, R202, R204), one definition
per operation. -/

namespace Sys2Proof.Machine

/-- R200. BEGIN has no initialisation check (41_command_layer.md R152). -/
def progBegin : List Micro := [.setRst false, .deselect, .setBegun]

/-- R202: the reset pulse, the wait for the Idle bit, the clear of every IRQ bit. -/
def progReset (p : Params) : List Micro :=
  [.initCheck, .setRst true, .delay (.us p.tRstPulseUs), .setRst false, .delay (.ms p.tRampMs),
    .irqPoll p.irqBitIdle .wStartup 0, .call (.clearIrqStatus p.allIrqMask.toNat), .propagate]

/-- R204: SEND_DATA of the empty payload with `valid_bits` 0. -/
def progSendEof : List Micro :=
  [.initCheck, .call (.sendData [] 0), .propagate, .returnTrue]

end Sys2Proof.Machine
end

