-- ==== Sys2Proof/Machine/InventoryPrograms.lean ====
section
/-! DEFINITION. The pseudocode of the ISO15693 Inventory Engine (43_inventory.md R230, R240, R243, R244), one definition per
operation and per part of a slot. -/

namespace Sys2Proof.Machine

/-- R230. -/
def progSetupRf (p : Params) : List Micro :=
  [.initCheck, .call .rfOff, .propagate,
    .call (.loadRfConfig p.iso15693TxConf.toNat p.iso15693RxConf.toNat), .propagate,
    .call .rfOn, .propagate] ++ rearm p ++ [.returnTrue]

/-- The inventory request (30_encoding.md R96). -/
def inventoryRequest (p : Params) : List Byte := [p.invFlags, p.invCmd, p.invMaskLen]

/-- R243 SlotCheck, up to the test of the RX start-of-frame bit. -/
def slotCheck : List Micro :=
  [.invPhase .slotCheck, .call .getIrqStatus, .propagate, .sofTest]

/-- R243 SlotCheck when the RX start-of-frame bit is set: the response length is read, then the response. -/
def slotResponse (p : Params) : List Micro :=
  [.invPhase .slotRead, .call (.readRegister p.regRxStatus.toNat), .propagate, .slotRead]

/-- R244 SlotAdvance. -/
def slotAdvance (p : Params) : List Micro :=
  [.invPhase .slotAdvance, .call (.writeRegisterAnd p.regTxConfig.toNat p.eofOnlyTxAndMask.toNat), .propagate] ++
    rearm p ++
    [.call (.clearIrqStatus p.broadIrqMask.toNat), .propagate, .call .sendEof, .eofCheck] ++
    (if 0 < p.tSlotMs then [.delay (.ms p.tSlotMs)] else [])

/-- The body of the slot loop (R240 step 5). -/
def slotBody (p : Params) : List Micro := slotCheck ++ slotAdvance p ++ [.slotNext, .slotLoop]

/-- R240. The slot loop's body is put in front when the loop's test succeeds (`slotLoop`), and step 6 when it fails. -/
def progGetInventory (p : Params) : List Micro :=
  [.initCheck, .invStart, .invPhase .setup, .call .setupRf, .propagate,
    .invPhase .clear0, .call (.clearIrqStatus p.broadIrqMask.toNat), .propagate,
    .invPhase .request, .call (.sendData (inventoryRequest p) 0), .propagate,
    .invPhase .settle, .delay (.ms p.tInvSettleMs), .invSlotZero, .slotLoop,
    .invPhase .classify, .invReturn]

end Sys2Proof.Machine
end

