-- ==== Sys2Proof/Machine/TransactionEngine.lean ====
section
/-! DEFINITION. The Bus Transaction Engine: one transition per row of the table of 40_transaction_engine.md R121. -/

namespace Sys2Proof.Machine

/-- Enter a wait phase: `POLL_CNT[h] <- 0` (R121). -/
def View.enterWait (v : View) (ph : TePhase) : View :=
  { v with c := { v.c with tePhase := ph, pollCnt := some 0 } }

/-- Enter a phase that is not a wait. -/
def View.enter (v : View) (ph : TePhase) : View := { v with c := { v.c with tePhase := ph } }

/-- The arbiter grants the bus: the transaction is counted and its `TxnStart` logged, and the engine's registers are loaded
(R120, R121; 10_state.md R27). -/
def View.grant (v : View) (op : Instr) (tx : List Byte) (n : Nat) : View :=
  let v1 := v.acquire
  let v2 := (({ v1 with c := { v1.c with txnCount := v1.c.txnCount + 1 } }).record (.txnStart v.id tx n)).debug
    (some op) (registerAddress op) tx
  { v2 with c := { v2.c with txBuf := some tx, txIdx := some 0, rxLen := some n, rxBuf := some [] } }.enterWait .wReadyTx

/-- One sample of `PollBusy(h, level, stage)` (R119): on the awaited level go on with `next`, otherwise count and stay, or
run out. -/
def pollBusy (v : View) (level : Level) (stage : WaitStage) (next : View → Tick) : Tick :=
  let d := v.sampleBusy
  if d.1 = level then next d.2
  else
    match v.c.pollCnt with
    | none => .fault (.noValue .pollCnt)
    | some k =>
      let v1 := { d.2 with c := { d.2.c with pollCnt := some (k + 1) } }
      if limitReached v.params.pollLimitBusy (k + 1) then .moved (v1.timeOut stage) else .moved v1

/-- Step 3, one byte slot of the write phase; the byte received is discarded (R123). -/
def tickTxBytes (v : View) : Tick :=
  match v.c.txBuf, v.c.txIdx with
  | none, _ => .fault (.noValue .txBuf)
  | some _, none => .fault (.noValue .txIdx)
  | some tx, some k =>
    match tx[k]? with
    | none => .moved (v.enterWait .wAcceptTx)
    | some b =>
      let v1 := (v.exchange b).2
      .moved { v1 with c := { v1.c with txIdx := some (k + 1) } }

/-- Steps 6 and 7, once busy reads 0: a write-only transaction is complete, any other goes on to its read phase. -/
def doneTx (v : View) : Tick :=
  match v.c.rxLen with
  | none => .fault (.noValue .rxLen)
  | some 0 => .moved (v.finish .ok [])
  | some (_ + 1) => .moved ((v.setNss low).enter .rxSetup)

/-- Step 8, one byte slot of the read phase: `READ_FILL_BYTE` is driven and the byte received is kept (R124). -/
def tickRxBytes (v : View) : Tick :=
  match v.c.rxBuf, v.c.rxLen with
  | none, _ => .fault (.noValue .rxBuf)
  | some _, none => .fault (.noValue .rxLen)
  | some rx, some n =>
    if rx.length < n then
      let d := v.exchange v.params.readFillByte
      .moved { d.2 with c := { d.2.c with rxBuf := some (rx ++ [d.1]) } }
    else .moved (v.enterWait .wAcceptRx)

/-- The last wait of a transaction with a read phase, once busy reads 0. -/
def doneRx (v : View) : Tick :=
  match v.c.rxBuf with
  | none => .fault (.noValue .rxBuf)
  | some rx => .moved (v.finish .ok rx)

/-- `TE_ARB`: the call waiting for the bus is granted when no handle owns it (60_exceptions.md R287). -/
def tickArb (v : View) : Tick :=
  match v.c.stack with
  | ⟨op, .transact tx n :: rest⟩ :: fs =>
    if v.bus.busOwner = none then .moved ({ v with c := { v.c with stack := ⟨op, rest⟩ :: fs } }.grant op tx n) else .held
  | _ => .fault .unbound

/-- One transition of the engine in a phase other than `TE_IDLE` (R121). -/
def tickEngine (v : View) : TePhase → Tick
  | .idle => .held
  | .arb => tickArb v
  | .wReadyTx => pollBusy v low .wReadyTx fun w => .moved ((w.setNss low).enter .txSetup)
  | .txSetup => .moved ((v.wait (.ms v.params.tCsSetupMs)).enter .txBytes)
  | .txBytes => tickTxBytes v
  | .wAcceptTx => pollBusy v high .wAcceptTx fun w => .moved ((w.setNss high).enter .txHold)
  | .txHold => .moved ((v.wait (.ms v.params.tCsHoldMs)).enterWait .wDoneTx)
  | .wDoneTx => pollBusy v low .wDoneTx doneTx
  | .rxSetup => .moved ((v.wait (.ms v.params.tCsSetupMs)).enter .rxBytes)
  | .rxBytes => tickRxBytes v
  | .wAcceptRx => pollBusy v high .wAcceptRx fun w => .moved ((w.setNss high).enter .rxHold)
  | .rxHold => .moved ((v.wait (.ms v.params.tCsHoldMs)).enterWait .wDoneRx)
  | .wDoneRx => pollBusy v low .wDoneRx doneRx

end Sys2Proof.Machine
end

