-- ==== Sys2Proof/Machine/Control.lean ====
section
/-! DEFINITION. The control of a handle controller: the pseudocode of each operation by name, one step of that pseudocode,
one transition of the controller, a turn of up to `quantum` transitions, and the issue of an operation. -/

namespace Sys2Proof.Machine

/-- The pseudocode of an operation. A command frame is carried by TRANSACT (30_encoding.md R83; log 11). -/
def programOf (p : Params) : Instr → List Micro
  | .wireWriteRegister addr value => progTransact (writeRegisterFrame addr value) 0
  | .wireWriteRegisterOrMask addr mask => progTransact (writeRegisterOrFrame addr mask) 0
  | .wireWriteRegisterAndMask addr mask => progTransact (writeRegisterAndFrame addr mask) 0
  | .wireReadRegister addr => progTransact (readRegisterFrame addr) 4
  | .wireReadEeprom addr len => progTransact (readEepromFrame addr len) len.toNat
  | .wireSendData validBits payload => progTransact (sendDataFrame validBits payload) 0
  | .wireReadData len second => progTransact (readDataFrame second) len
  | .wireLoadRfConfig txConf rxConf => progTransact (loadRfConfigFrame txConf rxConf) 0
  | .wireRfOn second => progTransact (rfOnFrame second) 0
  | .wireRfOff second => progTransact (rfOffFrame second) 0
  | .transact tx n => progTransact tx n
  | .writeRegister addr value => progWriteRegister addr value
  | .writeRegisterOr addr mask => progWriteRegisterOr addr mask
  | .writeRegisterAnd addr mask => progWriteRegisterAnd addr mask
  | .readRegister addr => progReadRegister addr
  | .readEeprom addr len => progReadEeprom addr len
  | .sendData payload validBits => progSendData p payload validBits
  | .readData len => progReadData len
  | .loadRfConfig txConf rxConf => progLoadRfConfig txConf rxConf
  | .rfOn => progRfOn p
  | .rfOff => progRfOff
  | .getIrqStatus => progGetIrqStatus p
  | .clearIrqStatus mask => progClearIrqStatus p mask
  | .getTransceiveState => progGetTransceiveState p
  | .beginLines => progBegin
  | .resetChip => progReset p
  | .sendEof => progSendEof
  | .setupRf => progSetupRf p
  | .getInventory16Slots => progGetInventory p

/-- Step of an IRQ wait once IRQ status has been read (R167, R202). -/
def irqTest (v : View) (bit : Fin 32) (stage : WaitStage) (k : Nat) : Tick :=
  match v.c.ret.result with
  | some (.word s) =>
    if bitSet s bit then .moved v
    else if limitReached (irqLimit v.params stage) (k + 1) then
      .moved (({ v with c := { v.c with timeoutStage := some stage } }).raise .deviceNotResponding)
    else .moved (v.prepend [.irqPoll bit stage (k + 1)])
  | _ => .fault .unbound

/-- SEND_DATA's check of the state just read: a fallback is DeviceNotResponding, a state other than WaitTransmit is
SequenceError (R165, D6). -/
def stateCheck (v : View) : Tick :=
  if v.c.tsFallback then .moved (v.raise .deviceNotResponding)
  else
    match v.c.ret.result with
    | some (.transceiver st) => if st = .waitTransmit then .moved v else .moved (v.raise .sequenceError)
    | _ => .fault .unbound

/-- The end of READ_REGISTER (R158). -/
def returnRegister (v : View) : Tick :=
  match v.c.ret.result with
  | some (.bytes [b0, b1, b2, b3]) => .moved (v.endOp .ok (some (.register [b0, b1, b2, b3] (fromLe32 b0 b1 b2 b3))))
  | _ => .fault .unbound

/-- The end of the operations that return the bytes of their transaction (R120, R160, R162). -/
def returnBytes (v : View) : Tick :=
  match v.c.ret.result with
  | some (.bytes bs) => .moved (v.endOp .ok (some (.bytes bs)))
  | _ => .fault .unbound

/-- The end of GET_IRQ_STATUS (R170). -/
def returnWord (v : View) : Tick :=
  match v.c.ret.result with
  | some (.register _ value) => .moved (v.endOp .ok (some (.word value)))
  | _ => .fault .unbound

/-- The end of GET_TRANSCEIVE_STATE: the state read, or Idle with `TS_FALLBACK` set when the read failed (R172). -/
def returnState (v : View) : Tick :=
  if v.c.ret.status = .ok then
    match v.c.ret.result with
    | some (.register _ value) =>
      .moved (({ v with c := { v.c with tsFallback := false } }).endOp .ok
        (some (.transceiver (transceiverOf v.params value))))
    | _ => .fault .unbound
  else .moved (({ v with c := { v.c with tsFallback := true } }).endOp .ok (some (.transceiver .idle)))

/-- The head of the slot loop (R240 step 5). -/
def slotLoop (v : View) : Tick :=
  match v.c.invSlot with
  | none => .fault (.noValue .invSlot)
  | some k => if k < v.params.nSlots then .moved (v.prepend (slotBody v.params)) else .moved v

/-- "a tag responded in this slot": the RX start-of-frame bit of the IRQ status just read (R243). -/
def sofTest (v : View) : Tick :=
  match v.c.ret.result with
  | some (.word s) =>
    if bitSet s v.params.irqBitRxSof then .moved (v.prepend (slotResponse v.params)) else .moved v
  | _ => .fault .unbound

/-- READ_DATA of the length in the RX_STATUS just read (R243). -/
def slotRead (v : View) : Tick :=
  match v.c.ret.result with
  | some (.register _ value) => .moved (v.prepend [.call (.readData (responseLength v.params value)), .slotFrame])
  | _ => .fault .unbound

/-- A frame is appended and counted; a RangeError of READ_DATA is skipped; any other error aborts (R243, R245). -/
def slotFrame (v : View) : Tick :=
  if v.c.ret.status = .ok then
    match v.c.ret.result, v.c.invFrames, v.c.invCount with
    | some (.bytes fr), some frames, some count =>
      .moved { v with c := { v.c with invFrames := some (frames ++ [fr]), invCount := some (count + 1) } }
    | some (.bytes _), none, _ => .fault (.noValue .invFrames)
    | some (.bytes _), some _, none => .fault (.noValue .invCount)
    | _, _, _ => .fault .unbound
  else if v.c.ret.status = .rangeError then .moved v
  else .moved (v.raise v.c.ret.status)

/-- Step 6 and the return of the triple (R240, R246, R247). -/
def invReturn (v : View) : Tick :=
  match v.c.invCount, v.c.invFrames with
  | none, _ => .fault (.noValue .invCount)
  | some _, none => .fault (.noValue .invFrames)
  | some count, some frames =>
    .moved (v.endOp .ok (some (.inventory (if 1 ≤ count then .ok else .noCard) count frames)))

/-- One step of the pseudocode of the operation in progress, `op`. In `v` the step has been taken off what remains; a
transaction that has to be called leaves it in place (`v0`) until the bus is granted. -/
def microStep (v0 v : View) (op : Instr) : Micro → Tick
  | .initCheck => if v.c.begun then .moved v else .moved (v.raise .notInitialised)
  | .rangeCheck => if rangeOk v.params op then .moved v else .moved (v.raise .rangeError)
  | .transact tx _ => if tx = [] then .moved (v.raise .rangeError) else .moved (v0.enter .arb)
  | .call i => .moved (v.startOp i (programOf v.params i))
  | .propagate => if v.c.ret.status = .ok then .moved v else .moved (v.raise v.c.ret.status)
  | .irqPoll bit stage k => .moved (v.prepend [.call .getIrqStatus, .propagate, .irqTest bit stage k])
  | .irqTest bit stage k => irqTest v bit stage k
  | .setRst active => .moved (v.setRst (rstLevel v.params active))
  | .deselect => .moved (v.setNss high)
  | .setBegun => .moved { v with c := { v.c with begun := true } }
  | .delay t => .moved (v.wait t)
  | .stateCheck => stateCheck v
  | .returnTrue => .moved (v.endOp .ok (some (.bool true)))
  | .returnBytes => returnBytes v
  | .returnRegister => returnRegister v
  | .returnWord => returnWord v
  | .returnState => returnState v
  | .invStart => .moved { v with c := { v.c with invFrames := some [], invCount := some 0 } }
  | .invPhase ph => .moved { v with c := { v.c with invPhase := ph } }
  | .invSlotZero => .moved { v with c := { v.c with invSlot := some 0 } }
  | .slotLoop => slotLoop v
  | .sofTest => sofTest v
  | .slotRead => slotRead v
  | .slotFrame => slotFrame v
  | .eofCheck =>
    if v.c.ret.status = .deviceNotResponding then .moved (v.raise .deviceNotResponding) else .moved v
  | .slotNext =>
    match v.c.invSlot with
    | none => .fault (.noValue .invSlot)
    | some k => .moved { v with c := { v.c with invSlot := some (k + 1) } }
  | .invReturn => invReturn v

/-- One step of the operation in progress while no transaction runs. -/
def tickIdle (v : View) : Tick :=
  match v.c.stack with
  | [] => .held
  | ⟨_, []⟩ :: _ => .moved (v.endOp .ok none)
  | ⟨op, m :: rest⟩ :: fs => microStep v { v with c := { v.c with stack := ⟨op, rest⟩ :: fs } } op m

/-- One transition of a handle controller (10_state.md R22: its position is `OP`, `TE_PHASE`, `INV_PHASE`, `INV_SLOT`). -/
def tick (v : View) : Tick :=
  if v.c.tePhase = .idle then tickIdle v else tickEngine v v.c.tePhase

/-- Up to `q` transitions of one handle controller. -/
def run : Nat → View → Except Fault View
  | 0, v => .ok v
  | q + 1, v =>
    match tick v with
    | .moved w => run q w
    | .held => .ok v
    | .fault f => .error f

/-- The rest of the present turn, for the handle whose view is given. -/
def State.runTurn (s : State) (v : View) : Host.Outcome State Fault Refusal :=
  match run s.now.quantum v with
  | .ok w => .next (s.put w)
  | .error f => .fault f

/-- HOST issues an operation to the controller whose turn it is: accepted only while `OP[h] = None` (30_encoding.md R80, R101,
R319). An accepted operation starts and runs for the turn. -/
def issue (op : Instr) (prog : Params → List Micro) (s : State) : Host.Outcome State Fault Refusal :=
  match s.view s.now.handle with
  | none => .next (s.reject s.now.handle .noSuchHandle)
  | some v =>
    if v.c.op = none then
      s.runTurn (({ v with c := { v.c with op := some op } }).startOp op (prog s.params))
    else .next (s.reject s.now.handle .handleBusy)

end Sys2Proof.Machine
end

