-- ==== Sys2Proof/Machine/Command.lean ====
section
/-! DEFINITION. The meanings of TRANSACT and of the operations of the Chip Command Layer (40_transaction_engine.md R120;
41_command_layer.md). -/

namespace Sys2Proof.Machine

/-- TRANSACT (R120). -/
def execTransact (tx : List Byte) (n : Nat) (s : State) : Host.Outcome State Fault Refusal :=
  issue (.transact tx n) (fun _ => progTransact tx n) s

/-- WRITE_REGISTER (R155). -/
def execWriteRegister (addr value : Nat) (s : State) : Host.Outcome State Fault Refusal :=
  issue (.writeRegister addr value) (fun _ => progWriteRegister addr value) s

/-- WRITE_REGISTER_OR (R156). -/
def execWriteRegisterOr (addr mask : Nat) (s : State) : Host.Outcome State Fault Refusal :=
  issue (.writeRegisterOr addr mask) (fun _ => progWriteRegisterOr addr mask) s

/-- WRITE_REGISTER_AND (R157). -/
def execWriteRegisterAnd (addr mask : Nat) (s : State) : Host.Outcome State Fault Refusal :=
  issue (.writeRegisterAnd addr mask) (fun _ => progWriteRegisterAnd addr mask) s

/-- READ_REGISTER (R158). -/
def execReadRegister (addr : Nat) (s : State) : Host.Outcome State Fault Refusal :=
  issue (.readRegister addr) (fun _ => progReadRegister addr) s

/-- READ_EEPROM (R160). -/
def execReadEeprom (addr len : Nat) (s : State) : Host.Outcome State Fault Refusal :=
  issue (.readEeprom addr len) (fun _ => progReadEeprom addr len) s

/-- SEND_DATA (R165). -/
def execSendData (payload : List Byte) (validBits : Nat) (s : State) : Host.Outcome State Fault Refusal :=
  issue (.sendData payload validBits) (fun p => progSendData p payload validBits) s

/-- READ_DATA (R162). -/
def execReadData (len : Nat) (s : State) : Host.Outcome State Fault Refusal :=
  issue (.readData len) (fun _ => progReadData len) s

/-- LOAD_RF_CONFIG (R163). -/
def execLoadRfConfig (txConf rxConf : Nat) (s : State) : Host.Outcome State Fault Refusal :=
  issue (.loadRfConfig txConf rxConf) (fun _ => progLoadRfConfig txConf rxConf) s

/-- RF_ON (R167). -/
def execRfOn (s : State) : Host.Outcome State Fault Refusal := issue .rfOn progRfOn s

/-- RF_OFF (R168). -/
def execRfOff (s : State) : Host.Outcome State Fault Refusal := issue .rfOff (fun _ => progRfOff) s

/-- GET_IRQ_STATUS (R170). -/
def execGetIrqStatus (s : State) : Host.Outcome State Fault Refusal := issue .getIrqStatus progGetIrqStatus s

/-- CLEAR_IRQ_STATUS (R171). -/
def execClearIrqStatus (mask : Nat) (s : State) : Host.Outcome State Fault Refusal :=
  issue (.clearIrqStatus mask) (fun p => progClearIrqStatus p mask) s

/-- GET_TRANSCEIVE_STATE (R172). -/
def execGetTransceiveState (s : State) : Host.Outcome State Fault Refusal :=
  issue .getTransceiveState progGetTransceiveState s

end Sys2Proof.Machine
end

