-- ==== Sys2Proof/Machine/Inventory.lean ====
section
/-! DEFINITION. The meanings of SETUP_RF and GET_INVENTORY_16_SLOTS (43_inventory.md R230, R240). -/

namespace Sys2Proof.Machine

/-- SETUP_RF (R230). -/
def execSetupRf (s : State) : Host.Outcome State Fault Refusal := issue .setupRf progSetupRf s

/-- GET_INVENTORY_16_SLOTS (R240). -/
def execGetInventory (s : State) : Host.Outcome State Fault Refusal := issue .getInventory16Slots progGetInventory s

end Sys2Proof.Machine
end

