-- ==== Sys2Proof/Machine/Radio.lean ====
section
/-! DEFINITION. The meanings of BEGIN, RESET and SEND_EOF (42_radio_controller.md R200, R202, R204). -/

namespace Sys2Proof.Machine

/-- BEGIN (R200). -/
def execBegin (s : State) : Host.Outcome State Fault Refusal := issue .beginLines (fun _ => progBegin) s

/-- RESET (R202). -/
def execReset (s : State) : Host.Outcome State Fault Refusal := issue .resetChip progReset s

/-- SEND_EOF (R204). -/
def execSendEof (s : State) : Host.Outcome State Fault Refusal := issue .sendEof (fun _ => progSendEof) s

end Sys2Proof.Machine
end

