-- ==== Sys2Proof/Machine/Wire.lean ====
section
/-! DEFINITION. The meanings of the ten wire command frames of spec/opcode_table.json. A frame is exactly the byte sequence
written in the write phase of one transaction (30_encoding.md R83), so as an instruction it is TRANSACT of that frame with the
receive length of R99 (DESIGN CHOICE, log 11). -/

namespace Sys2Proof.Machine

/-- WIRE_WRITE_REGISTER (R84). -/
def execWireWriteRegister (addr : Byte) (value : Word) (s : State) : Host.Outcome State Fault Refusal :=
  issue (.transact (writeRegisterFrame addr value) 0) (fun _ => progTransact (writeRegisterFrame addr value) 0) s

/-- WIRE_WRITE_REGISTER_OR_MASK (R85). -/
def execWireWriteRegisterOrMask (addr : Byte) (mask : Word) (s : State) : Host.Outcome State Fault Refusal :=
  issue (.transact (writeRegisterOrFrame addr mask) 0) (fun _ => progTransact (writeRegisterOrFrame addr mask) 0) s

/-- WIRE_WRITE_REGISTER_AND_MASK (R86). -/
def execWireWriteRegisterAndMask (addr : Byte) (mask : Word) (s : State) : Host.Outcome State Fault Refusal :=
  issue (.transact (writeRegisterAndFrame addr mask) 0) (fun _ => progTransact (writeRegisterAndFrame addr mask) 0) s

/-- WIRE_READ_REGISTER (R87). -/
def execWireReadRegister (addr : Byte) (s : State) : Host.Outcome State Fault Refusal :=
  issue (.transact (readRegisterFrame addr) 4) (fun _ => progTransact (readRegisterFrame addr) 4) s

/-- WIRE_READ_EEPROM (R88). -/
def execWireReadEeprom (addr len : Byte) (s : State) : Host.Outcome State Fault Refusal :=
  issue (.transact (readEepromFrame addr len) len.toNat) (fun _ => progTransact (readEepromFrame addr len) len.toNat) s

/-- WIRE_SEND_DATA (R89). -/
def execWireSendData (validBits : Byte) (payload : List Byte) (s : State) : Host.Outcome State Fault Refusal :=
  issue (.transact (sendDataFrame validBits payload) 0) (fun _ => progTransact (sendDataFrame validBits payload) 0) s

/-- WIRE_READ_DATA (R90). -/
def execWireReadData (len : Nat) (s : State) (second : Byte := 0x00#8) : Host.Outcome State Fault Refusal :=
  issue (.transact (readDataFrame second) len) (fun _ => progTransact (readDataFrame second) len) s

/-- WIRE_LOAD_RF_CONFIG (R91). -/
def execWireLoadRfConfig (txConf rxConf : Byte) (s : State) : Host.Outcome State Fault Refusal :=
  issue (.transact (loadRfConfigFrame txConf rxConf) 0) (fun _ => progTransact (loadRfConfigFrame txConf rxConf) 0) s

/-- WIRE_RF_ON (R92). -/
def execWireRfOn (s : State) (second : Byte := 0x00#8) : Host.Outcome State Fault Refusal :=
  issue (.transact (rfOnFrame second) 0) (fun _ => progTransact (rfOnFrame second) 0) s

/-- WIRE_RF_OFF (R93). -/
def execWireRfOff (s : State) (second : Byte := 0x00#8) : Host.Outcome State Fault Refusal :=
  issue (.transact (rfOffFrame second) 0) (fun _ => progTransact (rfOffFrame second) 0) s

end Sys2Proof.Machine
end

