-- ==== Sys2Proof/Machine/Dispatch.lean ====
section
/-! DEFINITION. One arm per instruction. -/

namespace Sys2Proof.Machine

def exec (i : Instr) (s : State) : Host.Outcome State Fault Refusal :=
  match i with
  | .wireWriteRegister addr value => Sys2Proof.Machine.execWireWriteRegister addr value s
  | .wireWriteRegisterOrMask addr mask => Sys2Proof.Machine.execWireWriteRegisterOrMask addr mask s
  | .wireWriteRegisterAndMask addr mask => Sys2Proof.Machine.execWireWriteRegisterAndMask addr mask s
  | .wireReadRegister addr => Sys2Proof.Machine.execWireReadRegister addr s
  | .wireReadEeprom addr len => Sys2Proof.Machine.execWireReadEeprom addr len s
  | .wireSendData validBits payload => Sys2Proof.Machine.execWireSendData validBits payload s
  | .wireReadData len second => Sys2Proof.Machine.execWireReadData len s second
  | .wireLoadRfConfig txConf rxConf => Sys2Proof.Machine.execWireLoadRfConfig txConf rxConf s
  | .wireRfOn second => Sys2Proof.Machine.execWireRfOn s second
  | .wireRfOff second => Sys2Proof.Machine.execWireRfOff s second
  | .transact tx n => Sys2Proof.Machine.execTransact tx n s
  | .writeRegister addr value => Sys2Proof.Machine.execWriteRegister addr value s
  | .writeRegisterOr addr mask => Sys2Proof.Machine.execWriteRegisterOr addr mask s
  | .writeRegisterAnd addr mask => Sys2Proof.Machine.execWriteRegisterAnd addr mask s
  | .readRegister addr => Sys2Proof.Machine.execReadRegister addr s
  | .readEeprom addr len => Sys2Proof.Machine.execReadEeprom addr len s
  | .sendData payload validBits => Sys2Proof.Machine.execSendData payload validBits s
  | .readData len => Sys2Proof.Machine.execReadData len s
  | .loadRfConfig txConf rxConf => Sys2Proof.Machine.execLoadRfConfig txConf rxConf s
  | .rfOn => Sys2Proof.Machine.execRfOn s
  | .rfOff => Sys2Proof.Machine.execRfOff s
  | .getIrqStatus => Sys2Proof.Machine.execGetIrqStatus s
  | .clearIrqStatus mask => Sys2Proof.Machine.execClearIrqStatus mask s
  | .getTransceiveState => Sys2Proof.Machine.execGetTransceiveState s
  | .beginLines => Sys2Proof.Machine.execBegin s
  | .resetChip => Sys2Proof.Machine.execReset s
  | .sendEof => Sys2Proof.Machine.execSendEof s
  | .setupRf => Sys2Proof.Machine.execSetupRf s
  | .getInventory16Slots => Sys2Proof.Machine.execGetInventory s

end Sys2Proof.Machine
end

