-- ==== Sys2Proof/Machine/Schedule.lean ====
section
/-! DEFINITION. The schedule, the inbox and what a turn does (10_state.md R20; 30_encoding.md R80, R101; 60_exceptions.md
R285, R286, R287; log 5). -/

namespace Sys2Proof.Machine

/-- The next turn: the head of the schedule, or a free turn once the schedule is empty (log 5). -/
def State.takeTurn (s : State) : State :=
  match s.sched with
  | t :: ts => { s with sched := ts, now := t }
  | [] =>
    { s with
      now := ⟨Config.freeTurnHandle s.turnsDrawn, Config.freeTurnQuantum s.turnsDrawn⟩, turnsDrawn := s.turnsDrawn + 1 }

/-- The oldest request for handle `h`, and the inbox without it. -/
def takeRequest (h : Nat) : List Request → Option (Request × List Request)
  | [] => none
  | r :: rs =>
    if r.handle = h then some (r, rs)
    else
      match takeRequest h rs with
      | some (q, qs) => some (q, r :: qs)
      | none => none

/-- A handle controller with no operation in progress takes its oldest request: an instruction runs, anything else is
refused (R80, R101). With no request it does nothing. -/
def acceptRequest (ex : Instr → State → Host.Outcome State Fault Refusal) (s : State) : Host.Outcome State Fault Refusal :=
  match takeRequest s.now.handle s.inbox with
  | none => .next s
  | some (r, rest) =>
    match decode r.body with
    | .ok i => ex i { s with inbox := rest }
    | .error e => .next ({ s with inbox := rest }.reject s.now.handle (.undecodable e))

/-- What the turn `s.now` does. -/
def turnStep (ex : Instr → State → Host.Outcome State Fault Refusal) (s : State) : Host.Outcome State Fault Refusal :=
  match s.view s.now.handle with
  | none => acceptRequest ex s
  | some v => if v.c.op = none then acceptRequest ex s else s.runTurn v

/-- How many transitions the turn of a placed request allows: enough for any operation on the reference parameters. -/
def placedQuantum : Nat := 100000

/-- A controller with no operation and no transaction in progress. -/
def Handle.ready (c : Handle) : Handle := { c with op := none, stack := [], tePhase := .idle }

/-- `s` with a request placed so that the very next step runs it: the request first in the inbox, its handle ready to accept
it and not the bus owner, and the next turn given to its handle (log 14). -/
def State.placeRequest (s : State) (r : Request) : State :=
  { s with
    handles := s.handles.modify r.handle Handle.ready
    shared := { s.shared with busOwner := if s.shared.busOwner = some r.handle then none else s.shared.busOwner }
    inbox := r :: s.inbox
    sched := ⟨r.handle, placedQuantum⟩ :: s.sched }

end Sys2Proof.Machine
end

