-- ==== Sys2Proof/Machine/Step.lean ====
section
/-! DEFINITION. One step of the machine: the next turn's handle controller goes on with its operation, or accepts its next
request, or has nothing to do. -/

namespace Sys2Proof.Machine

/-- One step: a turn is taken; a controller inside an operation goes on with it; otherwise its oldest request is decoded and
run, or refused (30_encoding.md R80, R101); a controller with neither does nothing. -/
def step (s : State) : Host.Outcome State Fault Refusal := turnStep exec s.takeTurn

/-- `s` with the request a table word asks for placed first in the inbox of handle 0, handle 0 ready to accept it, and the
next turn given to handle 0 (log 14). -/
def State.withFetchWord (s : State) (nbits w : Nat) : State := s.placeRequest ⟨0, tableBody nbits w⟩

end Sys2Proof.Machine
end

