-- ==== Sys2Proof/WellFormed.lean ====
section
/-! DEFINITION. Which instructions have their operands in the accepted ranges of 30_encoding.md R82. An instruction outside
them is still a request the controller accepts, and it ends with RangeError (41_command_layer.md R151). -/

namespace Sys2Proof

/-- Every operand lies in the accepted range of R82; a frame's payload has the length R89 allows, a frame's read length
the one its table row allows (R88, R90), a frame's value or mask the width of R10, and a frame's second byte is the 0x00 of
R90, R92, R93. -/
def Instr.wf (p : Params) : Instr → Bool
  | .wireWriteRegister addr value => decide (addr.toNat ≤ p.regAddrMax) && decide (value.toNat < 2 ^ p.regValueBits)
  | .wireWriteRegisterOrMask addr mask => decide (addr.toNat ≤ p.regAddrMax) && decide (mask.toNat < 2 ^ p.regValueBits)
  | .wireWriteRegisterAndMask addr mask => decide (addr.toNat ≤ p.regAddrMax) && decide (mask.toNat < 2 ^ p.regValueBits)
  | .wireReadRegister addr => decide (addr.toNat ≤ p.regAddrMax)
  | .wireReadEeprom addr _ => decide (addr.toNat ≤ p.eepromMaxAddr)
  | .wireSendData _ payload => decide (payload.length ≤ p.maxSendPayload)
  | .wireReadData len second => decide (second = 0x00#8) && decide (len ≤ p.maxReadData)
  | .wireLoadRfConfig _ _ => true
  | .wireRfOn second => decide (second = 0x00#8)
  | .wireRfOff second => decide (second = 0x00#8)
  | .transact tx _ => decide (1 ≤ tx.length)
  | .writeRegister addr value => decide (addr ≤ p.regAddrMax) && decide (value < 2 ^ p.regValueBits)
  | .writeRegisterOr addr mask => decide (addr ≤ p.regAddrMax) && decide (mask < 2 ^ p.regValueBits)
  | .writeRegisterAnd addr mask => decide (addr ≤ p.regAddrMax) && decide (mask < 2 ^ p.regValueBits)
  | .readRegister addr => decide (addr ≤ p.regAddrMax)
  | .readEeprom addr len => decide (addr ≤ p.eepromMaxAddr) && decide (len ≤ 255)
  | .sendData payload validBits => decide (payload.length ≤ p.maxSendPayload) && decide (validBits ≤ 255)
  | .readData len => decide (len ≤ p.maxReadData)
  | .loadRfConfig txConf rxConf => decide (txConf ≤ 255) && decide (rxConf ≤ 255)
  | .rfOn => true
  | .rfOff => true
  | .getIrqStatus => true
  | .clearIrqStatus mask => decide (mask < 2 ^ p.regValueBits)
  | .getTransceiveState => true
  | .beginLines => true
  | .resetChip => true
  | .sendEof => true
  | .setupRf => true
  | .getInventory16Slots => true

end Sys2Proof
end

