-- ==== Sys2Proof/Safety.lean ====
section
/-! DEFINITION. The vocabulary of the claims: the invariant of the machine, the environments under which an operation
completes, and what a completed operation adds to the log, the data lines and the debug trace. -/

namespace Sys2Proof.Machine

/-! ### The invariant -/

/-- The kind of value an operation returns when it ends `Ok` (30_encoding.md R80, column "result"). -/
inductive Kind where
  | nothing
  | bytes (n : Nat)
  | register
  | word
  | transceiver
  | bool
  | inventory
  deriving DecidableEq, Repr

/-- The kind of an operation's result (R80). -/
def resultKind : Instr → Kind
  | .wireWriteRegister _ _ => .bytes 0
  | .wireWriteRegisterOrMask _ _ => .bytes 0
  | .wireWriteRegisterAndMask _ _ => .bytes 0
  | .wireReadRegister _ => .bytes 4
  | .wireReadEeprom _ len => .bytes len.toNat
  | .wireSendData _ _ => .bytes 0
  | .wireReadData len _ => .bytes len
  | .wireLoadRfConfig _ _ => .bytes 0
  | .wireRfOn _ => .bytes 0
  | .wireRfOff _ => .bytes 0
  | .transact _ n => .bytes n
  | .writeRegister _ _ => .nothing
  | .writeRegisterOr _ _ => .nothing
  | .writeRegisterAnd _ _ => .nothing
  | .readRegister _ => .register
  | .readEeprom _ len => .bytes len
  | .sendData _ _ => .bool
  | .readData len => .bytes len
  | .loadRfConfig _ _ => .bool
  | .rfOn => .bool
  | .rfOff => .bool
  | .getIrqStatus => .word
  | .clearIrqStatus _ => .nothing
  | .getTransceiveState => .transceiver
  | .beginLines => .nothing
  | .resetChip => .nothing
  | .sendEof => .bool
  | .setupRf => .bool
  | .getInventory16Slots => .inventory

/-- A value is of a kind. -/
def Kind.fits : Kind → Option Result → Bool
  | .nothing, none => true
  | .bytes n, some (.bytes bs) => decide (bs.length = n)
  | .register, some (.register _ _) => true
  | .word, some (.word _) => true
  | .transceiver, some (.transceiver _) => true
  | .bool, some (.bool b) => b
  | .inventory, some (.inventory outcome count ids) =>
    decide (outcome = if 1 ≤ count then .ok else .noCard) && decide (count = ids.length)
  | _, _ => false

/-- What is known of the value the last call returned. -/
inductive Know where
  | anything
  /-- The outcome of a call whose value is of kind `k`: an error, or such a value. -/
  | outcomeOf (k : Kind)
  /-- A value of kind `k`. -/
  | valueOf (k : Kind)
  deriving DecidableEq, Repr

/-- What is known holds of a returned value. -/
def Know.holds : Know → Ret → Prop
  | .anything, _ => True
  | .outcomeOf k, r => r.status = .ok → k.fits r.result = true
  | .valueOf k, r => r.status = .ok ∧ k.fits r.result = true

/-- What is known once the `?` after a call has let the operation go on. -/
def Know.checked : Know → Know
  | .anything => .anything
  | .outcomeOf k => .valueOf k
  | .valueOf k => .valueOf k

/-- What remains of an operation reads no value that was not returned and no inventory register that was not written
(10_state.md R44), and ends with a value of its kind. `iv`: INV_COUNT and INV_FRAMES hold values; `sl`: INV_SLOT does. -/
def todoOk (op : Instr) : Know → Bool → Bool → List Micro → Bool
  | _, _, _, [] => decide (resultKind op = .nothing)
  | k, iv, sl, m :: r =>
    match m with
    | .initCheck => todoOk op k iv sl r
    | .rangeCheck => todoOk op k iv sl r
    | .transact _ n => todoOk op (.outcomeOf (.bytes n)) iv sl r
    | .call i => decide (i ≠ .getInventory16Slots) && todoOk op (.outcomeOf (resultKind i)) iv sl r
    | .propagate => todoOk op k.checked iv sl r
    | .irqPoll _ _ _ => todoOk op (.valueOf .word) iv sl r
    | .irqTest _ _ _ => decide (k = .valueOf .word) && todoOk op k iv sl r
    | .setRst _ => todoOk op k iv sl r
    | .deselect => todoOk op k iv sl r
    | .setBegun => todoOk op k iv sl r
    | .delay _ => todoOk op k iv sl r
    | .stateCheck => decide (k = .valueOf .transceiver) && todoOk op k iv sl r
    | .returnTrue => decide (resultKind op = .bool)
    | .returnBytes =>
      match resultKind op with
      | .bytes n => decide (k = .valueOf (.bytes n))
      | _ => false
    | .returnRegister => decide (k = .valueOf (.bytes 4)) && decide (resultKind op = .register)
    | .returnWord => decide (k = .valueOf .register) && decide (resultKind op = .word)
    | .returnState => decide (k = .outcomeOf .register) && decide (resultKind op = .transceiver)
    | .invStart => decide (op = .getInventory16Slots) && todoOk op k true sl r
    | .invPhase _ => decide (op = .getInventory16Slots) && todoOk op k iv sl r
    | .invSlotZero => decide (op = .getInventory16Slots) && todoOk op k iv true r
    | .slotLoop => decide (op = .getInventory16Slots) && iv && sl && todoOk op .anything iv sl r
    | .sofTest => decide (op = .getInventory16Slots) && iv && decide (k = .valueOf .word) && todoOk op .anything iv sl r
    | .slotRead =>
      decide (op = .getInventory16Slots) && iv && decide (k = .valueOf .register) && todoOk op .anything iv sl r
    | .slotFrame =>
      match k with
      | .outcomeOf (.bytes _) => decide (op = .getInventory16Slots) && iv && todoOk op .anything iv sl r
      | _ => false
    | .eofCheck => todoOk op .anything iv sl r
    | .slotNext => decide (op = .getInventory16Slots) && sl && todoOk op .anything iv sl r
    | .invReturn => decide (op = .getInventory16Slots) && iv

/-- Every operation on the control stack has a sound remainder, given what is known of the value returned to the innermost
one; GET_INVENTORY_16_SLOTS is nobody's sub-operation (R280). -/
def stackOk (iv sl : Bool) : Know → List Frame → Bool
  | _, [] => true
  | k, f :: fs =>
    todoOk f.op k iv sl f.todo && (decide (f.op ≠ .getInventory16Slots) || fs.isEmpty) &&
      stackOk iv sl (.outcomeOf (resultKind f.op)) fs

/-- INV_COUNT and INV_FRAMES hold values. -/
def Handle.hasInventory (c : Handle) : Bool := c.invCount.isSome && c.invFrames.isSome

/-- The transaction engine's registers in each phase (10_state.md R24, R25, R43; 40_transaction_engine.md R121). -/
def Handle.engineOk (c : Handle) : Prop :=
  match ownsBus c.tePhase with
  | false => c.txBuf = none ∧ c.txIdx = none ∧ c.rxLen = none ∧ c.rxBuf = none ∧ c.pollCnt = none
  | true =>
    ∃ tx idx n rx cnt, c.txBuf = some tx ∧ c.txIdx = some idx ∧ c.rxLen = some n ∧ c.rxBuf = some rx ∧ c.pollCnt = some cnt ∧
      tx ≠ [] ∧ idx ≤ tx.length ∧ rx.length ≤ n ∧
      (c.tePhase ∈ [.wReadyTx, .txSetup] → idx = 0) ∧
      (c.tePhase ∉ [.wReadyTx, .txSetup, .txBytes] → idx = tx.length) ∧
      (c.tePhase ∉ [.rxBytes, .wAcceptRx, .rxHold, .wDoneRx] → rx = []) ∧
      (c.tePhase ∈ [.rxSetup, .rxBytes, .wAcceptRx, .rxHold, .wDoneRx] → 0 < n) ∧
      (c.tePhase ∈ [.wAcceptRx, .rxHold, .wDoneRx] → rx.length = n)

/-- The control stack agrees with the phase of the engine. -/
def Handle.controlOk (c : Handle) : Prop :=
  match c.tePhase with
  | .idle => ∃ k : Know, k.holds c.ret ∧ stackOk c.hasInventory c.invSlot.isSome k c.stack = true
  | .arb =>
    ∃ op tx n rest fs, c.stack = ⟨op, .transact tx n :: rest⟩ :: fs ∧ tx ≠ [] ∧
      stackOk c.hasInventory c.invSlot.isSome .anything c.stack = true
  | _ =>
    ∃ n, c.rxLen = some n ∧ c.stack ≠ [] ∧
      stackOk c.hasInventory c.invSlot.isSome (.outcomeOf (.bytes n)) c.stack = true

/-- The invariant of one handle controller. -/
structure Handle.Ok (c : Handle) : Prop where
  /-- Chip-select is asserted exactly in the phases of 40_transaction_engine.md R122. -/
  chipSelect : c.nss = some low ↔ assertsNss c.tePhase = true
  /-- The engine's registers. -/
  engine : c.engineOk
  /-- The control stack. -/
  control : c.controlOk
  /-- `OP[h]` is the outermost operation in progress (10_state.md R26). -/
  opInProgress : c.op = c.stack.getLast?.map Frame.op
  /-- The inventory registers hold no value outside GET_INVENTORY_16_SLOTS (70_reset_and_hazards.md R305). -/
  inventoryEnded : c.op ≠ some .getInventory16Slots →
    c.invPhase = .idle ∧ c.invSlot = none ∧ c.invCount = none ∧ c.invFrames = none
  /-- `len(INV_FRAMES) = INV_COUNT` (10_state.md R28). -/
  framesCounted : ∀ count frames, c.invCount = some count → c.invFrames = some frames → count = frames.length

/-- The invariant of the machine. -/
structure State.Inv (s : State) : Prop where
  /-- Every handle controller is sound. -/
  handleOk : ∀ (h : Nat) (c : Handle), s.handles[h]? = some c → c.Ok
  /-- `BUS_OWNER` is the handle inside `Transact` past `TE_ARB`, and `None` when there is none (10_state.md R29). -/
  busOwned : ∀ (h : Nat) (c : Handle), s.handles[h]? = some c → (ownsBus c.tePhase = true ↔ s.shared.busOwner = some h)
  /-- The bus owner exists. -/
  ownerExists : ∀ h : Nat, s.shared.busOwner = some h → h < s.handles.length

/-! ### What an operation adds to the shared observations -/

/-- What is appended to the log, to the byte slots and to the debug trace. -/
structure Trail where
  log : List LogRec
  slots : List Slot
  trace : List TraceRec
  deriving DecidableEq, Repr

/-- Nothing appended. -/
def Trail.empty : Trail := ⟨[], [], []⟩

/-- One trail after another. -/
def Trail.append (a b : Trail) : Trail := ⟨a.log ++ b.log, a.slots ++ b.slots, a.trace ++ b.trace⟩

/-- Several trails, one after another. -/
def Trail.concat : List Trail → Trail
  | [] => .empty
  | t :: ts => t.append (Trail.concat ts)

/-- The shared state with a trail appended. -/
def Shared.extend (b : Shared) (t : Trail) : Shared :=
  { b with log := b.log ++ t.log, slots := b.slots ++ t.slots, trace := b.trace ++ t.trace }

/-- A trace record, emitted only while `DEBUG_ENABLE` (60_exceptions.md R290). -/
def traced (p : Params) (r : TraceRec) : List TraceRec := if p.debugEnable then [r] else []

/-- One completed transaction as the environment sees it: the frame, the bytes received and discarded while it is written,
the bytes received in the read phase, and how many samples of each busy wait fail before the awaited level is read. -/
structure Xfer where
  tx : List Byte
  junk : List Byte
  rx : List Byte
  waitReadyTx : Nat
  waitAcceptTx : Nat
  waitDoneTx : Nat
  waitAcceptRx : Nat
  waitDoneRx : Nat
  deriving DecidableEq, Repr

/-- The busy samples of a completed transaction: in each wait the failing samples, then the awaited level. -/
def Xfer.busy (x : Xfer) : List Level :=
  List.replicate x.waitReadyTx high ++ [low] ++ List.replicate x.waitAcceptTx low ++ [high] ++
    List.replicate x.waitDoneTx high ++ [low] ++
    (if x.rx = [] then [] else List.replicate x.waitAcceptRx low ++ [high] ++ List.replicate x.waitDoneRx high ++ [low])

/-- The data-in bytes of a completed transaction. -/
def Xfer.data (x : Xfer) : List Byte := x.junk ++ x.rx

/-- A byte is received for each byte written, and no wait reaches the poll limit (40_transaction_engine.md R119). -/
def Xfer.Fits (p : Params) (x : Xfer) : Prop :=
  x.junk.length = x.tx.length ∧
    ∀ w ∈ [x.waitReadyTx, x.waitAcceptTx, x.waitDoneTx, x.waitAcceptRx, x.waitDoneRx], limitReached p.pollLimitBusy w = false

/-- A transaction of a given frame and read length. -/
def Xfer.Carries (x : Xfer) (tx : List Byte) (n : Nat) : Prop := x.tx = tx ∧ x.rx.length = n

/-- The log of a completed transaction (40_transaction_engine.md R120). -/
def Xfer.log (p : Params) (h : Nat) (x : Xfer) : List LogRec :=
  [.txnStart h x.tx x.rx.length, .nss h low, .delay h (.ms p.tCsSetupMs), .nss h high, .delay h (.ms p.tCsHoldMs)] ++
    (if x.rx = [] then []
     else [.nss h low, .delay h (.ms p.tCsSetupMs), .nss h high, .delay h (.ms p.tCsHoldMs)]) ++
    [.txnEnd h .ok x.rx]

/-- The byte slots of a completed transaction (R123, R124). -/
def Xfer.slots (p : Params) (h : Nat) (x : Xfer) : List Slot :=
  List.zipWith (fun o i => ⟨h, o, i⟩) x.tx x.junk ++ x.rx.map fun i => ⟨h, p.readFillByte, i⟩

/-- The value of the four bytes of a register read, least significant byte first (20_memory.md R62). -/
def registerValue : List Byte → Word
  | [b0, b1, b2, b3] => fromLe32 b0 b1 b2 b3
  | _ => 0

/-- What a completed transaction adds, called by operation `op`. -/
def trailTxn (p : Params) (h : Nat) (op : Instr) (x : Xfer) : Trail :=
  ⟨x.log p h, x.slots p h, traced p ⟨h, some op, registerAddress op, x.tx⟩⟩

/-- What an operation adds around what its body adds (41_command_layer.md R150). -/
def trailOp (p : Params) (h : Nat) (op : Instr) (st : Status) (r : Option Result) (body : Trail) : Trail :=
  ⟨[.opStart h op] ++ body.log ++ [.opEnd h st r], body.slots,
    traced p ⟨h, some op, registerAddress op, operandBytes op⟩ ++ body.trace⟩

/-! ### What the operations that others call add -/

/-- READ_REGISTER of `addr`, answered by `x` (41_command_layer.md R158). -/
def trailRead (p : Params) (h addr : Nat) (x : Xfer) : Trail :=
  trailOp p h (.readRegister addr) .ok (some (.register x.rx (registerValue x.rx))) (trailTxn p h (.readRegister addr) x)

/-- A register write `i` carried by `x` (R155 to R157). -/
def trailWrite (p : Params) (h : Nat) (i : Instr) (x : Xfer) : Trail := trailOp p h i .ok none (trailTxn p h i x)

/-- An operation `i` with result true. -/
def trailTrue (p : Params) (h : Nat) (i : Instr) (body : Trail) : Trail := trailOp p h i .ok (some (.bool true)) body

/-- GET_IRQ_STATUS (R170). -/
def trailIrqRead (p : Params) (h : Nat) (x : Xfer) : Trail :=
  trailOp p h .getIrqStatus .ok (some (.word (registerValue x.rx))) (trailRead p h p.regIrqStatus.toNat x)

/-- CLEAR_IRQ_STATUS (R171). -/
def trailClear (p : Params) (h mask : Nat) (x : Xfer) : Trail :=
  trailOp p h (.clearIrqStatus mask) .ok none (trailWrite p h (.writeRegister p.regIrqClear.toNat mask) x)

/-- The write of the re-arm sequence that forces Idle (42_radio_controller.md R207). -/
def trailIdle (p : Params) (h : Nat) (x : Xfer) : Trail :=
  trailWrite p h (.writeRegisterAnd p.regSystemConfig.toNat p.idleAndMask.toNat) x

/-- The write of the re-arm sequence that arms Transceive (R207). -/
def trailArm (p : Params) (h : Nat) (x : Xfer) : Trail :=
  trailWrite p h (.writeRegisterOr p.regSystemConfig.toNat p.transceiveOrMask.toNat) x

/-- GET_TRANSCEIVE_STATE whose read succeeds (41_command_layer.md R172). -/
def trailStateRead (p : Params) (h : Nat) (x : Xfer) : Trail :=
  trailOp p h .getTransceiveState .ok (some (.transceiver (transceiverOf p (registerValue x.rx))))
    (trailRead p h p.regRfStatus.toNat x)

/-! ### The transactions of the composite operations -/

/-- The transactions of SEND_DATA (R165): force Idle, arm Transceive, read the state, send. -/
structure SendXfers where
  idle : Xfer
  arm : Xfer
  state : Xfer
  frame : Xfer
  deriving DecidableEq, Repr

/-- In order. -/
def SendXfers.all (t : SendXfers) : List Xfer := [t.idle, t.arm, t.state, t.frame]

/-- What the two writes of the re-arm sequence carry (R207). -/
def RearmCarries (p : Params) (idle arm : Xfer) : Prop :=
  idle.Carries ([0x02#8, p.regSystemConfig] ++ le32 p.idleAndMask) 0 ∧
    arm.Carries ([0x01#8, p.regSystemConfig] ++ le32 p.transceiveOrMask) 0

/-- The three transactions before the payload: the state read is a read of RF_STATUS that gives the code `code` (R165, R94). -/
def SendXfers.Arms (p : Params) (t : SendXfers) (st : TransceiverState) : Prop :=
  RearmCarries p t.idle t.arm ∧ t.state.Carries [0x04#8, p.regRfStatus] 4 ∧
    transceiverOf p (registerValue t.state.rx) = st

/-- The four transactions of a SEND_DATA whose state read gives WaitTransmit. -/
def SendXfers.Sends (p : Params) (t : SendXfers) (validBits : Byte) (payload : List Byte) : Prop :=
  t.Arms p .waitTransmit ∧ t.frame.Carries ([0x09#8, validBits] ++ payload) 0

/-- What the three transactions before the payload add, with the operations that make them. -/
def SendXfers.armed (p : Params) (h : Nat) (t : SendXfers) : Trail :=
  .concat [trailIdle p h t.idle, trailArm p h t.arm, trailStateRead p h t.state]

/-- What a SEND_DATA that ends `Ok` adds (R165). -/
def SendXfers.trail (p : Params) (h : Nat) (payload : List Byte) (validBits : Nat) (t : SendXfers) : Trail :=
  trailTrue p h (.sendData payload validBits) ((t.armed p h).append (trailTxn p h (.sendData payload validBits) t.frame))

/-- What a SEND_EOF that ends `Ok` adds (42_radio_controller.md R204). -/
def SendXfers.eof (p : Params) (h : Nat) (t : SendXfers) : Trail := trailTrue p h .sendEof (t.trail p h [] 0)

/-- A read of IRQ status in which `bit` is clear (0) or set (1). -/
def IrqReads (p : Params) (bit : Fin 32) (set : Bool) (x : Xfer) : Prop :=
  x.Carries [0x04#8, p.regIrqStatus] 4 ∧ (registerValue x.rx).getLsbD bit.val = set

/-- The transactions of RF_ON (41_command_layer.md R167): the frame, the reads that do not show the bit, the one that does,
the clear. -/
structure RfOnXfers where
  frame : Xfer
  misses : List Xfer
  hit : Xfer
  clear : Xfer
  deriving DecidableEq, Repr

/-- In order. -/
def RfOnXfers.all (t : RfOnXfers) : List Xfer := [t.frame] ++ t.misses ++ [t.hit, t.clear]

/-- What they carry, and that the wait does not reach `POLL_LIMIT_IRQ`. -/
def RfOnXfers.Confirms (p : Params) (t : RfOnXfers) : Prop :=
  t.frame.Carries [0x16#8, 0x00#8] 0 ∧ (∀ x ∈ t.misses, IrqReads p p.rfOnConfirmBit false x) ∧
    limitReached p.pollLimitIrq t.misses.length = false ∧ IrqReads p p.rfOnConfirmBit true t.hit ∧
    t.clear.Carries ([0x00#8, p.regIrqClear] ++ le32 (1#32 <<< p.rfOnConfirmBit.val)) 0

/-- What an RF_ON that ends `Ok` adds. -/
def RfOnXfers.trail (p : Params) (h : Nat) (t : RfOnXfers) : Trail :=
  trailTrue p h .rfOn (.concat ([trailTxn p h .rfOn t.frame] ++ t.misses.map (trailIrqRead p h) ++
    [trailIrqRead p h t.hit, trailClear p h (2 ^ p.rfOnConfirmBit.val) t.clear]))

/-- The transactions of SETUP_RF (43_inventory.md R230). -/
structure SetupXfers where
  off : Xfer
  load : Xfer
  on : RfOnXfers
  idle : Xfer
  arm : Xfer
  deriving DecidableEq, Repr

/-- In order. -/
def SetupXfers.all (t : SetupXfers) : List Xfer := [t.off, t.load] ++ t.on.all ++ [t.idle, t.arm]

/-- What they carry. -/
def SetupXfers.Sets (p : Params) (t : SetupXfers) : Prop :=
  t.off.Carries [0x17#8, 0x00#8] 0 ∧ t.load.Carries [0x11#8, p.iso15693TxConf, p.iso15693RxConf] 0 ∧ t.on.Confirms p ∧
    RearmCarries p t.idle t.arm

/-- What a SETUP_RF that ends `Ok` adds. -/
def SetupXfers.trail (p : Params) (h : Nat) (t : SetupXfers) : Trail :=
  trailTrue p h .setupRf (.concat
    [trailTrue p h .rfOff (trailTxn p h .rfOff t.off),
      trailTrue p h (.loadRfConfig p.iso15693TxConf.toNat p.iso15693RxConf.toNat)
        (trailTxn p h (.loadRfConfig p.iso15693TxConf.toNat p.iso15693RxConf.toNat) t.load),
      t.on.trail p h, trailIdle p h t.idle, trailArm p h t.arm])

/-- What a SEND_DATA that ends with SequenceError adds (41_command_layer.md R165): the payload is not sent. -/
def SendXfers.refusedTrail (p : Params) (h : Nat) (payload : List Byte) (validBits : Nat) (t : SendXfers) : Trail :=
  trailOp p h (.sendData payload validBits) .sequenceError (some (.bool false)) (t.armed p h)

/-- Whether the state read gives WaitTransmit. -/
def SendXfers.ready (p : Params) (t : SendXfers) : Bool :=
  decide (transceiverOf p (registerValue t.state.rx) = .waitTransmit)

/-- The transactions of a SEND_DATA: the frame is sent only when the state read gives WaitTransmit. -/
def SendXfers.made (p : Params) (t : SendXfers) : List Xfer :=
  [t.idle, t.arm, t.state] ++ (if t.ready p then [t.frame] else [])

/-- The transactions of one slot of the inventory (43_inventory.md R243, R244). -/
structure SlotXfers where
  /-- SlotCheck's read of IRQ status. -/
  check : Xfer
  /-- The read of RX_STATUS, made only when the slot has a response. -/
  length : Xfer
  /-- READ_DATA of the response, made only when its length passes the range check. -/
  read : Xfer
  /-- The AND of TX_CONFIG. -/
  txConfig : Xfer
  idle : Xfer
  arm : Xfer
  /-- The broad clear. -/
  clear : Xfer
  /-- SEND_EOF. -/
  eof : SendXfers
  deriving DecidableEq, Repr

/-- The RX start-of-frame bit is set in the slot's IRQ status (R243). -/
def SlotXfers.responds (p : Params) (t : SlotXfers) : Bool := (registerValue t.check.rx).getLsbD p.irqBitRxSof.val

/-- The response length: bits 8:0 of RX_STATUS (30_encoding.md R95). -/
def SlotXfers.size (p : Params) (t : SlotXfers) : Nat := responseLength p (registerValue t.length.rx)

/-- The slot has a response whose length READ_DATA accepts. -/
def SlotXfers.collects (p : Params) (t : SlotXfers) : Bool := t.responds p && decide (t.size p ≤ p.maxReadData)

/-- The frame the slot adds to the result, if any. -/
def SlotXfers.frames (p : Params) (t : SlotXfers) : List (List Byte) := if t.collects p then [t.read.rx] else []

/-- The transactions the slot makes. -/
def SlotXfers.made (p : Params) (t : SlotXfers) : List Xfer :=
  [t.check] ++ (if t.responds p then [t.length] else []) ++ (if t.collects p then [t.read] else []) ++
    [t.txConfig, t.idle, t.arm, t.clear] ++ t.eof.made p

/-- What they carry. -/
def SlotXfers.Runs (p : Params) (t : SlotXfers) : Prop :=
  t.check.Carries [0x04#8, p.regIrqStatus] 4 ∧ (t.responds p = true → t.length.Carries [0x04#8, p.regRxStatus] 4) ∧
    (t.collects p = true → t.read.Carries [0x0A#8, 0x00#8] (t.size p)) ∧
    t.txConfig.Carries ([0x02#8, p.regTxConfig] ++ le32 p.eofOnlyTxAndMask) 0 ∧ RearmCarries p t.idle t.arm ∧
    t.clear.Carries ([0x00#8, p.regIrqClear] ++ le32 p.broadIrqMask) 0 ∧ RearmCarries p t.eof.idle t.eof.arm ∧
    t.eof.state.Carries [0x04#8, p.regRfStatus] 4 ∧ (t.eof.ready p = true → t.eof.frame.Carries [0x09#8, 0x00#8] 0)

/-- What the slot's SEND_EOF adds; a SequenceError of it is not propagated (R244, R245). -/
def SlotXfers.eofTrail (p : Params) (h : Nat) (t : SlotXfers) : Trail :=
  if t.eof.ready p then t.eof.eof p h
  else trailOp p h .sendEof .sequenceError (some (.bool false)) (t.eof.refusedTrail p h [] 0)

/-- What the response of the slot adds (R243). -/
def SlotXfers.responseTrail (p : Params) (h : Nat) (t : SlotXfers) : List Trail :=
  (if t.responds p then [trailRead p h p.regRxStatus.toNat t.length] else []) ++
    (if t.collects p then
      [trailOp p h (.readData (t.size p)) .ok (some (.bytes t.read.rx)) (trailTxn p h (.readData (t.size p)) t.read)]
    else if t.responds p then [trailOp p h (.readData (t.size p)) .rangeError none .empty] else [])

/-- What a delay adds. -/
def trailDelay (h : Nat) (t : Duration) : Trail := ⟨[.delay h t], [], []⟩

/-- What one slot adds. -/
def SlotXfers.trail (p : Params) (h : Nat) (t : SlotXfers) : Trail :=
  .concat ([trailIrqRead p h t.check] ++ t.responseTrail p h ++
    [trailWrite p h (.writeRegisterAnd p.regTxConfig.toNat p.eofOnlyTxAndMask.toNat) t.txConfig, trailIdle p h t.idle,
      trailArm p h t.arm, trailClear p h p.broadIrqMask.toNat t.clear, t.eofTrail p h] ++
    (if 0 < p.tSlotMs then [trailDelay h (.ms p.tSlotMs)] else []))

/-- The transactions of a pass of GET_INVENTORY_16_SLOTS that is not aborted (R240). -/
structure PassXfers where
  setup : SetupXfers
  clear : Xfer
  request : SendXfers
  slots : List SlotXfers
  deriving DecidableEq, Repr

/-- In order. -/
def PassXfers.made (p : Params) (t : PassXfers) : List Xfer :=
  t.setup.all ++ [t.clear] ++ t.request.all ++ t.slots.flatMap (SlotXfers.made p)

/-- What they carry: one entry of `slots` for each slot. -/
def PassXfers.Runs (p : Params) (t : PassXfers) : Prop :=
  t.setup.Sets p ∧ t.clear.Carries ([0x00#8, p.regIrqClear] ++ le32 p.broadIrqMask) 0 ∧
    t.request.Sends p 0x00#8 [p.invFlags, p.invCmd, p.invMaskLen] ∧ t.slots.length = p.nSlots ∧
    ∀ sl ∈ t.slots, sl.Runs p

/-- The frames collected, in slot order (R247). -/
def PassXfers.frames (p : Params) (t : PassXfers) : List (List Byte) := t.slots.flatMap (SlotXfers.frames p)

/-- What the pass adds between its start and its end. -/
def PassXfers.trail (p : Params) (h : Nat) (t : PassXfers) : Trail :=
  .concat ([t.setup.trail p h, trailClear p h p.broadIrqMask.toNat t.clear,
      t.request.trail p h [p.invFlags, p.invCmd, p.invMaskLen] 0, trailDelay h (.ms p.tInvSettleMs)] ++
    t.slots.map (SlotXfers.trail p h))

/-- The result of the pass (R246, R247). -/
def PassXfers.result (p : Params) (t : PassXfers) : Result :=
  .inventory (if 1 ≤ (t.frames p).length then .ok else .noCard) (t.frames p).length (t.frames p)

/-! ### When an operation completes in one turn, and the state it leaves -/

/-- The controller whose turn it is, `c`, is initialised and idle, and the bus is free. -/
structure Ready (s : State) (c : Handle) : Prop where
  here : s.handles[s.now.handle]? = some c
  noOp : c.op = none
  noStack : c.stack = []
  phase : c.tePhase = .idle
  begun : c.begun = true
  deselected : c.nss = some high
  txBuf : c.txBuf = none
  txIdx : c.txIdx = none
  rxLen : c.rxLen = none
  rxBuf : c.rxBuf = none
  pollCnt : c.pollCnt = none
  busFree : s.shared.busOwner = none

/-- How many transitions of the controller suffice for an operation that makes the transactions `xs`: a turn of this length
lets it end. -/
def budget (xs : List Xfer) : Nat :=
  60 * (xs.length + 1) +
    (xs.map fun x => x.tx.length + x.rx.length + x.waitReadyTx + x.waitAcceptTx + x.waitDoneTx + x.waitAcceptRx + x.waitDoneRx).sum

/-- The environment answers the transactions `xs` in order, and the turn is long enough for them. -/
structure Answers (s : State) (c : Handle) (xs : List Xfer) (busyRest : List Level) (dataRest : List Byte) : Prop where
  busy : c.busyIn = xs.flatMap Xfer.busy ++ busyRest
  data : c.dataIn = xs.flatMap Xfer.data ++ dataRest
  fits : ∀ x ∈ xs, x.Fits s.params
  turn : budget xs ≤ s.now.quantum

/-- The handle after an operation has ended with `st` and `r`, having made `k` transactions. -/
def Handle.ended (c : Handle) (st : Status) (r : Option Result) (k : Nat) (busyRest : List Level) (dataRest : List Byte) :
    Handle :=
  { c with status := some st, result := r, ret := ⟨st, r⟩, txnCount := c.txnCount + k, busyIn := busyRest, dataIn := dataRest }

/-- The state after the controller whose turn it is has become `c` and a trail has been appended; nothing else differs. -/
def State.after (s : State) (c : Handle) (t : Trail) : State :=
  { s with handles := s.handles.set s.now.handle c, shared := s.shared.extend t }

/-! ### Operations, results and errors as the tables of the spec give them -/

/-- The host operation a row of the opcode table is run as. A command frame is exactly what one TRANSACT writes
(30_encoding.md R83; frames R84 to R93, receive lengths R99; log 11). -/
def operationOf : Instr → Instr
  | .wireWriteRegister addr value => .transact ([0x00#8, addr] ++ le32 value) 0
  | .wireWriteRegisterOrMask addr mask => .transact ([0x01#8, addr] ++ le32 mask) 0
  | .wireWriteRegisterAndMask addr mask => .transact ([0x02#8, addr] ++ le32 mask) 0
  | .wireReadRegister addr => .transact [0x04#8, addr] 4
  | .wireReadEeprom addr len => .transact [0x07#8, addr, len] len.toNat
  | .wireSendData validBits payload => .transact ([0x09#8, validBits] ++ payload) 0
  | .wireReadData len second => .transact [0x0A#8, second] len
  | .wireLoadRfConfig txConf rxConf => .transact [0x11#8, txConf, rxConf] 0
  | .wireRfOn second => .transact [0x16#8, second] 0
  | .wireRfOff second => .transact [0x17#8, second] 0
  | .transact tx n => .transact tx n
  | .writeRegister addr value => .writeRegister addr value
  | .writeRegisterOr addr mask => .writeRegisterOr addr mask
  | .writeRegisterAnd addr mask => .writeRegisterAnd addr mask
  | .readRegister addr => .readRegister addr
  | .readEeprom addr len => .readEeprom addr len
  | .sendData payload validBits => .sendData payload validBits
  | .readData len => .readData len
  | .loadRfConfig txConf rxConf => .loadRfConfig txConf rxConf
  | .rfOn => .rfOn
  | .rfOff => .rfOff
  | .getIrqStatus => .getIrqStatus
  | .clearIrqStatus mask => .clearIrqStatus mask
  | .getTransceiveState => .getTransceiveState
  | .beginLines => .beginLines
  | .resetChip => .resetChip
  | .sendEof => .sendEof
  | .setupRf => .setupRf
  | .getInventory16Slots => .getInventory16Slots

/-- What an operation that ends with an error leaves in `RESULT` (60_exceptions.md R271 item 2, R272): false for the six
operations that return `bool`, `(Failed, 0, [])` for GET_INVENTORY_16_SLOTS, no value for every other. -/
def errorResult : Instr → Option Result
  | .wireWriteRegister _ _ => none
  | .wireWriteRegisterOrMask _ _ => none
  | .wireWriteRegisterAndMask _ _ => none
  | .wireReadRegister _ => none
  | .wireReadEeprom _ _ => none
  | .wireSendData _ _ => none
  | .wireReadData _ _ => none
  | .wireLoadRfConfig _ _ => none
  | .wireRfOn _ => none
  | .wireRfOff _ => none
  | .transact _ _ => none
  | .writeRegister _ _ => none
  | .writeRegisterOr _ _ => none
  | .writeRegisterAnd _ _ => none
  | .readRegister _ => none
  | .readEeprom _ _ => none
  | .sendData _ _ => some (.bool false)
  | .readData _ => none
  | .loadRfConfig _ _ => some (.bool false)
  | .rfOn => some (.bool false)
  | .rfOff => some (.bool false)
  | .getIrqStatus => none
  | .clearIrqStatus _ => none
  | .getTransceiveState => none
  | .beginLines => none
  | .resetChip => none
  | .sendEof => some (.bool false)
  | .setupRf => some (.bool false)
  | .getInventory16Slots => some (.inventory .failed 0 [])

/-- The failing values of the table of range checks (41_command_layer.md R151). -/
inductive OutOfRange (p : Params) : Instr → Prop where
  | transact {n : Nat} : OutOfRange p (.transact [] n)
  | writeRegister {addr value : Nat} : p.regAddrMax < addr ∨ 2 ^ p.regValueBits ≤ value → OutOfRange p (.writeRegister addr value)
  | writeRegisterOr {addr mask : Nat} : p.regAddrMax < addr ∨ 2 ^ p.regValueBits ≤ mask → OutOfRange p (.writeRegisterOr addr mask)
  | writeRegisterAnd {addr mask : Nat} : p.regAddrMax < addr ∨ 2 ^ p.regValueBits ≤ mask → OutOfRange p (.writeRegisterAnd addr mask)
  | readRegister {addr : Nat} : p.regAddrMax < addr → OutOfRange p (.readRegister addr)
  | readEeprom {addr len : Nat} : p.eepromMaxAddr < addr ∨ 255 < len → OutOfRange p (.readEeprom addr len)
  | sendData {payload : List Byte} {validBits : Nat} :
    p.maxSendPayload < payload.length ∨ 255 < validBits → OutOfRange p (.sendData payload validBits)
  | readData {len : Nat} : p.maxReadData < len → OutOfRange p (.readData len)
  | loadRfConfig {txConf rxConf : Nat} : 255 < txConf ∨ 255 < rxConf → OutOfRange p (.loadRfConfig txConf rxConf)
  | clearIrqStatus {mask : Nat} : 2 ^ p.regValueBits ≤ mask → OutOfRange p (.clearIrqStatus mask)

/-- The level each busy wait awaits and the name a timeout of it gets (10_state.md R25; 60_exceptions.md R273). -/
def awaited : TePhase → Option (Level × WaitStage)
  | .wReadyTx => some (low, .wReadyTx)
  | .wAcceptTx => some (high, .wAcceptTx)
  | .wDoneTx => some (low, .wDoneTx)
  | .wAcceptRx => some (high, .wAcceptRx)
  | .wDoneRx => some (low, .wDoneRx)
  | .idle | .arb | .txSetup | .txBytes | .txHold | .rxSetup | .rxBytes | .rxHold => none

/-- The type of a host argument (30_encoding.md R82). -/
inductive ArgType where
  | num
  | bytes
  deriving DecidableEq, Repr

/-- The types of a list of arguments as HOST hands them over. -/
def argTypes (args : List Arg) : List ArgType :=
  args.map fun a => match a with
    | .num _ => .num
    | .bytes _ => .bytes

/-- The lists of argument types each selector takes (R80, R82); `valid_bits` of SEND_DATA may be omitted (R81). -/
def hostSignatures (sel : Byte) : List (List ArgType) :=
  match sel.toNat with
  | 0x00 => [[.bytes, .num]]
  | 0x01 | 0x02 | 0x03 | 0x05 | 0x08 => [[.num, .num]]
  | 0x04 | 0x07 | 0x0C => [[.num]]
  | 0x06 => [[.bytes, .num], [.bytes]]
  | 0x09 | 0x0A | 0x0B | 0x0D | 0x0E | 0x0F | 0x10 | 0x11 | 0x12 => [[]]
  | _ => []

/-- The rows of the table of 40_transaction_engine.md R121: whether a transition from one phase to another is a row, and the
row's condition on the view before it. In `TE_IDLE` the engine rests until a transaction starts. -/
def engineRow (v : View) (src dst : TePhase) : Prop :=
  let sample (l : Level) : Prop := v.sampleBusy.1 = l
  let failed (l : Level) : Prop := v.sampleBusy.1 = l ∧ ∃ k, v.c.pollCnt = some k ∧ limitReached v.params.pollLimitBusy (k + 1) = false
  let ranOut (l : Level) : Prop := v.sampleBusy.1 = l ∧ ∃ k, v.c.pollCnt = some k ∧ limitReached v.params.pollLimitBusy (k + 1) = true
  match src, dst with
  | .idle, .idle => True
  | .idle, .arb => ∃ op tx n rest fs, v.c.stack = ⟨op, .transact tx n :: rest⟩ :: fs ∧ 1 ≤ tx.length
  | .arb, .wReadyTx => v.bus.busOwner = none
  | .wReadyTx, .txSetup => sample low
  | .wReadyTx, .wReadyTx => failed high
  | .wReadyTx, .idle => ranOut high
  | .txSetup, .txBytes => True
  | .txBytes, .txBytes => ∃ tx k, v.c.txBuf = some tx ∧ v.c.txIdx = some k ∧ k < tx.length
  | .txBytes, .wAcceptTx => ∃ tx, v.c.txBuf = some tx ∧ v.c.txIdx = some tx.length
  | .wAcceptTx, .txHold => sample high
  | .wAcceptTx, .wAcceptTx => failed low
  | .wAcceptTx, .idle => ranOut low
  | .txHold, .wDoneTx => True
  | .wDoneTx, .rxSetup => sample low ∧ ∃ n, v.c.rxLen = some n ∧ 0 < n
  | .wDoneTx, .wDoneTx => failed high
  | .wDoneTx, .idle => (sample low ∧ v.c.rxLen = some 0) ∨ ranOut high
  | .rxSetup, .rxBytes => True
  | .rxBytes, .rxBytes => ∃ rx n, v.c.rxBuf = some rx ∧ v.c.rxLen = some n ∧ rx.length < n
  | .rxBytes, .wAcceptRx => ∃ rx, v.c.rxBuf = some rx ∧ v.c.rxLen = some rx.length
  | .wAcceptRx, .rxHold => sample high
  | .wAcceptRx, .wAcceptRx => failed low
  | .wAcceptRx, .idle => ranOut low
  | .rxHold, .wDoneRx => True
  | .wDoneRx, .wDoneRx => failed high
  | .wDoneRx, .idle => sample low ∨ ranOut high
  | _, _ => False

/-! ### A pass of the inventory in progress -/

/-- The views of a handle controller during a pass of GET_INVENTORY_16_SLOTS: from its start, by transitions of the controller,
with whatever the other controllers do to the bus and to what is observed in between. -/
inductive InPass (p : Params) : View → Prop where
  | starts {v : View} : v.params = p → v.c.tePhase = .idle → v.c.invPhase = .idle →
    v.c.stack = [⟨.getInventory16Slots, programOf p .getInventory16Slots⟩] → InPass p v
  | moves {v w : View} : InPass p v → tick v = .moved w → InPass p w
  | others {v : View} (b : Shared) : InPass p v → InPass p { v with bus := b }

/-- The rows of the table of 43_inventory.md R241 for a transition from `v` to `w` that changes `INV_PHASE`, with their
conditions: what the sub-operation before it returned, the RX start-of-frame bit, the slot. -/
def inventoryRow (v w : View) (src dst : InvPhase) : Prop :=
  let aborted : Prop := w.c.stack = [] ∧ w.c.result = some (.inventory .failed 0 []) ∧ ∃ e, w.c.status = some e ∧ e ≠ .ok
  match src, dst with
  | .idle, .setup => v.c.begun = true
  | .setup, .clear0 => v.c.ret.status = .ok
  | .clear0, .request => v.c.ret.status = .ok
  | .request, .settle => v.c.ret.status = .ok
  | .settle, .slotCheck => v.c.invSlot = some 0
  | .slotCheck, .slotAdvance => ∃ s, v.c.ret.result = some (.word s) ∧ s.getLsbD v.params.irqBitRxSof.val = false
  | .slotCheck, .slotRead => ∃ s, v.c.ret.result = some (.word s) ∧ s.getLsbD v.params.irqBitRxSof.val = true
  | .slotRead, .slotAdvance => v.c.ret.status = .ok ∨ v.c.ret.status = .rangeError
  | .slotAdvance, .slotCheck => ∃ k, v.c.invSlot = some (k + 1) ∧ k + 1 < v.params.nSlots
  | .slotAdvance, .classify => v.c.invSlot = some v.params.nSlots
  | .classify, .idle => w.c.stack = [] ∧ w.c.status = some .ok
  | .setup, .idle => aborted
  | .clear0, .idle => aborted
  | .request, .idle => aborted
  | .slotCheck, .idle => aborted
  | .slotRead, .idle => aborted
  | .slotAdvance, .idle => aborted
  | _, _ => False

/-! ### RESET, and waits that run out -/

/-- What BEGIN adds between its start and its end (42_radio_controller.md R200). -/
def trailLines (p : Params) (h : Nat) (c : Handle) : Trail :=
  ⟨(if c.rst = some (!p.rstActiveLevel) then [] else [.rst h (!p.rstActiveLevel)]) ++
    (if c.nss = some high then [] else [.nss h high]), [], []⟩

/-- The transactions of RESET (42_radio_controller.md R202): the reads that do not show the Idle bit, the one that does, the
clear. -/
structure ResetXfers where
  misses : List Xfer
  hit : Xfer
  clear : Xfer
  deriving DecidableEq, Repr

/-- In order. -/
def ResetXfers.all (t : ResetXfers) : List Xfer := t.misses ++ [t.hit, t.clear]

/-- What they carry, and that the wait does not reach `POLL_LIMIT_STARTUP`. -/
def ResetXfers.Starts (p : Params) (t : ResetXfers) : Prop :=
  (∀ x ∈ t.misses, IrqReads p p.irqBitIdle false x) ∧ limitReached p.pollLimitStartup t.misses.length = false ∧
    IrqReads p p.irqBitIdle true t.hit ∧ t.clear.Carries ([0x00#8, p.regIrqClear] ++ le32 p.allIrqMask) 0

/-- What the reset pulse adds; `rst` is the level of the reset line before it (R202, 10_state.md R32). -/
def trailPulse (p : Params) (h : Nat) (rst : Option Level) : Trail :=
  ⟨(if rst = some p.rstActiveLevel then [] else [.rst h p.rstActiveLevel]) ++
    [.delay h (.us p.tRstPulseUs), .rst h (!p.rstActiveLevel), .delay h (.ms p.tRampMs)], [], []⟩

/-- What a RESET that ends `Ok` adds. -/
def ResetXfers.trail (p : Params) (h : Nat) (rst : Option Level) (t : ResetXfers) : Trail :=
  trailOp p h .resetChip .ok none (.concat ([trailPulse p h rst] ++ t.misses.map (trailIrqRead p h) ++
    [trailIrqRead p h t.hit, trailClear p h p.allIrqMask.toNat t.clear]))

/-- What a transaction adds whose first busy wait runs out (40_transaction_engine.md R129): nothing is sent. -/
def trailStalled (p : Params) (h : Nat) (op : Instr) (tx : List Byte) (n : Nat) : Trail :=
  ⟨[.txnStart h tx n, .txnEnd h .deviceNotResponding []], [], traced p ⟨h, some op, registerAddress op, tx⟩⟩

/-- What a state read adds whose transaction never gets past its first busy wait. -/
def trailStateFallback (p : Params) (h : Nat) : Trail :=
  trailOp p h (.readRegister p.regRfStatus.toNat) .deviceNotResponding none
    (trailStalled p h (.readRegister p.regRfStatus.toNat) [0x04#8, p.regRfStatus] 4)

/-- Two machines that differ at most in what was observed of them so far: the log, the byte slots and the debug trace. -/
def Shared.observed (b : Shared) (log : List LogRec) (slots : List Slot) (trace : List TraceRec) : Shared :=
  { b with log := log ++ b.log, slots := slots ++ b.slots, trace := trace ++ b.trace }

end Sys2Proof.Machine
end

