-- ==== Sys2Proof/Certificates/Slice0/Obligations.lean ====
section
/-! DEFINITION. The statements for the provers, from the numbered rules of spec/. The premises `Ready` and `Answers` name the
controller whose turn it is, the samples and bytes the environment gives it and the length of the turn; `State.after` and
`Handle.ended` say everything that differs in the next state, so each statement that uses them states the frame too. -/

open Sys2Proof Sys2Proof.Machine

/-! ### Encoding -/

/-- Decoding the request that asks for an instruction gives that instruction, whatever its operands (30_encoding.md R80, R82,
R84 to R93, R102). -/
def Obligations.DecodeEncodeAgree : Prop := ∀ i : Instr, decode (encode i) = .ok i

/-- A request that decodes is the encoding of what it decodes to, but for an omitted `valid_bits`, which is 0 (30_encoding.md
R80, R81, R99). For a frame with another read length than R99 gives it this rests on the model's refusal of such a request (log
25, DESIGN CHOICE): R102 looks at opcode and length alone. -/
def Obligations.DecodedRequestsAreEncodings : Prop :=
  ∀ (b : Body) (i : Instr), decode b = .ok i →
    b = encode i ∨ ∃ payload, b = .host 0x06#8 [.bytes payload] ∧ i = .sendData payload 0

/-- A selector above 0x12 is refused by name, and so is an assigned one whose arguments differ in number or in any type from those
of its operation (30_encoding.md R80, R82, R101); arguments of the right number and types are accepted, whatever their values. -/
def Obligations.UnassignedAndMistypedRefused : Prop :=
  (∀ (sel : Byte) (args : List Arg), 0x12 < sel.toNat → decode (.host sel args) = .error (.unassignedSelector sel)) ∧
  (∀ (sel : Byte) (args : List Arg), sel.toNat ≤ 0x12 → argTypes args ∉ hostSignatures sel →
    decode (.host sel args) = .error (.wrongArguments sel)) ∧
  (∀ (sel : Byte) (args : List Arg), argTypes args ∈ hostSignatures sel → ∃ i, decode (.host sel args) = .ok i)

/-- A frame whose opcode is not in the map of R99 is invalid, and so is a frame whose length is not the fixed length of its
opcode (R102). -/
def Obligations.FramesOutsideTheMapAreInvalid : Prop :=
  (∀ (op : Byte) (rest : List Byte) (n : Nat),
    op ∉ [0x00#8, 0x01#8, 0x02#8, 0x04#8, 0x07#8, 0x09#8, 0x0A#8, 0x11#8, 0x16#8, 0x17#8] →
    decode (.wire (op :: rest) n) = .error (.unknownOpcode op)) ∧
  (∀ (op : Byte) (rest : List Byte) (n : Nat), op ∈ [0x00#8, 0x01#8, 0x02#8] → rest.length ≠ 5 →
    decode (.wire (op :: rest) n) = .error (.wrongFrameLength op (rest.length + 1))) ∧
  (∀ (op : Byte) (rest : List Byte) (n : Nat), op ∈ [0x04#8, 0x0A#8, 0x16#8, 0x17#8] → rest.length ≠ 1 →
    decode (.wire (op :: rest) n) = .error (.wrongFrameLength op (rest.length + 1))) ∧
  (∀ (op : Byte) (rest : List Byte) (n : Nat), op ∈ [0x07#8, 0x11#8] → rest.length ≠ 2 →
    decode (.wire (op :: rest) n) = .error (.wrongFrameLength op (rest.length + 1))) ∧
  (∀ n : Nat, decode (.wire [0x09#8] n) = .error (.wrongFrameLength 0x09#8 1))

/-- Frames written out from R84 to R93 (and the examples of 41_command_layer.md) decode to what they stand for. -/
def Obligations.SampleFramesDecode : Prop :=
  decode (.wire [0x00#8, 0x03#8, 0xFF#8, 0xFF#8, 0x0F#8, 0x00#8] 0) = .ok (.wireWriteRegister 0x03#8 0x000FFFFF#32) ∧
  decode (.wire [0x01#8, 0x00#8, 0x03#8, 0x00#8, 0x00#8, 0x00#8] 0) = .ok (.wireWriteRegisterOrMask 0x00#8 0x00000003#32) ∧
  decode (.wire [0x02#8, 0x00#8, 0xF8#8, 0xFF#8, 0xFF#8, 0xFF#8] 0) = .ok (.wireWriteRegisterAndMask 0x00#8 0xFFFFFFF8#32) ∧
  decode (.wire [0x04#8, 0x1D#8] 4) = .ok (.wireReadRegister 0x1D#8) ∧
  decode (.wire [0x07#8, 0x10#8, 0x02#8] 2) = .ok (.wireReadEeprom 0x10#8 0x02#8) ∧
  decode (.wire [0x09#8, 0x00#8, 0x06#8, 0x01#8, 0x00#8] 0) = .ok (.wireSendData 0x00#8 [0x06#8, 0x01#8, 0x00#8]) ∧
  decode (.wire [0x0A#8, 0x00#8] 12) = .ok (.wireReadData 12 0x00#8) ∧
  decode (.wire [0x11#8, 0x0D#8, 0x8D#8] 0) = .ok (.wireLoadRfConfig 0x0D#8 0x8D#8) ∧
  decode (.wire [0x16#8, 0x00#8] 0) = .ok (.wireRfOn 0x00#8) ∧
  decode (.wire [0x17#8, 0x00#8] 0) = .ok (.wireRfOff 0x00#8) ∧
  decode (.host 0x05#8 [.num 0x10, .num 2]) = .ok (.readEeprom 0x10 2) ∧ decode (.host 0x12#8 []) = .ok .getInventory16Slots

/-- A register value or mask is sent least significant byte first, and four received bytes are read least significant byte
first (20_memory.md R62): byte k of the value is `value / 256^k`, in the frames the three writes send and in what READ_REGISTER
returns. -/
def Obligations.RegisterValuesAreLittleEndian : Prop :=
  (∀ (addr value : Nat), value < 2 ^ 32 →
    let bytes := [BitVec.ofNat 8 value, BitVec.ofNat 8 (value / 256), BitVec.ofNat 8 (value / 65536), BitVec.ofNat 8 (value / 16777216)]
    ∀ p : Params,
      Micro.transact ([0x00#8, BitVec.ofNat 8 addr] ++ bytes) 0 ∈ programOf p (.writeRegister addr value) ∧
      Micro.transact ([0x01#8, BitVec.ofNat 8 addr] ++ bytes) 0 ∈ programOf p (.writeRegisterOr addr value) ∧
      Micro.transact ([0x02#8, BitVec.ofNat 8 addr] ++ bytes) 0 ∈ programOf p (.writeRegisterAnd addr value)) ∧
  (∀ (v0 v : View) (op : Instr) (b0 b1 b2 b3 : Byte), v.c.ret.result = some (.bytes [b0, b1, b2, b3]) →
    ∃ value : Word, value.toNat = b0.toNat + 256 * b1.toNat + 65536 * b2.toNat + 16777216 * b3.toNat ∧
      microStep v0 v op .returnRegister = .moved (v.endOp .ok (some (.register [b0, b1, b2, b3] value))))

/-- With the field of the source, bits 26:24, the codes 0 to 7 are the eight states in the order of the list (30_encoding.md R94,
whose map for codes other than 5 is the spec's reading; the parameters of R8). -/
def Obligations.TransceiverCodes : Prop :=
  ∀ (p : Params) (v : Word), p.tsShift = 24 → p.tsWidth = 3 →
    [TransceiverState.idle, .waitTransmit, .transmitting, .waitReceive, .waitForData, .receiving, .loopBack, .reserved][
      (v.extractLsb' 24 3).toNat]? = some (transceiverOf p v)

/-- With the width of the source, the response length is bits 8:0 of RX_STATUS, at most 511, and no other bit matters
(30_encoding.md R95). -/
def Obligations.ResponseLengthIsLowNineBits : Prop :=
  ∀ (p : Params) (v w : Word), p.rxLenWidth = 9 →
    responseLength p v = (v.extractLsb' 0 9).toNat ∧ responseLength p v ≤ 511 ∧
      (v.extractLsb' 0 9 = w.extractLsb' 0 9 → responseLength p v = responseLength p w)

/-! ### What a step does -/

/-- A step runs the decoded instruction: when the turn's controller has no operation in progress (or no controller has that index)
and the oldest request for it decodes to `i`, the step is `exec i` of the state without that request, on the turn taken, be it
the head of the schedule or a free turn (30_encoding.md R80). Turns, the inbox and that the oldest request is taken are the
model's own (log 5, log 14, log 26). -/
def Obligations.StepRunsDecodedInstruction : Prop :=
  ∀ (s u : State) (before after : List Request) (r : Request) (i : Instr),
    u = s.takeTurn → (∀ c, u.handles[u.now.handle]? = some c → c.op = none) → u.inbox = before ++ r :: after →
    r.handle = u.now.handle → (∀ q ∈ before, q.handle ≠ u.now.handle) → decode r.body = .ok i →
    step s = exec i { u with inbox := before ++ after }

/-- A step goes on with the operation in progress, up to as many transitions as the turn allows; with neither an operation nor a
request for it, the controller does nothing (30_encoding.md R80, R319; 60_exceptions.md R286; log 5). -/
def Obligations.StepGoesOnOrDoesNothing : Prop :=
  ∀ (s : State) (t : Turn) (ts : List Turn) (c : Handle), s.sched = t :: ts → s.handles[t.handle]? = some c →
    (∀ (op : Instr) (w : View), c.op = some op → run t.quantum ⟨t.handle, s.params, c, s.shared⟩ = .ok w →
      step s = .next { s with sched := ts, now := t, handles := s.handles.set w.id w.c, shared := w.bus }) ∧
    (c.op = none → (∀ q ∈ s.inbox, q.handle ≠ t.handle) → step s = .next { s with sched := ts, now := t })

/-- A refused request changes nothing of the block: no log record, no transaction, no register (30_encoding.md R80, R101). That it
is taken from the inbox and reported in a list, and that it is the oldest one for the controller, are the model's choices (log
13, log 26). -/
def Obligations.RefusedRequestChangesNothing : Prop :=
  ∀ (s : State) (t : Turn) (ts : List Turn) (c : Handle) (before after : List Request) (r : Request) (e : DecodeError),
    s.sched = t :: ts → s.handles[t.handle]? = some c → c.op = none → s.inbox = before ++ r :: after → r.handle = t.handle →
    (∀ q ∈ before, q.handle ≠ t.handle) → decode r.body = .error e →
    step s = .next { s with
      sched := ts, now := t, inbox := before ++ after, refusals := s.refusals ++ [⟨t.handle, .undecodable e⟩] }

/-- A controller with an operation in progress accepts no other (30_encoding.md R80; 70_reset_and_hazards.md R319), and an index
without a controller accepts none: the instruction is reported as refused and nothing else changes (the report is the model's
choice, log 13). -/
def Obligations.BusyControllerRefuses : Prop :=
  (∀ (i op : Instr) (s : State) (c : Handle), s.handles[s.now.handle]? = some c → c.op = some op →
    exec i s = .next { s with refusals := s.refusals ++ [⟨s.now.handle, .handleBusy⟩] }) ∧
  (∀ (i : Instr) (s : State), s.handles[s.now.handle]? = none →
    exec i s = .next { s with refusals := s.refusals ++ [⟨s.now.handle, .noSuchHandle⟩] })

/-! ### Errors before any traffic -/

/-- Every operation but BEGIN ends with NotInitialised while `BEGUN` is 0: its start and end are logged, its status and result
written, and nothing else changes (41_command_layer.md R150, R152; 60_exceptions.md R271, R277). That the two records are logged
on this path is read from R150 (log 9), and that a command frame is logged as the TRANSACT of its frame is the model's choice
(log 11). -/
def Obligations.NotInitialisedBeforeBegin : Prop :=
  ∀ (i : Instr) (s : State) (c : Handle), i ≠ .beginLines → s.handles[s.now.handle]? = some c → c.op = none → c.stack = [] →
    c.tePhase = .idle → c.begun = false → 1 ≤ s.now.quantum →
    exec i s = .next (s.after
      (clearInventory i { c with status := some .notInitialised, result := errorResult i, ret := ⟨.notInitialised, errorResult i⟩ })
      (trailOp s.params s.now.handle (operationOf i) .notInitialised (errorResult i) .empty))

/-- An argument that fails a check of the table of R151 ends the operation with RangeError, whoever owns the bus: no transaction,
no change of `TXN_COUNT` and none of any line; only status, result and the two log records (41_command_layer.md R150, R151;
60_exceptions.md R271). That the two records are logged on this path is read from R150 (log 9). -/
def Obligations.RangeErrorBeforeTraffic : Prop :=
  ∀ (i : Instr) (s : State) (c : Handle), OutOfRange s.params i → s.handles[s.now.handle]? = some c → c.op = none →
    c.stack = [] → c.tePhase = .idle → c.begun = true → 2 ≤ s.now.quantum →
    exec i s = .next (s.after
      { c with status := some .rangeError, result := errorResult i, ret := ⟨.rangeError, errorResult i⟩ }
      (trailOp s.params s.now.handle i .rangeError (errorResult i) .empty))

/-! ### Operations that make one transaction -/

/-- WRITE_REGISTER, WRITE_REGISTER_OR and WRITE_REGISTER_AND with arguments in range send their one frame and end `Ok` without a
value (R155, R156, R157; R103). -/
def Obligations.RegisterWritesComplete : Prop :=
  ∀ (s : State) (c : Handle) (x : Xfer) (bs : List Level) (ds : List Byte) (addr value : Nat), Ready s c →
    Answers s c [x] bs ds → addr ≤ s.params.regAddrMax → value < 2 ^ s.params.regValueBits →
    (x.Carries ([0x00#8, BitVec.ofNat 8 addr] ++ le32 (BitVec.ofNat 32 value)) 0 →
      exec (.writeRegister addr value) s = .next (s.after (c.ended .ok none 1 bs ds)
        (trailWrite s.params s.now.handle (.writeRegister addr value) x))) ∧
    (x.Carries ([0x01#8, BitVec.ofNat 8 addr] ++ le32 (BitVec.ofNat 32 value)) 0 →
      exec (.writeRegisterOr addr value) s = .next (s.after (c.ended .ok none 1 bs ds)
        (trailWrite s.params s.now.handle (.writeRegisterOr addr value) x))) ∧
    (x.Carries ([0x02#8, BitVec.ofNat 8 addr] ++ le32 (BitVec.ofNat 32 value)) 0 →
      exec (.writeRegisterAnd addr value) s = .next (s.after (c.ended .ok none 1 bs ds)
        (trailWrite s.params s.now.handle (.writeRegisterAnd addr value) x)))

/-- READ_REGISTER with an address in range sends `[0x04, addr]`, receives four bytes and returns them and their value (R158). -/
def Obligations.ReadRegisterCompletes : Prop :=
  ∀ (s : State) (c : Handle) (x : Xfer) (bs : List Level) (ds : List Byte) (addr : Nat) (b0 b1 b2 b3 : Byte), Ready s c →
    Answers s c [x] bs ds → addr ≤ s.params.regAddrMax → x.tx = [0x04#8, BitVec.ofNat 8 addr] → x.rx = [b0, b1, b2, b3] →
    exec (.readRegister addr) s = .next (s.after
      (c.ended .ok (some (.register [b0, b1, b2, b3] (fromLe32 b0 b1 b2 b3))) 1 bs ds)
      (trailOp s.params s.now.handle (.readRegister addr) .ok (some (.register [b0, b1, b2, b3] (fromLe32 b0 b1 b2 b3)))
        (trailTxn s.params s.now.handle (.readRegister addr) x)))

/-- TRANSACT of any non-empty frame, READ_EEPROM and READ_DATA in range: one transaction, whose received bytes are the result
(40_transaction_engine.md R120; 41_command_layer.md R160, R162). -/
def Obligations.ByteReadsComplete : Prop :=
  ∀ (s : State) (c : Handle) (x : Xfer) (bs : List Level) (ds : List Byte), Ready s c → Answers s c [x] bs ds →
    (∀ (tx : List Byte) (n : Nat), tx ≠ [] → x.Carries tx n →
      exec (.transact tx n) s = .next (s.after (c.ended .ok (some (.bytes x.rx)) 1 bs ds)
        (trailOp s.params s.now.handle (.transact tx n) .ok (some (.bytes x.rx))
          (trailTxn s.params s.now.handle (.transact tx n) x)))) ∧
    (∀ addr len : Nat, addr ≤ s.params.eepromMaxAddr → len ≤ 255 →
      x.Carries [0x07#8, BitVec.ofNat 8 addr, BitVec.ofNat 8 len] len →
      exec (.readEeprom addr len) s = .next (s.after (c.ended .ok (some (.bytes x.rx)) 1 bs ds)
        (trailOp s.params s.now.handle (.readEeprom addr len) .ok (some (.bytes x.rx))
          (trailTxn s.params s.now.handle (.readEeprom addr len) x)))) ∧
    (∀ len : Nat, len ≤ s.params.maxReadData → x.Carries [0x0A#8, 0x00#8] len →
      exec (.readData len) s = .next (s.after (c.ended .ok (some (.bytes x.rx)) 1 bs ds)
        (trailOp s.params s.now.handle (.readData len) .ok (some (.bytes x.rx))
          (trailTxn s.params s.now.handle (.readData len) x))))

/-- LOAD_RF_CONFIG with indices in range, and RF_OFF, send their one frame and return true; RF_OFF waits for nothing and clears
nothing (R163, R168). -/
def Obligations.ProfileAndFieldOffComplete : Prop :=
  ∀ (s : State) (c : Handle) (x : Xfer) (bs : List Level) (ds : List Byte), Ready s c → Answers s c [x] bs ds →
    (∀ txConf rxConf : Nat, txConf ≤ 255 → rxConf ≤ 255 →
      x.Carries [0x11#8, BitVec.ofNat 8 txConf, BitVec.ofNat 8 rxConf] 0 →
      exec (.loadRfConfig txConf rxConf) s = .next (s.after (c.ended .ok (some (.bool true)) 1 bs ds)
        (trailTrue s.params s.now.handle (.loadRfConfig txConf rxConf)
          (trailTxn s.params s.now.handle (.loadRfConfig txConf rxConf) x)))) ∧
    (x.Carries [0x17#8, 0x00#8] 0 →
      exec .rfOff s = .next (s.after (c.ended .ok (some (.bool true)) 1 bs ds)
        (trailTrue s.params s.now.handle .rfOff (trailTxn s.params s.now.handle .rfOff x))))

/-- Each of the ten command frames, run as an instruction, is one TRANSACT of exactly that frame with the receive length of R99:
it ends `Ok` with the bytes received (30_encoding.md R83 to R93, R99; 40_transaction_engine.md R120; that a frame as an
instruction is this TRANSACT is the model's choice, log 11). -/
def Obligations.WireFramesComplete : Prop :=
  ∀ (s : State) (c : Handle) (x : Xfer) (bs : List Level) (ds : List Byte), Ready s c → Answers s c [x] bs ds →
    ∀ (i : Instr) (tx : List Byte) (n : Nat),
      ((∃ addr value, i = .wireWriteRegister addr value ∧ tx = [0x00#8, addr] ++ le32 value ∧ n = 0) ∨
        (∃ addr mask, i = .wireWriteRegisterOrMask addr mask ∧ tx = [0x01#8, addr] ++ le32 mask ∧ n = 0) ∨
        (∃ addr mask, i = .wireWriteRegisterAndMask addr mask ∧ tx = [0x02#8, addr] ++ le32 mask ∧ n = 0) ∨
        (∃ addr, i = .wireReadRegister addr ∧ tx = [0x04#8, addr] ∧ n = 4) ∨
        (∃ addr len, i = .wireReadEeprom addr len ∧ tx = [0x07#8, addr, len] ∧ n = len.toNat) ∨
        (∃ validBits payload, i = .wireSendData validBits payload ∧ tx = [0x09#8, validBits] ++ payload ∧ n = 0) ∨
        (∃ second, i = .wireReadData n second ∧ tx = [0x0A#8, second]) ∨
        (∃ txConf rxConf, i = .wireLoadRfConfig txConf rxConf ∧ tx = [0x11#8, txConf, rxConf] ∧ n = 0) ∨
        (∃ second, i = .wireRfOn second ∧ tx = [0x16#8, second] ∧ n = 0) ∨
        (∃ second, i = .wireRfOff second ∧ tx = [0x17#8, second] ∧ n = 0)) →
      x.Carries tx n →
      exec i s = .next (s.after (c.ended .ok (some (.bytes x.rx)) 1 bs ds)
        (trailOp s.params s.now.handle (.transact tx n) .ok (some (.bytes x.rx))
          (trailTxn s.params s.now.handle (.transact tx n) x)))

/-! ### Lines, IRQ status, transceiver state -/

/-- BEGIN drives the reset line inactive and chip-select to its idle level, sets `BEGUN` and ends `Ok` without a value and without
traffic, initialised before or not; a line is logged only when its level changes (42_radio_controller.md R200; a line that
becomes driven changes, log 6). -/
def Obligations.BeginCompletes : Prop :=
  ∀ (s : State) (c : Handle), s.handles[s.now.handle]? = some c → c.op = none → c.stack = [] → c.tePhase = .idle →
    4 ≤ s.now.quantum →
    exec .beginLines s = .next (s.after
      { c with
        rst := some (!s.params.rstActiveLevel), nss := some high, begun := true, status := some .ok, result := none
        ret := ⟨.ok, none⟩ }
      (trailOp s.params s.now.handle .beginLines .ok none
        ⟨(if c.rst = some (!s.params.rstActiveLevel) then [] else [.rst s.now.handle (!s.params.rstActiveLevel)]) ++
          (if c.nss = some high then [] else [.nss s.now.handle high]), [], []⟩))

/-- RESET pulses the reset line, waits until a read of IRQ status shows the Idle bit, clears every IRQ bit and ends `Ok` without a
value, the reset line inactive (42_radio_controller.md R202). -/
def Obligations.ResetCompletes : Prop :=
  ∀ (s : State) (c : Handle) (t : ResetXfers) (bs : List Level) (ds : List Byte), s.params.wf = true → Ready s c →
    t.Starts s.params → Answers s c t.all bs ds →
    exec .resetChip s = .next (s.after
      { c.ended .ok none t.all.length bs ds with rst := some (!s.params.rstActiveLevel) }
      (t.trail s.params s.now.handle c.rst))

/-- The RF-on wait and the startup wait that see their bit in none of the reads their limit allows: the operation ends with
DeviceNotResponding, the wait is named in `TIMEOUT_STAGE`, and no clear is sent (41_command_layer.md R167; 42_radio_controller.md
R202; 60_exceptions.md R271, R273). -/
def Obligations.IrqWaitsGiveUp : Prop :=
  ∀ (s : State) (c : Handle) (bs : List Level) (ds : List Byte) (misses : List Xfer), s.params.wf = true → Ready s c →
    misses ≠ [] →
    (∀ frame : Xfer, frame.Carries [0x16#8, 0x00#8] 0 → (∀ x ∈ misses, IrqReads s.params s.params.rfOnConfirmBit false x) →
      s.params.pollLimitIrq = some misses.length → Answers s c (frame :: misses) bs ds →
      exec .rfOn s = .next (s.after
        { c.ended .deviceNotResponding (some (.bool false)) (misses.length + 1) bs ds with timeoutStage := some .wRfOn }
        (trailOp s.params s.now.handle .rfOn .deviceNotResponding (some (.bool false))
          (.concat (trailTxn s.params s.now.handle .rfOn frame :: misses.map (trailIrqRead s.params s.now.handle)))))) ∧
    ((∀ x ∈ misses, IrqReads s.params s.params.irqBitIdle false x) → s.params.pollLimitStartup = some misses.length →
      Answers s c misses bs ds →
      exec .resetChip s = .next (s.after
        { c.ended .deviceNotResponding none misses.length bs ds with
          rst := some (!s.params.rstActiveLevel), timeoutStage := some .wStartup }
        (trailOp s.params s.now.handle .resetChip .deviceNotResponding none
          (.concat (trailPulse s.params s.now.handle c.rst :: misses.map (trailIrqRead s.params s.now.handle))))))

/-- GET_IRQ_STATUS reads the IRQ status register and returns its value; CLEAR_IRQ_STATUS writes the mask to the IRQ clear register
and returns no value (41_command_layer.md R170, R171). -/
def Obligations.IrqOperationsComplete : Prop :=
  ∀ (s : State) (c : Handle) (x : Xfer) (bs : List Level) (ds : List Byte), s.params.wf = true → Ready s c →
    Answers s c [x] bs ds →
    (∀ b0 b1 b2 b3 : Byte, x.tx = [0x04#8, s.params.regIrqStatus] → x.rx = [b0, b1, b2, b3] →
      exec .getIrqStatus s = .next (s.after (c.ended .ok (some (.word (fromLe32 b0 b1 b2 b3))) 1 bs ds)
        (trailIrqRead s.params s.now.handle x))) ∧
    (∀ mask : Nat, mask < 2 ^ s.params.regValueBits → x.Carries ([0x00#8, s.params.regIrqClear] ++ le32 (BitVec.ofNat 32 mask)) 0 →
      exec (.clearIrqStatus mask) s = .next (s.after (c.ended .ok none 1 bs ds) (trailClear s.params s.now.handle mask x)))

/-- GET_TRANSCEIVE_STATE whose read succeeds returns the state in the field of RF_STATUS and writes `TS_FALLBACK` 0
(41_command_layer.md R172). -/
def Obligations.TransceiveStateCompletes : Prop :=
  ∀ (s : State) (c : Handle) (x : Xfer) (bs : List Level) (ds : List Byte) (b0 b1 b2 b3 : Byte), s.params.wf = true →
    Ready s c → Answers s c [x] bs ds → x.tx = [0x04#8, s.params.regRfStatus] → x.rx = [b0, b1, b2, b3] →
    exec .getTransceiveState s = .next (s.after
      { c.ended .ok (some (.transceiver (transceiverOf s.params (fromLe32 b0 b1 b2 b3)))) 1 bs ds with tsFallback := false }
      (trailStateRead s.params s.now.handle x))

/-- GET_TRANSCEIVE_STATE whose read is not answered ends `Ok` with Idle and `TS_FALLBACK` 1; the wait that ran out is named
(41_command_layer.md R172; 60_exceptions.md R273). First the whole operation, busy staying high in the first wait of the read;
then its last transition, however the read failed. That an enclosed operation writes `STATUS` and `RESULT` and leaves `OP` to the
one around it is read from 10_state.md R26 (log 8, DEDUCED). -/
def Obligations.TransceiveStateSoftFails : Prop :=
  (∀ (s : State) (c : Handle) (k : Nat) (bs : List Level), s.params.wf = true → Ready s c →
    s.params.pollLimitBusy = some (k + 1) → c.busyIn = List.replicate (k + 1) high ++ bs → k + 9 ≤ s.now.quantum →
    exec .getTransceiveState s = .next (s.after
      { c.ended .ok (some (.transceiver .idle)) 1 bs c.dataIn with tsFallback := true, timeoutStage := some .wReadyTx }
      (trailOp s.params s.now.handle .getTransceiveState .ok (some (.transceiver .idle))
        (trailStateFallback s.params s.now.handle)))) ∧
  (∀ (v : View) (rest : List Micro) (fs : List Frame), v.c.tePhase = .idle →
    v.c.stack = ⟨.getTransceiveState, .returnState :: rest⟩ :: fs → v.c.ret.status ≠ .ok →
    tick v = .moved { v with
      c := { v.c with
        tsFallback := true, status := some .ok, result := some (.transceiver .idle)
        ret := ⟨.ok, some (.transceiver .idle)⟩, stack := fs, op := if fs = [] then none else v.c.op }
      bus := { v.bus with log := v.bus.log ++ [.opEnd v.id .ok (some (.transceiver .idle))] } })

/-! ### Sending data -/

/-- SEND_DATA with arguments in range whose state read gives WaitTransmit forces Idle, arms Transceive, reads the state, sends the
payload frame and returns true (41_command_layer.md R165). -/
def Obligations.SendDataCompletes : Prop :=
  ∀ (s : State) (c : Handle) (t : SendXfers) (payload : List Byte) (validBits : Nat) (bs : List Level) (ds : List Byte),
    s.params.wf = true → Ready s c → payload.length ≤ s.params.maxSendPayload → validBits ≤ 255 →
    t.Sends s.params (BitVec.ofNat 8 validBits) payload → Answers s c t.all bs ds →
    exec (.sendData payload validBits) s = .next (s.after
      { c.ended .ok (some (.bool true)) 4 bs ds with tsFallback := false }
      (t.trail s.params s.now.handle payload validBits))

/-- SEND_DATA and SEND_EOF whose state read gives another state than WaitTransmit end with SequenceError after exactly three
transactions: the payload frame is not sent (41_command_layer.md R165, R166; 42_radio_controller.md R204). -/
def Obligations.WrongStateIsSequenceError : Prop :=
  ∀ (s : State) (c : Handle) (t : SendXfers) (st : TransceiverState) (bs : List Level) (ds : List Byte),
    s.params.wf = true → Ready s c → t.Arms s.params st → st ≠ .waitTransmit → Answers s c [t.idle, t.arm, t.state] bs ds →
    (∀ (payload : List Byte) (validBits : Nat), payload.length ≤ s.params.maxSendPayload → validBits ≤ 255 →
      exec (.sendData payload validBits) s = .next (s.after
        { c.ended .sequenceError (some (.bool false)) 3 bs ds with tsFallback := false }
        (t.refusedTrail s.params s.now.handle payload validBits))) ∧
    exec .sendEof s = .next (s.after
      { c.ended .sequenceError (some (.bool false)) 3 bs ds with tsFallback := false }
      (trailOp s.params s.now.handle .sendEof .sequenceError (some (.bool false)) (t.refusedTrail s.params s.now.handle [] 0)))

/-- SEND_DATA and SEND_EOF whose state read falls back to Idle end with DeviceNotResponding, not with SequenceError
(41_command_layer.md R165; 42_radio_controller.md R204; 60_exceptions.md R276). First the whole operations, busy staying high in
the first wait of the read; then the check of SEND_DATA, however the read failed. That an enclosed SEND_DATA that ends with an
error writes `STATUS` and `RESULT` and leaves `OP` to the operation around it, where 60_exceptions.md R271 item 4 has `None`, is
read from 10_state.md R26 (log 8, DEDUCED). -/
def Obligations.FallbackStateIsDeviceNotResponding : Prop :=
  (∀ (s : State) (c : Handle) (idle arm : Xfer) (k : Nat) (bs : List Level) (ds : List Byte),
    s.params.wf = true → Ready s c → RearmCarries s.params idle arm → idle.Fits s.params → arm.Fits s.params →
    s.params.pollLimitBusy = some (k + 1) →
    c.busyIn = idle.busy ++ (arm.busy ++ (List.replicate (k + 1) high ++ bs)) → c.dataIn = idle.data ++ (arm.data ++ ds) →
    budget [idle, arm] + k ≤ s.now.quantum →
    let after : Handle :=
      { c.ended .deviceNotResponding (some (.bool false)) 3 bs ds with tsFallback := true, timeoutStage := some .wReadyTx }
    let send (payload : List Byte) (validBits : Nat) : Trail :=
      trailOp s.params s.now.handle (.sendData payload validBits) .deviceNotResponding (some (.bool false))
        (.concat [trailIdle s.params s.now.handle idle, trailArm s.params s.now.handle arm,
          trailOp s.params s.now.handle .getTransceiveState .ok (some (.transceiver .idle))
            (trailStateFallback s.params s.now.handle)])
    (∀ (payload : List Byte) (validBits : Nat), payload.length ≤ s.params.maxSendPayload → validBits ≤ 255 →
      exec (.sendData payload validBits) s = .next (s.after after (send payload validBits))) ∧
    exec .sendEof s = .next (s.after after
      (trailOp s.params s.now.handle .sendEof .deviceNotResponding (some (.bool false)) (send [] 0)))) ∧
  (∀ (v : View) (payload : List Byte) (validBits : Nat) (rest : List Micro) (fs : List Frame), v.c.tePhase = .idle →
    v.c.stack = ⟨.sendData payload validBits, .stateCheck :: rest⟩ :: fs → v.c.tsFallback = true →
    tick v = .moved { v with
      c := { v.c with
        status := some .deviceNotResponding, result := some (.bool false), ret := ⟨.deviceNotResponding, some (.bool false)⟩
        stack := fs, op := if fs = [] then none else v.c.op }
      bus := { v.bus with log := v.bus.log ++ [.opEnd v.id .deviceNotResponding (some (.bool false))] } })

/-- SEND_EOF whose state read gives WaitTransmit is SEND_DATA of the empty payload, whose frame is `[0x09, 0x00]`, and returns true
(42_radio_controller.md R204; 30_encoding.md R97). -/
def Obligations.SendEofCompletes : Prop :=
  ∀ (s : State) (c : Handle) (t : SendXfers) (bs : List Level) (ds : List Byte), s.params.wf = true → Ready s c →
    t.Sends s.params 0x00#8 [] → Answers s c t.all bs ds →
    exec .sendEof s = .next (s.after { c.ended .ok (some (.bool true)) 4 bs ds with tsFallback := false }
      (t.eof s.params s.now.handle))

/-! ### The field and the inventory -/

/-- RF_ON sends its frame, reads IRQ status until the confirmation bit shows, clears that bit alone and returns true
(41_command_layer.md R167). -/
def Obligations.RfOnCompletes : Prop :=
  ∀ (s : State) (c : Handle) (t : RfOnXfers) (bs : List Level) (ds : List Byte), s.params.wf = true → Ready s c →
    t.Confirms s.params → Answers s c t.all bs ds →
    exec .rfOn s = .next (s.after (c.ended .ok (some (.bool true)) t.all.length bs ds) (t.trail s.params s.now.handle))

/-- SETUP_RF turns the field off, loads the two profiles, turns the field on, re-arms and returns true (43_inventory.md R230). -/
def Obligations.SetupRfCompletes : Prop :=
  ∀ (s : State) (c : Handle) (t : SetupXfers) (bs : List Level) (ds : List Byte), s.params.wf = true → Ready s c →
    t.Sets s.params → Answers s c t.all bs ds →
    exec .setupRf s = .next (s.after (c.ended .ok (some (.bool true)) t.all.length bs ds) (t.trail s.params s.now.handle))

/-- A pass of GET_INVENTORY_16_SLOTS whose request is sent runs every slot, collects the frame of each slot whose RX
start-of-frame bit shows and whose length is accepted, goes on after a slot whose EOF is not sent, and returns the frames in slot
order with their count and the outcome; the inventory registers hold no value afterwards (43_inventory.md R240, R243 to R247,
R251; 70_reset_and_hazards.md R305). -/
def Obligations.InventoryPassCompletes : Prop :=
  ∀ (s : State) (c : Handle) (t : PassXfers) (bs : List Level) (ds : List Byte), s.params.wf = true → Ready s c →
    t.Runs s.params → Answers s c (t.made s.params) bs ds →
    exec .getInventory16Slots s = .next (s.after
      { c.ended .ok (some (t.result s.params)) (t.made s.params).length bs ds with
        tsFallback := false, invPhase := .idle, invSlot := none, invCount := none, invFrames := none }
      (trailOp s.params s.now.handle .getInventory16Slots .ok (some (t.result s.params)) (t.trail s.params s.now.handle)))

/-- A pass in which every EOF is sent makes `11 + k + 144 + 2 T + U` transactions, with k reads of IRQ status in RF_ON, T slots
whose response is read and U slots whose response length is not accepted: GET_INVENTORY_16_SLOTS adds that many to `TXN_COUNT`
(43_inventory.md R253). -/
def Obligations.PassTransactionCount : Prop :=
  ∀ (s : State) (c : Handle) (t : PassXfers) (bs : List Level) (ds : List Byte), s.params.wf = true → s.params.nSlots = 16 →
    Ready s c → t.Runs s.params → (∀ sl ∈ t.slots, sl.eof.ready s.params = true) → Answers s c (t.made s.params) bs ds →
    ∃ (u : State) (c' : Handle), exec .getInventory16Slots s = .next u ∧ u.handles[s.now.handle]? = some c' ∧
      c'.txnCount = c.txnCount + (11 + (t.setup.on.misses.length + 1) + 144 +
        2 * (t.slots.filter (SlotXfers.collects s.params)).length +
        (t.slots.filter fun sl => sl.responds s.params && !sl.collects s.params).length)

/-- A pass that is not aborted starts exactly 16 SEND_EOF operations and 17 broad clears, sends one EOF frame for each slot whose
state read gives WaitTransmit, and returns at most 16 frames with their number and the outcome `Ok` exactly when there is one: all
read off the log and the RESULT that GET_INVENTORY_16_SLOTS leaves (43_inventory.md R246, R247, R248). The broad mask must not be
the mask of RF_ON's clear, or the two clears could not be told apart. -/
def Obligations.PassShape : Prop :=
  ∀ (s : State) (c : Handle) (t : PassXfers) (bs : List Level) (ds : List Byte), s.params.wf = true → s.params.nSlots = 16 →
    s.params.broadIrqMask ≠ 1#32 <<< s.params.rfOnConfirmBit.val → Ready s c → t.Runs s.params →
    Answers s c (t.made s.params) bs ds →
    ∃ (u : State) (c' : Handle) (new : List LogRec) (frames : List (List Byte)), exec .getInventory16Slots s = .next u ∧
      u.handles[s.now.handle]? = some c' ∧ u.shared.log = s.shared.log ++ new ∧
      new.count (.opStart s.now.handle .sendEof) = 16 ∧
      new.count (.opStart s.now.handle (.clearIrqStatus s.params.broadIrqMask.toNat)) = 17 ∧
      new.count (.txnStart s.now.handle [0x09#8, 0x00#8] 0) = (t.slots.filter fun sl => sl.eof.ready s.params).length ∧
      c'.status = some .ok ∧ frames.length ≤ 16 ∧
      c'.result = some (.inventory (if 1 ≤ frames.length then .ok else .noCard) frames.length frames)

/-- Inside a slot, a RangeError of READ_DATA and a SequenceError of SEND_EOF are passed over; DeviceNotResponding aborts with
`(Failed, 0, [])`, and the frames collected are gone (43_inventory.md R243, R244, R245). -/
def Obligations.InventorySlotErrors : Prop :=
  ∀ (v : View) (rest : List Micro), v.c.tePhase = .idle →
    let aborted : View :=
      { v with
        c := { v.c with
          status := some .deviceNotResponding, result := some (.inventory .failed 0 [])
          ret := ⟨.deviceNotResponding, some (.inventory .failed 0 [])⟩, op := none, stack := []
          invPhase := .idle, invSlot := none, invCount := none, invFrames := none }
        bus := { v.bus with
          log := v.bus.log ++ [.opEnd v.id .deviceNotResponding (some (.inventory .failed 0 []))] } }
    (v.c.stack = [⟨.getInventory16Slots, .slotFrame :: rest⟩] →
      (v.c.ret.status = .rangeError → tick v = .moved { v with c := { v.c with stack := [⟨.getInventory16Slots, rest⟩] } }) ∧
      (v.c.ret.status = .deviceNotResponding → tick v = .moved aborted)) ∧
    (v.c.stack = [⟨.getInventory16Slots, .eofCheck :: rest⟩] →
      (v.c.ret.status = .ok ∨ v.c.ret.status = .sequenceError →
        tick v = .moved { v with c := { v.c with stack := [⟨.getInventory16Slots, rest⟩] } }) ∧
      (v.c.ret.status = .deviceNotResponding → tick v = .moved aborted))

/-! ### The transaction engine -/

/-- A busy wait whose sample is the last one its limit allows and does not read the awaited level: chip-select is de-asserted (and
logged) if it was asserted, the stage is recorded, the transaction ends with DeviceNotResponding and no bytes, the bus is
released, and DeviceNotResponding is what the caller is given; the count keeps the transaction (40_transaction_engine.md R129). -/
def Obligations.BusyWaitRunsOut : Prop :=
  ∀ (v : View) (level : Level) (stage : WaitStage) (limit k : Nat), awaited v.c.tePhase = some (level, stage) →
    v.params.pollLimitBusy = some limit → v.c.pollCnt = some k → limit ≤ k + 1 → v.sampleBusy.1 ≠ level →
    tick v = .moved { v with
      c := { v.sampleBusy.2.c with
        nss := if v.c.nss = some low then some high else v.c.nss
        timeoutStage := some stage, ret := ⟨.deviceNotResponding, none⟩, tePhase := .idle
        txBuf := none, txIdx := none, rxLen := none, rxBuf := none, pollCnt := none }
      bus := { v.bus with
        busOwner := none
        log := v.bus.log ++ (if v.c.nss = some low then [.nss v.id high] else []) ++ [.txnEnd v.id .deviceNotResponding []] } }

/-- Without a limit, a busy wait that does not read the awaited level in q samples is still the same wait after q transitions, so
a missed busy pulse can hang the engine (40_transaction_engine.md R119, R126; 70_reset_and_hazards.md R312). -/
def Obligations.BusyWaitCanHang : Prop :=
  ∀ (q : Nat) (v : View) (level : Level) (stage : WaitStage) (k : Nat) (bs : List Level),
    awaited v.c.tePhase = some (level, stage) → v.params.pollLimitBusy = none → v.c.pollCnt = some k →
    v.c.busyIn = List.replicate q (!level) ++ bs →
    run q v = .ok { v with c := { v.c with busyIn := bs, pollCnt := some (k + q) } }

/-- A transaction that has the bus ends `Ok` with the bytes it logs, or with DeviceNotResponding; with an unbounded busy wait it
never ends with DeviceNotResponding (40_transaction_engine.md R127). -/
def Obligations.TransactionsEndOkOrTimedOut : Prop :=
  ∀ v w : View, tick v = .moved w → ownsBus v.c.tePhase = true → w.c.tePhase = .idle →
    ((∃ rx, w.c.ret = ⟨.ok, some (.bytes rx)⟩ ∧ w.bus.log = v.bus.log ++ [.txnEnd v.id .ok rx]) ∨
      w.c.ret = ⟨.deviceNotResponding, none⟩) ∧
    (v.params.pollLimitBusy = none → w.c.ret.status = .ok)

/-- Every transition of the engine is a row of the table, taken on the condition of that row, and a wait phase is entered with
`POLL_CNT` 0 (40_transaction_engine.md R121, marked derived there). The premise is the invariant of the engine's registers. -/
def Obligations.EnginePhasesFollowTheTable : Prop :=
  ∀ v w : View, tick v = .moved w → v.c.engineOk →
    engineRow v v.c.tePhase w.c.tePhase ∧
      (∀ level stage, awaited w.c.tePhase = some (level, stage) → w.c.tePhase ≠ v.c.tePhase → w.c.pollCnt = some 0)

/-- In the write phase each transition exchanges the next byte of the frame, first byte first; the byte received is in no register
and no result (40_transaction_engine.md R123). -/
def Obligations.FrameBytesAreWritten : Prop :=
  ∀ (v : View) (tx : List Byte) (k : Nat) (b : Byte), v.c.tePhase = .txBytes → v.c.txBuf = some tx → v.c.txIdx = some k →
    tx[k]? = some b →
    tick v = .moved { v with
      c := { v.sampleData.2.c with txIdx := some (k + 1) }
      bus := { v.bus with slots := v.bus.slots ++ [⟨v.id, b, v.sampleData.1⟩] } }

/-- In the read phase each transition exchanges `READ_FILL_BYTE` and appends the byte received, until all are read
(40_transaction_engine.md R124). -/
def Obligations.ResponseBytesAreRead : Prop :=
  ∀ (v : View) (rx : List Byte) (n : Nat), v.c.tePhase = .rxBytes → v.c.rxBuf = some rx → v.c.rxLen = some n →
    (rx.length < n →
      tick v = .moved { v with
        c := { v.sampleData.2.c with rxBuf := some (rx ++ [v.sampleData.1]) }
        bus := { v.bus with slots := v.bus.slots ++ [⟨v.id, v.params.readFillByte, v.sampleData.1⟩] } }) ∧
    (n ≤ rx.length → tick v = .moved { v with c := { v.c with tePhase := .wAcceptRx, pollCnt := some 0 } })

/-- A call waiting for the bus is held while any handle owns it; on a free bus it is granted: the handle owns the bus, the
transaction is counted and its start logged, and the engine's registers are loaded (60_exceptions.md R287; 40_transaction_engine.md
R120). -/
def Obligations.BusIsGrantedWhenFree : Prop :=
  ∀ (v : View) (op : Instr) (tx : List Byte) (n : Nat) (rest : List Micro) (fs : List Frame), v.c.tePhase = .arb →
    v.c.stack = ⟨op, .transact tx n :: rest⟩ :: fs →
    (∀ owner, v.bus.busOwner = some owner → tick v = .held) ∧
    (v.bus.busOwner = none →
      tick v = .moved { v with
        c := { v.c with
          stack := ⟨op, rest⟩ :: fs, txnCount := v.c.txnCount + 1, txBuf := some tx, txIdx := some 0, rxLen := some n
          rxBuf := some [], tePhase := .wReadyTx, pollCnt := some 0 }
        bus := { v.bus with
          busOwner := some v.id, log := v.bus.log ++ [.txnStart v.id tx n]
          trace := v.bus.trace ++ traced v.params ⟨v.id, some op, registerAddress op, tx⟩ } })

/-! ### The ends of transactions and of operations -/

/-- When a transaction ends, its five registers hold no value; when GET_INVENTORY_16_SLOTS ends, its three do and its phase is
idle; and a pass starts them empty (70_reset_and_hazards.md R305). -/
def Obligations.RegistersReturnToNoValue : Prop :=
  (∀ v w : View, tick v = .moved w → v.c.tePhase ≠ .idle → w.c.tePhase = .idle →
    w.c.txBuf = none ∧ w.c.txIdx = none ∧ w.c.rxLen = none ∧ w.c.rxBuf = none ∧ w.c.pollCnt = none) ∧
  (∀ (v w : View) (todo : List Micro) (fs : List Frame), tick v = .moved w →
    v.c.stack = ⟨.getInventory16Slots, todo⟩ :: fs → w.c.stack = fs →
    w.c.invPhase = .idle ∧ w.c.invSlot = none ∧ w.c.invCount = none ∧ w.c.invFrames = none) ∧
  (∀ (s : State) (c : Handle), Ready s c → s.now.quantum = 2 →
    ∃ (t : State) (c' : Handle), exec .getInventory16Slots s = .next t ∧ t.handles[s.now.handle]? = some c' ∧
      c'.invFrames = some [] ∧ c'.invCount = some 0)

/-- For the six operations that return `bool`, the boolean is true exactly when the status is `Ok` (60_exceptions.md R272). -/
def Obligations.BooleanIsTrueExactlyWhenOk : Prop :=
  ∀ (s : State) (h : Nat) (v w : View) (op : Instr) (todo : List Micro) (fs : List Frame), s.Inv → s.view h = some v →
    v.c.stack = ⟨op, todo⟩ :: fs → tick v = .moved w → w.c.stack = fs →
    ((∃ payload validBits, op = .sendData payload validBits) ∨ (∃ txConf rxConf, op = .loadRfConfig txConf rxConf) ∨
      op = .rfOn ∨ op = .rfOff ∨ op = .sendEof ∨ op = .setupRf) →
    ∃ st b, w.c.status = some st ∧ w.c.result = some (.bool b) ∧ (b = true ↔ st = .ok)

/-- Every operation that ends writes its status and its result and logs both; when it ends `Ok` the result is of its kind
(30_encoding.md R80), and otherwise it is the one of 60_exceptions.md R271. -/
def Obligations.EndedOperationsReturnTheirKind : Prop :=
  ∀ (s : State) (h : Nat) (v w : View) (op : Instr) (todo : List Micro) (fs : List Frame), s.Inv → s.view h = some v →
    v.c.stack = ⟨op, todo⟩ :: fs → tick v = .moved w → w.c.stack = fs →
    ∃ st r, w.c.status = some st ∧ w.c.result = r ∧ w.bus.log = v.bus.log ++ [.opEnd h st r] ∧
      (st = .ok → (resultKind op).fits r = true) ∧ (st ≠ .ok → r = errorResult op)

/-- The `?` after a sub-operation that ended with an error ends the operation at once with that error; `OP` becomes `None` when no
operation encloses it (60_exceptions.md R271, R276; that an enclosed operation leaves `OP` to the one around it is read from
10_state.md R26, log 8). -/
def Obligations.ErrorEndsTheOperation : Prop :=
  ∀ (v : View) (op : Instr) (rest : List Micro) (fs : List Frame) (e : Status), v.c.tePhase = .idle →
    v.c.stack = ⟨op, .propagate :: rest⟩ :: fs → v.c.ret.status = e → e ≠ .ok →
    tick v = .moved { v with
      c := { clearInventory op v.c with
        status := some e, result := errorResult op, ret := ⟨e, errorResult op⟩, stack := fs
        op := if fs = [] then none else v.c.op }
      bus := { v.bus with log := v.bus.log ++ [.opEnd v.id e (errorResult op)] } }

/-- `TIMEOUT_STAGE` changes only when a wait runs out, and then names it: a busy wait by its phase, an IRQ wait by its name
(60_exceptions.md R273, with the five busy waits of 10_state.md R25, log 15). -/
def Obligations.TimeoutStageNamesTheWait : Prop :=
  ∀ v w : View, tick v = .moved w → w.c.timeoutStage ≠ v.c.timeoutStage →
    w.c.ret.status = .deviceNotResponding ∧
      ((∃ level stage, awaited v.c.tePhase = some (level, stage) ∧ w.c.timeoutStage = some stage) ∨
        (∃ op bit stage k rest fs, v.c.tePhase = .idle ∧ v.c.stack = ⟨op, .irqTest bit stage k :: rest⟩ :: fs ∧
          w.c.timeoutStage = some stage))

/-! ### The whole machine -/

/-- `TXN_COUNT` of a handle increases by one for each transaction the handle starts and by nothing else; the log is only ever
appended to (10_state.md R27, R32). -/
def Obligations.TransactionsAreCounted : Prop :=
  ∀ s t : State, step s = .next t →
    ∃ new : List LogRec, t.shared.log = s.shared.log ++ new ∧
      ∀ (h : Nat) (c : Handle), s.handles[h]? = some c →
        ∃ c', t.handles[h]? = some c' ∧
          c'.txnCount = c.txnCount + (new.filter fun r => match r with | .txnStart g _ _ => decide (g = h) | _ => false).length

/-- A step changes no parameter, adds and removes no handle, and leaves every handle but the one whose turn it is as it was
(70_reset_and_hazards.md R302; 60_exceptions.md R275, R284). -/
def Obligations.OtherHandlesUntouched : Prop :=
  ∀ s t : State, step s = .next t →
    t.params = s.params ∧ t.handles.length = s.handles.length ∧
      ∀ h : Nat, h ≠ t.now.handle → t.handles[h]? = s.handles[h]?

/-- Once BEGIN has run, no step clears `BEGUN` (10_state.md R43; 60_exceptions.md R275, R291). -/
def Obligations.BegunIsNeverCleared : Prop :=
  ∀ (s t : State) (h : Nat) (c : Handle), step s = .next t → s.handles[h]? = some c → c.begun = true →
    ∃ c', t.handles[h]? = some c' ∧ c'.begun = true

/-- While a handle owns the bus, the turn of another exchanges no byte, asserts no chip-select, starts and ends no transaction, and
leaves the bus with its owner (20_memory.md R66; 60_exceptions.md R287). -/
def Obligations.OwnerIsUndisturbed : Prop :=
  ∀ (s t : State) (owner : Nat), s.Inv → step s = .next t → s.shared.busOwner = some owner → t.now.handle ≠ owner →
    t.shared.busOwner = some owner ∧ t.shared.slots = s.shared.slots ∧
      ∃ new : List LogRec, t.shared.log = s.shared.log ++ new ∧
        ∀ r ∈ new, ∀ h, r ≠ .nss h low ∧ (∀ tx n, r ≠ .txnStart h tx n) ∧ (∀ st rx, r ≠ .txnEnd h st rx)

/-- After any step from a state with the invariant, at most one handle has its chip-select asserted, and it owns the bus
(10_state.md R30; 60_exceptions.md R288, both marked derived there). -/
def Obligations.BusIsExclusive : Prop :=
  ∀ (s t : State) (h1 h2 : Nat) (c1 c2 : Handle), s.Inv → step s = .next t → t.handles[h1]? = some c1 →
    t.handles[h2]? = some c2 → c1.nss = some low → c2.nss = some low → h1 = h2 ∧ t.shared.busOwner = some h1

/-- Every step keeps the invariant of the machine (`State.Inv`). -/
def Obligations.StepKeepsInvariant : Prop := ∀ s t : State, s.Inv → step s = .next t → t.Inv

/-- The machine at power-up has the invariant, whatever the parameters, the requests HOST issues and the turns to come. -/
def Obligations.PowerUpMeetsInvariant : Prop :=
  State.reset.Inv ∧ ∀ (p : Params) (inbox : List Request) (sched : List Turn),
    State.Inv { State.powerUp p with inbox := inbox, sched := sched }

/-- A state with the invariant never stops: no rule reads a register that holds no value, and every instruction runs
(10_state.md R44; 60_exceptions.md R271). -/
def Obligations.InvariantStatesNeverStop : Prop := ∀ s : State, s.Inv → ∃ t, step s = .next t

/-- Nothing in the block reads the log, the byte slots or the debug trace: whatever was observed before, a turn does the same
(10_state.md R32). -/
def Obligations.LogIsNeverRead : Prop :=
  ∀ (q : Nat) (v : View) (log : List LogRec) (slots : List Slot) (trace : List TraceRec),
    run q { v with bus := v.bus.observed log slots trace } =
      match run q v with
      | .ok w => .ok { w with bus := w.bus.observed log slots trace }
      | .error f => .error f

/-- The debug trace changes no block state and no result: with it disabled and discarded, a turn does the same
(60_exceptions.md R290). -/
def Obligations.DebugTraceChangesNothing : Prop :=
  ∀ (q : Nat) (v : View),
    let quiet : View → View := fun u =>
      { u with params := { u.params with debugEnable := false }, bus := { u.bus with trace := [] } }
    run q (quiet v) =
      match run q v with
      | .ok w => .ok (quiet w)
      | .error f => .error f

/-- The suspension points: after each failed sample of a busy wait, each failed read of an IRQ wait and each delay a turn may end,
and the next turn is whichever the schedule gives (60_exceptions.md R285). Here the turn has one transition: the step makes just
that transition, and the rest of the schedule is untouched (turns are the model's own, log 5). -/
def Obligations.SuspensionPoints : Prop :=
  ∀ (s : State) (h : Nat) (ts : List Turn) (c : Handle), s.sched = ⟨h, 1⟩ :: ts → s.handles[h]? = some c → c.op ≠ none →
    let v : View := ⟨h, s.params, c, s.shared⟩
    let suspended (c' : Handle) (records : List LogRec) : State :=
      { s with
        sched := ts, now := ⟨h, 1⟩, handles := s.handles.set h c'
        shared := { s.shared with log := s.shared.log ++ records } }
    (∀ (level : Level) (stage : WaitStage) (k : Nat), awaited c.tePhase = some (level, stage) → c.pollCnt = some k →
      limitReached s.params.pollLimitBusy (k + 1) = false → v.sampleBusy.1 ≠ level →
      step s = .next (suspended { v.sampleBusy.2.c with pollCnt := some (k + 1) } [])) ∧
    (c.tePhase = .txSetup →
      step s = .next (suspended { c with tePhase := .txBytes } [.delay h (.ms s.params.tCsSetupMs)])) ∧
    (c.tePhase = .txHold →
      step s = .next (suspended { c with tePhase := .wDoneTx, pollCnt := some 0 } [.delay h (.ms s.params.tCsHoldMs)])) ∧
    (c.tePhase = .rxSetup →
      step s = .next (suspended { c with tePhase := .rxBytes } [.delay h (.ms s.params.tCsSetupMs)])) ∧
    (c.tePhase = .rxHold →
      step s = .next (suspended { c with tePhase := .wDoneRx, pollCnt := some 0 } [.delay h (.ms s.params.tCsHoldMs)])) ∧
    (∀ (op : Instr) (d : Duration) (rest : List Micro) (fs : List Frame), c.tePhase = .idle →
      c.stack = ⟨op, .delay d :: rest⟩ :: fs →
      step s = .next (suspended { c with stack := ⟨op, rest⟩ :: fs } [.delay h d])) ∧
    (∀ (op : Instr) (bit : Fin 32) (stage : WaitStage) (k : Nat) (value : Word) (rest : List Micro) (fs : List Frame),
      c.tePhase = .idle → c.stack = ⟨op, .irqTest bit stage k :: rest⟩ :: fs → c.ret.result = some (.word value) →
      value.getLsbD bit.val = false → limitReached (irqLimit s.params stage) (k + 1) = false →
      step s = .next (suspended { c with stack := ⟨op, .irqPoll bit stage (k + 1) :: rest⟩ :: fs } []))

/-- The machine at power-up (10_state.md R43, mostly the spec's own choice there): two handles with no line driven, nothing in
progress and no working register holding a value, a free bus and an empty log. The fields of the model's own are its choice
(log 27). -/
def Obligations.PowerUpValues : Prop :=
  State.reset.handles.length = 2 ∧
    (∀ (h : Nat) (c : Handle), State.reset.handles[h]? = some c →
      c.nss = none ∧ c.rst = none ∧ c.begun = false ∧ c.op = none ∧ c.tePhase = .idle ∧ c.txBuf = none ∧ c.txIdx = none ∧
        c.rxLen = none ∧ c.rxBuf = none ∧ c.pollCnt = none ∧ c.status = none ∧ c.result = none ∧ c.timeoutStage = none ∧
        c.tsFallback = false ∧ c.txnCount = 0 ∧ c.invPhase = .idle ∧ c.invSlot = none ∧ c.invCount = none ∧ c.invFrames = none) ∧
    State.reset.shared.busOwner = none ∧ State.reset.shared.log = []

/-- Throughout a pass of GET_INVENTORY_16_SLOTS over one slot or more, whatever the environment answers and whatever the other
controllers do to the bus and the log meanwhile, `INV_PHASE` changes only along the rows of the table, on their conditions
(43_inventory.md R241, marked derived there). -/
def Obligations.InventoryPhasesFollowTheTable : Prop :=
  ∀ (p : Params) (v w : View), 0 < p.nSlots → InPass p v → tick v = .moved w → w.c.invPhase ≠ v.c.invPhase →
    inventoryRow v w v.c.invPhase w.c.invPhase
end

