-- ==== Sys2Proof/Laws/State.lean ====
section
/-! SUPPORT. What each operation on a view does to each part of it: one small lemma per part, so that no later proof unfolds
a record update. -/

namespace Sys2Proof.Machine

namespace View

variable (v : View)

/-! ### Records -/

@[simp] theorem record_id (r : LogRec) : (v.record r).id = v.id := rfl

@[simp] theorem record_params (r : LogRec) : (v.record r).params = v.params := rfl

@[simp] theorem record_c (r : LogRec) : (v.record r).c = v.c := rfl

@[simp] theorem record_busOwner (r : LogRec) : (v.record r).bus.busOwner = v.bus.busOwner := rfl

@[simp] theorem record_log (r : LogRec) : (v.record r).bus.log = v.bus.log ++ [r] := rfl

@[simp] theorem record_slots (r : LogRec) : (v.record r).bus.slots = v.bus.slots := rfl

@[simp] theorem record_trace (r : LogRec) : (v.record r).bus.trace = v.bus.trace := rfl

@[simp] theorem debug_id (op : Option Instr) (a : Option Nat) (bs : List Byte) : (v.debug op a bs).id = v.id := by unfold debug; split <;> simp [*]

@[simp] theorem debug_params (op : Option Instr) (a : Option Nat) (bs : List Byte) : (v.debug op a bs).params = v.params := by unfold debug; split <;> simp [*]

@[simp] theorem debug_c (op : Option Instr) (a : Option Nat) (bs : List Byte) : (v.debug op a bs).c = v.c := by unfold debug; split <;> simp [*]

@[simp] theorem debug_busOwner (op : Option Instr) (a : Option Nat) (bs : List Byte) : (v.debug op a bs).bus.busOwner = v.bus.busOwner := by unfold debug; split <;> simp [*]

@[simp] theorem debug_log (op : Option Instr) (a : Option Nat) (bs : List Byte) : (v.debug op a bs).bus.log = v.bus.log := by unfold debug; split <;> simp [*]

@[simp] theorem debug_slots (op : Option Instr) (a : Option Nat) (bs : List Byte) : (v.debug op a bs).bus.slots = v.bus.slots := by unfold debug; split <;> simp [*]

@[simp] theorem debug_trace (op : Option Instr) (a : Option Nat) (bs : List Byte) : (v.debug op a bs).bus.trace = v.bus.trace ++ (if v.params.debugEnable then [⟨v.id, op, a, bs⟩] else []) := by unfold debug; split <;> simp [*]

@[simp] theorem wait_id (t : Duration) : (v.wait t).id = v.id := rfl

@[simp] theorem wait_params (t : Duration) : (v.wait t).params = v.params := rfl

@[simp] theorem wait_c (t : Duration) : (v.wait t).c = v.c := rfl

@[simp] theorem wait_busOwner (t : Duration) : (v.wait t).bus.busOwner = v.bus.busOwner := rfl

@[simp] theorem wait_log (t : Duration) : (v.wait t).bus.log = v.bus.log ++ [.delay v.id t] := rfl

@[simp] theorem wait_slots (t : Duration) : (v.wait t).bus.slots = v.bus.slots := rfl

@[simp] theorem wait_trace (t : Duration) : (v.wait t).bus.trace = v.bus.trace := rfl

/-! ### Lines -/

@[simp] theorem setNss_id (l : Level) : (v.setNss l).id = v.id := by unfold setNss; cases v with | mk i p c b => cases c; split <;> simp_all [record]

@[simp] theorem setNss_params (l : Level) : (v.setNss l).params = v.params := by unfold setNss; cases v with | mk i p c b => cases c; split <;> simp_all [record]

@[simp] theorem setNss_c (l : Level) : (v.setNss l).c = { v.c with nss := some l } := by unfold setNss; cases v with | mk i p c b => cases c; split <;> simp_all [record]

@[simp] theorem setNss_busOwner (l : Level) : (v.setNss l).bus.busOwner = v.bus.busOwner := by unfold setNss; cases v with | mk i p c b => cases c; split <;> simp_all [record]

@[simp] theorem setNss_log (l : Level) : (v.setNss l).bus.log = v.bus.log ++ (if v.c.nss = some l then [] else [.nss v.id l]) := by unfold setNss; cases v with | mk i p c b => cases c; split <;> simp_all [record]

@[simp] theorem setNss_slots (l : Level) : (v.setNss l).bus.slots = v.bus.slots := by unfold setNss; cases v with | mk i p c b => cases c; split <;> simp_all [record]

@[simp] theorem setNss_trace (l : Level) : (v.setNss l).bus.trace = v.bus.trace := by unfold setNss; cases v with | mk i p c b => cases c; split <;> simp_all [record]

@[simp] theorem setRst_id (l : Level) : (v.setRst l).id = v.id := by unfold setRst; cases v with | mk i p c b => cases c; split <;> simp_all [record]

@[simp] theorem setRst_params (l : Level) : (v.setRst l).params = v.params := by unfold setRst; cases v with | mk i p c b => cases c; split <;> simp_all [record]

@[simp] theorem setRst_c (l : Level) : (v.setRst l).c = { v.c with rst := some l } := by unfold setRst; cases v with | mk i p c b => cases c; split <;> simp_all [record]

@[simp] theorem setRst_busOwner (l : Level) : (v.setRst l).bus.busOwner = v.bus.busOwner := by unfold setRst; cases v with | mk i p c b => cases c; split <;> simp_all [record]

@[simp] theorem setRst_log (l : Level) : (v.setRst l).bus.log = v.bus.log ++ (if v.c.rst = some l then [] else [.rst v.id l]) := by unfold setRst; cases v with | mk i p c b => cases c; split <;> simp_all [record]

@[simp] theorem setRst_slots (l : Level) : (v.setRst l).bus.slots = v.bus.slots := by unfold setRst; cases v with | mk i p c b => cases c; split <;> simp_all [record]

@[simp] theorem setRst_trace (l : Level) : (v.setRst l).bus.trace = v.bus.trace := by unfold setRst; cases v with | mk i p c b => cases c; split <;> simp_all [record]

/-! ### The bus -/

@[simp] theorem acquire_id : (v.acquire).id = v.id := rfl

@[simp] theorem acquire_params : (v.acquire).params = v.params := rfl

@[simp] theorem acquire_c : (v.acquire).c = v.c := rfl

@[simp] theorem acquire_busOwner : (v.acquire).bus.busOwner = some v.id := rfl

@[simp] theorem acquire_log : (v.acquire).bus.log = v.bus.log := rfl

@[simp] theorem acquire_slots : (v.acquire).bus.slots = v.bus.slots := rfl

@[simp] theorem acquire_trace : (v.acquire).bus.trace = v.bus.trace := rfl

@[simp] theorem release_id : (v.release).id = v.id := rfl

@[simp] theorem release_params : (v.release).params = v.params := rfl

@[simp] theorem release_c : (v.release).c = v.c := rfl

@[simp] theorem release_busOwner : (v.release).bus.busOwner = none := rfl

@[simp] theorem release_log : (v.release).bus.log = v.bus.log := rfl

@[simp] theorem release_slots : (v.release).bus.slots = v.bus.slots := rfl

@[simp] theorem release_trace : (v.release).bus.trace = v.bus.trace := rfl

/-! ### Phases -/

@[simp] theorem enter_id (ph : TePhase) : (v.enter ph).id = v.id := rfl

@[simp] theorem enter_params (ph : TePhase) : (v.enter ph).params = v.params := rfl

@[simp] theorem enter_c (ph : TePhase) : (v.enter ph).c = { v.c with tePhase := ph } := rfl

@[simp] theorem enter_busOwner (ph : TePhase) : (v.enter ph).bus.busOwner = v.bus.busOwner := rfl

@[simp] theorem enter_log (ph : TePhase) : (v.enter ph).bus.log = v.bus.log := rfl

@[simp] theorem enter_slots (ph : TePhase) : (v.enter ph).bus.slots = v.bus.slots := rfl

@[simp] theorem enter_trace (ph : TePhase) : (v.enter ph).bus.trace = v.bus.trace := rfl

@[simp] theorem enterWait_id (ph : TePhase) : (v.enterWait ph).id = v.id := rfl

@[simp] theorem enterWait_params (ph : TePhase) : (v.enterWait ph).params = v.params := rfl

@[simp] theorem enterWait_c (ph : TePhase) : (v.enterWait ph).c = { v.c with tePhase := ph, pollCnt := some 0 } := rfl

@[simp] theorem enterWait_busOwner (ph : TePhase) : (v.enterWait ph).bus.busOwner = v.bus.busOwner := rfl

@[simp] theorem enterWait_log (ph : TePhase) : (v.enterWait ph).bus.log = v.bus.log := rfl

@[simp] theorem enterWait_slots (ph : TePhase) : (v.enterWait ph).bus.slots = v.bus.slots := rfl

@[simp] theorem enterWait_trace (ph : TePhase) : (v.enterWait ph).bus.trace = v.bus.trace := rfl

end View

end Sys2Proof.Machine
end

