-- ==== Sys2Proof/Laws/Engine.lean ====
section
/-! SUPPORT. Runs of one handle controller, composed; the parts of a transaction (busy waits, write phase, read phase) and
the whole of one. -/

namespace Sys2Proof.Machine

/-! ### Runs compose -/

/-- `k` transitions lead from `v` to `w`. -/
def Reaches (k : Nat) (v w : View) : Prop := ∀ q, run (k + q) v = run q w

theorem Reaches.refl (v : View) : Reaches 0 v v := fun q => by rw [Nat.zero_add]

theorem Reaches.of_tick {v w : View} (h : tick v = .moved w) : Reaches 1 v w := fun q => by
  rw [Nat.add_comm]; simp only [run, h]

theorem Reaches.trans {a b : Nat} {u v w : View} (h1 : Reaches a u v) (h2 : Reaches b v w) : Reaches (a + b) u w :=
  fun q => by rw [Nat.add_assoc, h1, h2]

theorem Reaches.cast {a b : Nat} {v w : View} (h : Reaches a v w) (e : a = b) : Reaches b v w := e ▸ h

/-- A controller with nothing to do stays as it is for the rest of its turn. -/
theorem run_held {v : View} (h : tick v = .held) : ∀ q, run q v = .ok v
  | 0 => rfl
  | q + 1 => by simp only [run, h]

/-- A turn long enough for `k` transitions that lead to a controller with nothing to do ends there. -/
theorem Reaches.run_eq {k q : Nat} {v w : View} (h : Reaches k v w) (held : tick w = .held) (le : k ≤ q) :
    run q v = .ok w := by
  obtain ⟨d, rfl⟩ := Nat.exists_eq_add_of_le le
  rw [h, run_held held]

/-! ### The phase decides the transition -/

theorem tick_engine {v : View} {ph : TePhase} (h : v.c.tePhase = ph) (ne : ph ≠ .idle) : tick v = tickEngine v ph := by
  subst h; simp only [tick, if_neg ne]

theorem tick_idle {v : View} (h : v.c.tePhase = .idle) : tick v = tickIdle v := by simp only [tick, if_pos h]

/-! ### Busy waits -/

theorem limitReached_mono {limit : Option Nat} {a b : Nat} (h : limitReached limit b = false) (le : a ≤ b) :
    limitReached limit a = false := by
  cases limit with
  | none => rfl
  | some l => simp only [limitReached, decide_eq_false_iff_not] at *; omega

/-- A busy wait whose first `k` samples fail and whose next one reads the awaited level goes on after `k + 1` transitions,
with those samples taken off the tape and `POLL_CNT` counting the failures. -/
theorem poll_succeeds {ph : TePhase} {level : Level} {stage : WaitStage} {next : View → Tick} (ne : ph ≠ .idle)
    (hpoll : ∀ v : View, tickEngine v ph = pollBusy v level stage next) :
    ∀ (k : Nat) (v w : View) (j : Nat) (bs : List Level), v.c.tePhase = ph →
      v.c.busyIn = List.replicate k (!level) ++ level :: bs → v.c.pollCnt = some j →
      limitReached v.params.pollLimitBusy (j + k) = false →
      next { v with c := { v.c with busyIn := bs, pollCnt := some (j + k) } } = .moved w → Reaches (k + 1) v w
  | 0, v, w, j, bs, hp, hb, hc, _, hn => by
    refine Reaches.of_tick ?_
    rw [tick_engine hp ne, hpoll]
    have hb' : v.c.busyIn = level :: bs := by simpa using hb
    simp only [pollBusy, View.sampleBusy, hb', if_true]
    rw [← hn]
    cases v with | mk i p c b => cases c; simp_all
  | k + 1, v, w, j, bs, hp, hb, hc, hl, hn => by
    have hb' : v.c.busyIn = (!level) :: (List.replicate k (!level) ++ level :: bs) := by
      simpa [List.replicate_succ] using hb
    have hl1 : limitReached v.params.pollLimitBusy (j + 1) = false := limitReached_mono hl (by omega)
    have h1 : tick v = .moved { v with c := { v.c with
        busyIn := List.replicate k (!level) ++ level :: bs, pollCnt := some (j + 1) } } := by
      rw [tick_engine hp ne, hpoll]
      have hne : (!level) ≠ level := by cases level <;> decide
      simp only [pollBusy, View.sampleBusy, hb', if_neg hne, hc, hl1]
      rfl
    have hjk : j + 1 + k = j + (k + 1) := by omega
    refine ((Reaches.of_tick h1).trans (poll_succeeds ne hpoll k _ w (j + 1) bs hp rfl rfl ?_ ?_)).cast (by omega)
    · rw [hjk]; exact hl
    · rw [hjk]; exact hn

/-! ### The byte slots -/

/-- The write phase exchanges the rest of the frame, one byte slot a transition. -/
theorem writes_frame (tx : List Byte) : ∀ (rest done junk ds : List Byte) (v : View), v.c.tePhase = .txBytes →
    tx = done ++ rest → junk.length = rest.length → v.c.txBuf = some tx → v.c.txIdx = some done.length →
    v.c.dataIn = junk ++ ds →
    Reaches rest.length v { v with
      c := { v.c with txIdx := some tx.length, dataIn := ds }
      bus := { v.bus with slots := v.bus.slots ++ List.zipWith (fun o i => ⟨v.id, o, i⟩) rest junk } }
  | [], done, junk, ds, v, hp, ht, hj, hb, hi, hd => by
    have hj' : junk = [] := List.eq_nil_of_length_eq_zero (by simpa using hj)
    subst hj'
    have : v = { v with
        c := { v.c with txIdx := some tx.length, dataIn := ds }
        bus := { v.bus with slots := v.bus.slots ++ List.zipWith (fun o i => ⟨v.id, o, i⟩) [] [] } } := by
      cases v with | mk i p c b => cases c; cases b; simp_all
    rw [← this]; exact Reaches.refl v
  | o :: rest, done, [], ds, v, hp, ht, hj, hb, hi, hd => by simp at hj
  | o :: rest, done, i :: junk, ds, v, hp, ht, hj, hb, hi, hd => by
    have hget : tx[done.length]? = some o := by rw [ht]; simp
    have h1 : tick v = .moved { v with
        c := { v.c with txIdx := some (done.length + 1), dataIn := junk ++ ds }
        bus := { v.bus with slots := v.bus.slots ++ [⟨v.id, o, i⟩] } } := by
      rw [tick_engine hp (by decide)]
      simp only [tickEngine, tickTxBytes, hb, hi, hget, View.exchange, View.sampleData, hd, List.cons_append]
    have h2 := writes_frame tx rest (done ++ [o]) junk ds
      { v with
        c := { v.c with txIdx := some (done.length + 1), dataIn := junk ++ ds }
        bus := { v.bus with slots := v.bus.slots ++ [⟨v.id, o, i⟩] } }
      hp (by simp [ht]) (by simpa using hj) hb (by simp) rfl
    have h3 := (Reaches.of_tick h1).trans h2
    simpa [List.append_assoc, Nat.add_comm] using h3

/-- The read phase exchanges the fill byte until all bytes are read, one byte slot a transition. -/
theorem reads_bytes (n : Nat) : ∀ (more got ds : List Byte) (v : View), v.c.tePhase = .rxBytes →
    v.c.rxLen = some n → v.c.rxBuf = some got → got.length + more.length = n → v.c.dataIn = more ++ ds →
    Reaches more.length v { v with
      c := { v.c with rxBuf := some (got ++ more), dataIn := ds }
      bus := { v.bus with slots := v.bus.slots ++ more.map fun i => ⟨v.id, v.params.readFillByte, i⟩ } }
  | [], got, ds, v, hp, hn, hb, hl, hd => by
    have : v = { v with
        c := { v.c with rxBuf := some (got ++ []), dataIn := ds }
        bus := { v.bus with slots := v.bus.slots ++ ([] : List Byte).map fun i => ⟨v.id, v.params.readFillByte, i⟩ } } := by
      cases v with | mk i p c b => cases c; cases b; simp_all
    rw [← this]; exact Reaches.refl v
  | i :: more, got, ds, v, hp, hn, hb, hl, hd => by
    have hlt : got.length < n := by simp at hl; omega
    have h1 : tick v = .moved { v with
        c := { v.c with rxBuf := some (got ++ [i]), dataIn := more ++ ds }
        bus := { v.bus with slots := v.bus.slots ++ [⟨v.id, v.params.readFillByte, i⟩] } } := by
      rw [tick_engine hp (by decide)]
      simp only [tickEngine, tickRxBytes, hb, hn, if_pos hlt, View.exchange, View.sampleData, hd, List.cons_append]
    have h2 := reads_bytes n more (got ++ [i]) ds
      { v with
        c := { v.c with rxBuf := some (got ++ [i]), dataIn := more ++ ds }
        bus := { v.bus with slots := v.bus.slots ++ [⟨v.id, v.params.readFillByte, i⟩] } }
      hp hn rfl (by simp at hl ⊢; omega) rfl
    have h3 := (Reaches.of_tick h1).trans h2
    simpa [List.append_assoc, Nat.add_comm] using h3

/-! ### A whole transaction -/

/-- A view inside a transaction `x`, with its phase and registers in plain sight. -/
def View.inTxn (v : View) (x : Xfer) (ph : TePhase) (nss : Level) (idx cnt : Nat) (rx : List Byte) (bs : List Level)
    (ds : List Byte) (log : List LogRec) (slots : List Slot) : View :=
  { v with
    c := { v.c with
      tePhase := ph, nss := some nss, txBuf := some x.tx, txIdx := some idx, rxLen := some x.rx.length, rxBuf := some rx
      pollCnt := some cnt, busyIn := bs, dataIn := ds }
    bus := { v.bus with busOwner := some v.id, log := log, slots := slots } }

/-- The view after the transaction `x` of operation `op` has completed. -/
def View.afterTxn (v : View) (op : Instr) (x : Xfer) (todo : List Micro) (fs : List Frame) (bs : List Level)
    (ds : List Byte) : View :=
  { v with
    c := { v.c with
      stack := ⟨op, todo⟩ :: fs, txnCount := v.c.txnCount + 1, busyIn := bs, dataIn := ds
      ret := ⟨.ok, some (.bytes x.rx)⟩ }
    bus := v.bus.extend (trailTxn v.params v.id op x) }

/-- The transitions of a completed transaction, its call included. -/
def Xfer.ticks (x : Xfer) : Nat :=
  x.waitReadyTx + x.tx.length + x.waitAcceptTx + x.waitDoneTx + 8 +
    (if x.rx = [] then 0 else x.rx.length + x.waitAcceptRx + x.waitDoneRx + 5)

theorem debug_eq (v : View) (op : Option Instr) (a : Option Nat) (bs : List Byte) :
    v.debug op a bs = { v with bus := { v.bus with trace := v.bus.trace ++ traced v.params ⟨v.id, op, a, bs⟩ } } := by
  cases v with | mk i p c b => cases b; unfold View.debug traced; split <;> simp_all

/-- The write phase of a transaction, from the grant to the moment busy has been seen low after it. -/
theorem write_phase (v : View) (x : Xfer) (bs : List Level) (ds : List Byte) (log : List LogRec) (slots : List Slot)
    (w : View) (fits : x.Fits v.params)
    (last : doneTx (v.inTxn x .wDoneTx high x.tx.length x.waitDoneTx [] bs ds
      (log ++ [.nss v.id low, .delay v.id (.ms v.params.tCsSetupMs), .nss v.id high, .delay v.id (.ms v.params.tCsHoldMs)])
      (slots ++ List.zipWith (fun o i => ⟨v.id, o, i⟩) x.tx x.junk)) = .moved w) :
    Reaches (x.waitReadyTx + x.tx.length + x.waitAcceptTx + x.waitDoneTx + 6)
      (v.inTxn x .wReadyTx high 0 0 []
        (List.replicate x.waitReadyTx high ++ [low] ++ List.replicate x.waitAcceptTx low ++ [high] ++
          List.replicate x.waitDoneTx high ++ [low] ++ bs) (x.junk ++ ds) log slots) w := by
  obtain ⟨hj, hw⟩ := fits
  have l1 := hw x.waitReadyTx (by simp)
  have l2 := hw x.waitAcceptTx (by simp)
  have l3 := hw x.waitDoneTx (by simp)
  let bs2 := List.replicate x.waitAcceptTx low ++ [high] ++ (List.replicate x.waitDoneTx high ++ [low] ++ bs)
  let bs3 := List.replicate x.waitDoneTx high ++ [low] ++ bs
  let lg1 := log ++ [.nss v.id low]
  let lg2 := lg1 ++ [.delay v.id (.ms v.params.tCsSetupMs)]
  let lg3 := lg2 ++ [.nss v.id high]
  let lg4 := lg3 ++ [.delay v.id (.ms v.params.tCsHoldMs)]
  let sl := slots ++ List.zipWith (fun o i => ⟨v.id, o, i⟩) x.tx x.junk
  have s1 : Reaches (x.waitReadyTx + 1)
      (v.inTxn x .wReadyTx high 0 0 [] (List.replicate x.waitReadyTx high ++ low :: bs2) (x.junk ++ ds) log slots)
      (v.inTxn x .txSetup low 0 (0 + x.waitReadyTx) [] bs2 (x.junk ++ ds) lg1 slots) :=
    poll_succeeds (ph := .wReadyTx) (next := fun w => .moved ((w.setNss low).enter .txSetup)) (level := low) (by decide) (fun _ => rfl) x.waitReadyTx _ _ 0 bs2 rfl rfl rfl (by rw [Nat.zero_add]; exact l1) rfl
  have s2 : Reaches 1 (v.inTxn x .txSetup low 0 (0 + x.waitReadyTx) [] bs2 (x.junk ++ ds) lg1 slots)
      (v.inTxn x .txBytes low 0 (0 + x.waitReadyTx) [] bs2 (x.junk ++ ds) lg2 slots) := Reaches.of_tick rfl
  have s3 : Reaches x.tx.length (v.inTxn x .txBytes low 0 (0 + x.waitReadyTx) [] bs2 (x.junk ++ ds) lg2 slots)
      (v.inTxn x .txBytes low x.tx.length (0 + x.waitReadyTx) [] bs2 ds lg2 sl) :=
    writes_frame x.tx x.tx [] x.junk ds _ rfl rfl hj rfl rfl rfl
  have s4 : Reaches 1 (v.inTxn x .txBytes low x.tx.length (0 + x.waitReadyTx) [] bs2 ds lg2 sl)
      (v.inTxn x .wAcceptTx low x.tx.length 0 [] bs2 ds lg2 sl) := by
    refine Reaches.of_tick ?_
    rw [tick_engine (ph := .txBytes) rfl (by decide)]
    simp only [tickEngine, tickTxBytes, View.inTxn, List.getElem?_length]
    rfl
  have s5 : Reaches (x.waitAcceptTx + 1) (v.inTxn x .wAcceptTx low x.tx.length 0 [] bs2 ds lg2 sl)
      (v.inTxn x .txHold high x.tx.length (0 + x.waitAcceptTx) [] bs3 ds lg3 sl) :=
    poll_succeeds (ph := .wAcceptTx) (next := fun w => .moved ((w.setNss high).enter .txHold)) (level := high) (by decide) (fun _ => rfl) x.waitAcceptTx _ _ 0 bs3 rfl
      (by simp [View.inTxn, bs2, bs3]) rfl (by rw [Nat.zero_add]; exact l2) rfl
  have s6 : Reaches 1 (v.inTxn x .txHold high x.tx.length (0 + x.waitAcceptTx) [] bs3 ds lg3 sl)
      (v.inTxn x .wDoneTx high x.tx.length 0 [] bs3 ds lg4 sl) := Reaches.of_tick rfl
  have s7 : Reaches (x.waitDoneTx + 1) (v.inTxn x .wDoneTx high x.tx.length 0 [] bs3 ds lg4 sl) w :=
    poll_succeeds (ph := .wDoneTx) (next := doneTx) (level := low) (by decide) (fun _ => rfl) x.waitDoneTx _ _ 0 bs rfl
      (by simp [View.inTxn, bs3]) rfl (by rw [Nat.zero_add]; exact l3)
      (by rw [← last, Nat.zero_add]; simp [View.inTxn, lg1, lg2, lg3, lg4, sl])
  have h := ((((((s1.trans s2).trans s3).trans s4).trans s5).trans s6).trans s7).cast
    (b := x.waitReadyTx + x.tx.length + x.waitAcceptTx + x.waitDoneTx + 6) (by omega)
  simpa [bs2, bs3] using h

/-- The view with a transaction granted: its operation goes on with `rest` after it. -/
def View.granted (v : View) (op : Instr) (x : Xfer) (rest : List Micro) (fs : List Frame) : View :=
  { v with
    c := { v.c with stack := ⟨op, rest⟩ :: fs, txnCount := v.c.txnCount + 1 }
    bus := { v.bus with trace := v.bus.trace ++ traced v.params ⟨v.id, some op, registerAddress op, x.tx⟩ } }

/-- A call of `Transact` on a free bus is granted in two transitions. -/
theorem call_granted (v : View) (op : Instr) (x : Xfer) (rest : List Micro) (fs : List Frame) (phase : v.c.tePhase = .idle)
    (stack : v.c.stack = ⟨op, .transact x.tx x.rx.length :: rest⟩ :: fs) (frame : x.tx ≠ []) (nss : v.c.nss = some high)
    (free : v.bus.busOwner = none) :
    Reaches 2 v ((v.granted op x rest fs).inTxn x .wReadyTx high 0 0 [] v.c.busyIn v.c.dataIn
      (v.bus.log ++ [.txnStart v.id x.tx x.rx.length]) v.bus.slots) := by
  have h1 : tick v = .moved (v.enter .arb) := by
    rw [tick_idle phase]; simp only [tickIdle, stack, microStep, if_neg frame]
  have h2 : tick (v.enter .arb) = .moved ((v.granted op x rest fs).inTxn x .wReadyTx high 0 0 [] v.c.busyIn v.c.dataIn
      (v.bus.log ++ [.txnStart v.id x.tx x.rx.length]) v.bus.slots) := by
    rw [tick_engine (ph := .arb) rfl (by decide)]
    simp only [tickEngine, tickArb, View.enter, stack, free, if_true, View.grant, debug_eq]
    cases v with | mk i p c b => cases c; cases nss; rfl
  exact (Reaches.of_tick h1).trans (Reaches.of_tick h2)

/-- The read phase of a transaction, from its chip-select assertion to its end. -/
theorem read_phase (v : View) (x : Xfer) (cnt : Nat) (bs : List Level) (ds : List Byte) (log : List LogRec)
    (slots : List Slot) (fits : x.Fits v.params) :
    Reaches (x.rx.length + x.waitAcceptRx + x.waitDoneRx + 5)
      (v.inTxn x .rxSetup low x.tx.length cnt []
        (List.replicate x.waitAcceptRx low ++ [high] ++ List.replicate x.waitDoneRx high ++ [low] ++ bs) (x.rx ++ ds)
        log slots)
      (View.finish (v.inTxn x .wDoneRx high x.tx.length x.waitDoneRx x.rx bs ds
        (log ++ [.delay v.id (.ms v.params.tCsSetupMs), .nss v.id high, .delay v.id (.ms v.params.tCsHoldMs)])
        (slots ++ x.rx.map fun i => ⟨v.id, v.params.readFillByte, i⟩)) .ok x.rx) := by
  obtain ⟨hj, hw⟩ := fits
  have l4 := hw x.waitAcceptRx (by simp)
  have l5 := hw x.waitDoneRx (by simp)
  let bs4 := List.replicate x.waitAcceptRx low ++ [high] ++ (List.replicate x.waitDoneRx high ++ [low] ++ bs)
  let bs5 := List.replicate x.waitDoneRx high ++ [low] ++ bs
  let lg1 := log ++ [.delay v.id (.ms v.params.tCsSetupMs)]
  let lg2 := lg1 ++ [.nss v.id high]
  let lg3 := lg2 ++ [.delay v.id (.ms v.params.tCsHoldMs)]
  let sl := slots ++ x.rx.map fun i => ⟨v.id, v.params.readFillByte, i⟩
  have s1 : Reaches 1 (v.inTxn x .rxSetup low x.tx.length cnt [] bs4 (x.rx ++ ds) log slots)
      (v.inTxn x .rxBytes low x.tx.length cnt [] bs4 (x.rx ++ ds) lg1 slots) := Reaches.of_tick rfl
  have s2 : Reaches x.rx.length (v.inTxn x .rxBytes low x.tx.length cnt [] bs4 (x.rx ++ ds) lg1 slots)
      (v.inTxn x .rxBytes low x.tx.length cnt x.rx bs4 ds lg1 sl) :=
    reads_bytes x.rx.length x.rx [] ds _ rfl rfl rfl (by simp) rfl
  have s3 : Reaches 1 (v.inTxn x .rxBytes low x.tx.length cnt x.rx bs4 ds lg1 sl)
      (v.inTxn x .wAcceptRx low x.tx.length 0 x.rx bs4 ds lg1 sl) := by
    refine Reaches.of_tick ?_
    rw [tick_engine (ph := .rxBytes) rfl (by decide)]
    simp only [tickEngine, tickRxBytes, View.inTxn, Nat.lt_irrefl, if_false]
    rfl
  have s4 : Reaches (x.waitAcceptRx + 1) (v.inTxn x .wAcceptRx low x.tx.length 0 x.rx bs4 ds lg1 sl)
      (v.inTxn x .rxHold high x.tx.length (0 + x.waitAcceptRx) x.rx bs5 ds lg2 sl) :=
    poll_succeeds (ph := .wAcceptRx) (next := fun w => .moved ((w.setNss high).enter .rxHold)) (level := high) (by decide) (fun _ => rfl) x.waitAcceptRx _ _ 0 bs5 rfl
      (by simp [View.inTxn, bs4, bs5]) rfl (by rw [Nat.zero_add]; exact l4) rfl
  have s5 : Reaches 1 (v.inTxn x .rxHold high x.tx.length (0 + x.waitAcceptRx) x.rx bs5 ds lg2 sl)
      (v.inTxn x .wDoneRx high x.tx.length 0 x.rx bs5 ds lg3 sl) := Reaches.of_tick rfl
  have s6 : Reaches (x.waitDoneRx + 1) (v.inTxn x .wDoneRx high x.tx.length 0 x.rx bs5 ds lg3 sl)
      (View.finish (v.inTxn x .wDoneRx high x.tx.length (0 + x.waitDoneRx) x.rx bs ds lg3 sl) .ok x.rx) :=
    poll_succeeds (ph := .wDoneRx) (next := doneRx) (level := low) (by decide) (fun _ => rfl) x.waitDoneRx _ _ 0 bs rfl
      (by simp [View.inTxn, bs5]) rfl (by rw [Nat.zero_add]; exact l5) rfl
  have h := (((((s1.trans s2).trans s3).trans s4).trans s5).trans s6).cast
    (b := x.rx.length + x.waitAcceptRx + x.waitDoneRx + 5) (by omega)
  simpa [bs4, bs5, lg1, lg2, lg3, sl] using h

/-- A transaction that the environment answers completes: what it returns, and all it changes (40_transaction_engine.md
R120). -/
theorem transaction_completes (v : View) (op : Instr) (x : Xfer) (rest : List Micro) (fs : List Frame) (bs : List Level)
    (ds : List Byte) (phase : v.c.tePhase = .idle) (stack : v.c.stack = ⟨op, .transact x.tx x.rx.length :: rest⟩ :: fs)
    (frame : x.tx ≠ []) (nss : v.c.nss = some high)
    (regs : v.c.txBuf = none ∧ v.c.txIdx = none ∧ v.c.rxLen = none ∧ v.c.rxBuf = none ∧ v.c.pollCnt = none)
    (free : v.bus.busOwner = none) (busy : v.c.busyIn = x.busy ++ bs) (data : v.c.dataIn = x.data ++ ds)
    (fits : x.Fits v.params) : Reaches x.ticks v (v.afterTxn op x rest fs bs ds) := by
  have call := call_granted v op x rest fs phase stack frame nss free
  obtain ⟨r1, r2, r3, r4, r5⟩ := regs
  let g := v.granted op x rest fs
  let lg := v.bus.log ++ [.txnStart v.id x.tx x.rx.length]
  let lg1 := lg ++ [.nss v.id low, .delay v.id (.ms v.params.tCsSetupMs), .nss v.id high, .delay v.id (.ms v.params.tCsHoldMs)]
  let sl1 := v.bus.slots ++ List.zipWith (fun o j => ⟨v.id, o, j⟩) x.tx x.junk
  by_cases hrx : x.rx = []
  · have wp := write_phase g x bs ds lg v.bus.slots
      (View.finish (g.inTxn x .wDoneTx high x.tx.length x.waitDoneTx [] bs ds lg1 sl1) .ok []) fits
      (by simp only [doneTx, View.inTxn, hrx]; rfl)
    have hb : v.c.busyIn = List.replicate x.waitReadyTx high ++ [low] ++ List.replicate x.waitAcceptTx low ++ [high] ++
        List.replicate x.waitDoneTx high ++ [low] ++ bs := by rw [busy, Xfer.busy, if_pos hrx]; simp
    have hd : v.c.dataIn = x.junk ++ ds := by rw [data, Xfer.data, hrx]; simp
    rw [← hb, ← hd] at wp
    have all := (call.trans wp).cast (b := x.ticks) (by simp [Xfer.ticks, hrx]; omega)
    have e : View.finish (g.inTxn x .wDoneTx high x.tx.length x.waitDoneTx [] bs ds lg1 sl1) .ok [] =
        v.afterTxn op x rest fs bs ds := by
      cases v with | mk i p c b => 
      cases c; cases b; simp_all [View.afterTxn, View.finish, View.inTxn, g, View.granted, View.release, View.record, lg1, lg, sl1,
        Shared.extend, trailTxn, Xfer.log, Xfer.slots]
    rw [← e]; exact all
  · have wp := write_phase g x (List.replicate x.waitAcceptRx low ++ [high] ++ List.replicate x.waitDoneRx high ++ [low] ++ bs)
      (x.rx ++ ds) lg v.bus.slots
      (g.inTxn x .rxSetup low x.tx.length x.waitDoneTx []
        (List.replicate x.waitAcceptRx low ++ [high] ++ List.replicate x.waitDoneRx high ++ [low] ++ bs) (x.rx ++ ds)
        (lg1 ++ [.nss v.id low]) sl1) fits
      (by
        obtain ⟨k, hk⟩ : ∃ k, x.rx.length = k + 1 := Nat.exists_eq_succ_of_ne_zero (by simpa using hrx)
        simp only [doneTx, View.inTxn, hk]; rfl)
    have rp := read_phase g x x.waitDoneTx bs ds (lg1 ++ [.nss v.id low]) sl1 fits
    have hb : v.c.busyIn = List.replicate x.waitReadyTx high ++ [low] ++ List.replicate x.waitAcceptTx low ++ [high] ++
        List.replicate x.waitDoneTx high ++ [low] ++
        (List.replicate x.waitAcceptRx low ++ [high] ++ List.replicate x.waitDoneRx high ++ [low] ++ bs) := by
      rw [busy, Xfer.busy, if_neg hrx]; simp
    have hd : v.c.dataIn = x.junk ++ (x.rx ++ ds) := by rw [data, Xfer.data]; simp
    rw [← hb, ← hd] at wp
    have all := ((call.trans wp).trans rp).cast (b := x.ticks) (by simp [Xfer.ticks, hrx]; omega)
    have e : View.finish (g.inTxn x .wDoneRx high x.tx.length x.waitDoneRx x.rx bs ds
        (lg1 ++ [.nss v.id low] ++ [.delay v.id (.ms v.params.tCsSetupMs), .nss v.id high, .delay v.id (.ms v.params.tCsHoldMs)])
        (sl1 ++ x.rx.map fun j => ⟨v.id, v.params.readFillByte, j⟩)) .ok x.rx = v.afterTxn op x rest fs bs ds := by
      cases v with | mk i p c b =>
      cases c; cases b; simp_all [View.afterTxn, View.finish, View.inTxn, g, View.granted, View.release, View.record, lg1, lg, sl1,
        Shared.extend, trailTxn, Xfer.log, Xfer.slots]
    rw [← e]; exact all

end Sys2Proof.Machine
end

