-- ==== Sys2Proof/Laws/Operations.lean ====
section
/-! SUPPORT. What each operation does from its start to its end, on the view of its controller, when the environment answers
its transactions; operations that call others cite the lemmas of those. -/

namespace Sys2Proof.Machine

/-! ### Steps of the pseudocode -/

/-- The controller is initialised and runs no transaction, and the bus is free. -/
structure View.Calm (v : View) : Prop where
  phase : v.c.tePhase = .idle
  begun : v.c.begun = true
  nss : v.c.nss = some high
  txBuf : v.c.txBuf = none
  txIdx : v.c.txIdx = none
  rxLen : v.c.rxLen = none
  rxBuf : v.c.rxBuf = none
  pollCnt : v.c.pollCnt = none
  free : v.bus.busOwner = none

/-- The view with `todo` left of the innermost operation. -/
def View.at (v : View) (op : Instr) (todo : List Micro) (fs : List Frame) : View :=
  { v with c := { v.c with stack := ⟨op, todo⟩ :: fs } }

/-- One step of the pseudocode while no transaction runs. -/
theorem tick_step {v : View} {op : Instr} {m : Micro} {rest : List Micro} {fs : List Frame} (phase : v.c.tePhase = .idle)
    (stack : v.c.stack = ⟨op, m :: rest⟩ :: fs) : tick v = microStep v (v.at op rest fs) op m := by
  rw [tick_idle phase]; simp only [tickIdle, stack, View.at]

/-- The end of the pseudocode is `return ok` without a value. -/
theorem tick_end {v : View} {op : Instr} {fs : List Frame} (phase : v.c.tePhase = .idle)
    (stack : v.c.stack = ⟨op, []⟩ :: fs) : tick v = .moved (v.endOp .ok none) := by
  rw [tick_idle phase]; simp only [tickIdle, stack]

/-- A step of the pseudocode is one transition. -/
theorem Reaches.micro {v w : View} {op : Instr} {m : Micro} {rest : List Micro} {fs : List Frame}
    (phase : v.c.tePhase = .idle) (stack : v.c.stack = ⟨op, m :: rest⟩ :: fs)
    (h : microStep v (v.at op rest fs) op m = .moved w) : Reaches 1 v w :=
  Reaches.of_tick ((tick_step phase stack).trans h)

/-- What the end of an operation does, GET_INVENTORY_16_SLOTS apart (60_exceptions.md R271). -/
theorem endOp_eq {v : View} {op : Instr} {todo : List Micro} {fs : List Frame} (stack : v.c.stack = ⟨op, todo⟩ :: fs)
    (ne : op ≠ .getInventory16Slots) (st : Status) (r : Option Result) :
    v.endOp st r = { v with
      c := { v.c with
        stack := fs, op := if fs = [] then none else v.c.op, status := some st, result := r, ret := ⟨st, r⟩ }
      bus := { v.bus with log := v.bus.log ++ [.opEnd v.id st r] } } := by
  simp only [View.endOp, stack, clearInventory, if_neg ne, View.record]

/-! ### Operations as calls -/

/-- The view after a call of operation `i` has ended with `st` and `r`: `n` transactions were made, `TS_FALLBACK` became `fb`,
and the body of the operation appended `body` between its start and its end. -/
def View.did (v : View) (i : Instr) (st : Status) (r : Option Result) (fb : Bool) (n : Nat) (bs : List Level)
    (ds : List Byte) (body : Trail) : View :=
  { v with
    c := { v.c with
      op := if v.c.stack = [] then none else v.c.op, status := some st, result := r, ret := ⟨st, r⟩, tsFallback := fb
      txnCount := v.c.txnCount + n, busyIn := bs, dataIn := ds }
    bus := v.bus.extend (trailOp v.params v.id i st r body) }

/-- With parameters `p`, a call of operation `i` on a calm controller whose environment answers the transactions `xs` ends
with `st` and `r` after `k` transitions; `fb` is what becomes of `TS_FALLBACK`. -/
def Performs (p : Params) (i : Instr) (xs : List Xfer) (st : Status) (r : Option Result) (fb : Bool → Bool)
    (body : Nat → Trail) (k : Nat) : Prop :=
  ∀ (v : View) (bs : List Level) (ds : List Byte), v.params = p → v.Calm → (∀ x ∈ xs, x.Fits p) →
    v.c.busyIn = xs.flatMap Xfer.busy ++ bs → v.c.dataIn = xs.flatMap Xfer.data ++ ds →
    Reaches k (v.startOp i (programOf p i)) (v.did i st r (fb v.c.tsFallback) xs.length bs ds (body v.id))

theorem View.Calm.at {v : View} (calm : v.Calm) (op : Instr) (todo : List Micro) (fs : List Frame) :
    (v.at op todo fs).Calm := by cases calm; constructor <;> assumption

theorem View.Calm.did {v : View} (calm : v.Calm) (i : Instr) (st : Status) (r : Option Result) (fb : Bool) (n : Nat)
    (bs : List Level) (ds : List Byte) (body : Trail) : (v.did i st r fb n bs ds body).Calm := by
  cases calm; constructor <;> assumption

theorem View.Calm.startOp {v : View} (calm : v.Calm) (i : Instr) (prog : List Micro) : (v.startOp i prog).Calm := by
  obtain ⟨h1, h2, h3, h4, h5, h6, h7, h8, h9⟩ := calm
  constructor <;> simp only [View.startOp, View.debug_c, View.record_c, View.debug_busOwner, View.record_busOwner] <;> assumption

/-- What an operation in progress has done so far. -/
structure Progress where
  status : Option Status
  result : Option Result
  ret : Ret
  fallback : Bool
  count : Nat
  busy : List Level
  data : List Byte
  body : Trail

/-- The view of a controller that was `v` when it started `i`, has made the progress `g`, and has `todo` left of `i`. -/
def View.mid (v : View) (i : Instr) (todo : List Micro) (g : Progress) : View :=
  { v with
    c := { v.c with
      stack := ⟨i, todo⟩ :: v.c.stack, status := g.status, result := g.result, ret := g.ret, tsFallback := g.fallback
      txnCount := v.c.txnCount + g.count, busyIn := g.busy, dataIn := g.data }
    bus := v.bus.extend ⟨[.opStart v.id i] ++ g.body.log, g.body.slots,
      traced v.params ⟨v.id, some i, registerAddress i, operandBytes i⟩ ++ g.body.trace⟩ }

/-- The progress of an operation that has just started. -/
def View.begins (v : View) : Progress :=
  ⟨v.c.status, v.c.result, v.c.ret, v.c.tsFallback, 0, v.c.busyIn, v.c.dataIn, .empty⟩

/-- The progress after a sub-operation. -/
def Progress.called (g : Progress) (p : Params) (h : Nat) (j : Instr) (st : Status) (r : Option Result) (fb : Bool → Bool)
    (n : Nat) (bs : List Level) (ds : List Byte) (body : Trail) : Progress :=
  ⟨some st, r, ⟨st, r⟩, fb g.fallback, g.count + n, bs, ds, g.body.append (trailOp p h j st r body)⟩

/-- The progress after a transaction. -/
def Progress.exchanged (g : Progress) (p : Params) (h : Nat) (i : Instr) (x : Xfer) (bs : List Level) (ds : List Byte) :
    Progress :=
  ⟨g.status, g.result, ⟨.ok, some (.bytes x.rx)⟩, g.fallback, g.count + 1, bs, ds, g.body.append (trailTxn p h i x)⟩

theorem View.Calm.mid {v : View} (calm : v.Calm) (i : Instr) (todo : List Micro) (g : Progress) : (v.mid i todo g).Calm := by
  cases calm; constructor <;> assumption

theorem startOp_mid (v : View) (i : Instr) (prog : List Micro) : v.startOp i prog = v.mid i prog v.begins := by
  cases v with | mk h p c b =>
  cases c; cases b
  simp [View.startOp, debug_eq, View.record, View.mid, View.begins, Shared.extend, Trail.empty]

theorem mid_at (v : View) (i : Instr) (todo rest : List Micro) (g : Progress) :
    (v.mid i todo g).at i rest v.c.stack = v.mid i rest g := rfl

theorem mid_did (v : View) (i : Instr) (rest : List Micro) (g : Progress) (j : Instr) (st : Status) (r : Option Result)
    (fb : Bool → Bool) (n : Nat) (bs : List Level) (ds : List Byte) (body : Trail) :
    (v.mid i rest g).did j st r (fb g.fallback) n bs ds body =
      v.mid i rest (g.called v.params v.id j st r fb n bs ds body) := by
  simp [View.mid, View.did, Progress.called, Shared.extend, Trail.append, trailOp, List.append_assoc, Nat.add_assoc]

theorem mid_afterTxn (v : View) (i : Instr) (todo rest : List Micro) (g : Progress) (x : Xfer) (bs : List Level)
    (ds : List Byte) : (v.mid i todo g).afterTxn i x rest v.c.stack bs ds =
      v.mid i rest (g.exchanged v.params v.id i x bs ds) := by
  simp [View.mid, View.afterTxn, Progress.exchanged, Shared.extend, Trail.append, trailTxn, List.append_assoc, Nat.add_assoc]

theorem mid_endOp (v : View) (i : Instr) (todo : List Micro) (g : Progress) (inv : i ≠ .getInventory16Slots) (st : Status)
    (r : Option Result) : (v.mid i todo g).endOp st r = v.did i st r g.fallback g.count g.busy g.data g.body := by
  rw [endOp_eq (op := i) (todo := todo) (fs := v.c.stack) rfl inv]
  simp [View.mid, View.did, Shared.extend, trailOp, List.append_assoc]

/-- A step of the pseudocode of an operation in progress. -/
theorem mid_step {v : View} {i : Instr} {m : Micro} {rest : List Micro} {g : Progress} {w : View} (calm : v.Calm)
    (h : microStep (v.mid i (m :: rest) g) (v.mid i rest g) i m = .moved w) : Reaches 1 (v.mid i (m :: rest) g) w :=
  Reaches.micro (op := i) (fs := v.c.stack) calm.phase rfl (by rw [mid_at]; exact h)

/-- The initialisation check of an initialised controller (41_command_layer.md R152). -/
theorem mid_init {v : View} {i : Instr} {rest : List Micro} {g : Progress} (calm : v.Calm) :
    Reaches 1 (v.mid i (.initCheck :: rest) g) (v.mid i rest g) :=
  mid_step calm (by simp only [microStep, View.mid, calm.begun, if_true])

/-- The range checks of an operation whose arguments are in range (R151). -/
theorem mid_range {v : View} {i : Instr} {rest : List Micro} {g : Progress} (calm : v.Calm)
    (range : rangeOk v.params i = true) : Reaches 1 (v.mid i (.rangeCheck :: rest) g) (v.mid i rest g) :=
  mid_step calm (by simp only [microStep, View.mid, range, if_true])

/-- A transaction followed by `?`, answered by the environment. -/
theorem mid_transaction {v : View} {i : Instr} {rest : List Micro} {g : Progress} {x : Xfer} {tx : List Byte} {n : Nat}
    {bs : List Level} {ds : List Byte} (calm : v.Calm) (carries : x.Carries tx n) (ne : tx ≠ [])
    (busy : g.busy = x.busy ++ bs) (data : g.data = x.data ++ ds) (fits : x.Fits v.params) :
    Reaches (x.ticks + 1) (v.mid i (.transact tx n :: .propagate :: rest) g)
      (v.mid i rest (g.exchanged v.params v.id i x bs ds)) := by
  obtain ⟨rfl, rfl⟩ := carries
  have h := transaction_completes (v.mid i (.transact x.tx x.rx.length :: .propagate :: rest) g) i x (.propagate :: rest)
    v.c.stack bs ds calm.phase rfl ne calm.nss ⟨calm.txBuf, calm.txIdx, calm.rxLen, calm.rxBuf, calm.pollCnt⟩ calm.free busy
    data fits
  rw [mid_afterTxn] at h
  exact h.trans (mid_step calm (by simp only [microStep, View.mid, Progress.exchanged, if_true]))

/-- A call of a sub-operation. -/
theorem mid_call {v : View} {i j : Instr} {rest : List Micro} {g : Progress} {xs : List Xfer} {st : Status}
    {r : Option Result} {fb : Bool → Bool} {body : Nat → Trail} {k : Nat} {bs : List Level} {ds : List Byte}
    (h : Performs v.params j xs st r fb body k) (calm : v.Calm) (fits : ∀ x ∈ xs, x.Fits v.params)
    (busy : g.busy = xs.flatMap Xfer.busy ++ bs) (data : g.data = xs.flatMap Xfer.data ++ ds) :
    Reaches (k + 1) (v.mid i (.call j :: rest) g)
      (v.mid i rest (g.called v.params v.id j st r fb xs.length bs ds (body v.id))) := by
  have h1 : Reaches 1 (v.mid i (.call j :: rest) g) ((v.mid i rest g).startOp j (programOf v.params j)) :=
    mid_step calm rfl
  have h2 := h (v.mid i rest g) bs ds rfl (calm.mid _ _ _) fits busy data
  rw [show (v.mid i rest g).c.tsFallback = g.fallback from rfl, show (v.mid i rest g).id = v.id from rfl, mid_did] at h2
  exact (h1.trans h2).cast (by omega)

/-- A call followed by `?`, of an operation that ends `Ok`. -/
theorem mid_call_ok {v : View} {i j : Instr} {rest : List Micro} {g : Progress} {xs : List Xfer}
    {r : Option Result} {fb : Bool → Bool} {body : Nat → Trail} {k : Nat} {bs : List Level} {ds : List Byte}
    (h : Performs v.params j xs .ok r fb body k) (calm : v.Calm) (fits : ∀ x ∈ xs, x.Fits v.params)
    (busy : g.busy = xs.flatMap Xfer.busy ++ bs) (data : g.data = xs.flatMap Xfer.data ++ ds) :
    Reaches (k + 2) (v.mid i (.call j :: .propagate :: rest) g)
      (v.mid i rest (g.called v.params v.id j .ok r fb xs.length bs ds (body v.id))) :=
  (mid_call h calm fits busy data).trans
    (mid_step calm (by simp only [microStep, View.mid, Progress.called, if_true]))

/-- The end of an operation whose pseudocode ends without a value. -/
theorem mid_end {v : View} {i : Instr} {g : Progress} (calm : v.Calm) (inv : i ≠ .getInventory16Slots) :
    Reaches 1 (v.mid i [] g) (v.did i .ok none g.fallback g.count g.busy g.data g.body) :=
  Reaches.of_tick (by rw [tick_end (v := v.mid i [] g) (op := i) (fs := v.c.stack) calm.phase rfl, mid_endOp v i [] g inv])

/-- The end of an operation by a step that ends it. -/
theorem mid_return {v : View} {i : Instr} {m : Micro} {rest : List Micro} {g : Progress} {st : Status} {r : Option Result}
    (calm : v.Calm) (inv : i ≠ .getInventory16Slots)
    (h : microStep (v.mid i (m :: rest) g) (v.mid i rest g) i m = .moved ((v.mid i rest g).endOp st r)) :
    Reaches 1 (v.mid i (m :: rest) g) (v.did i st r g.fallback g.count g.busy g.data g.body) :=
  mid_step calm (by rw [h, mid_endOp v i rest g inv])

/-- `return ok true`. -/
theorem mid_true {v : View} {i : Instr} {g : Progress} (calm : v.Calm) (inv : i ≠ .getInventory16Slots) :
    Reaches 1 (v.mid i [.returnTrue] g) (v.did i .ok (some (.bool true)) g.fallback g.count g.busy g.data g.body) :=
  mid_return calm inv rfl

/-! ### The operations that make one transaction -/

/-- WRITE_REGISTER, WRITE_REGISTER_OR and WRITE_REGISTER_AND: the checks, one transaction, no value. -/
theorem performs_write {p : Params} {i : Instr} {x : Xfer} {tx : List Byte} {n : Nat}
    (prog : programOf p i = [.initCheck, .rangeCheck, .transact tx n, .propagate]) (range : rangeOk p i = true)
    (inv : i ≠ .getInventory16Slots) (ne : tx ≠ []) (carries : x.Carries tx n) :
    Performs p i [x] .ok none id (fun h => trailTxn p h i x) (x.ticks + 4) := by
  intro v bs ds hp calm fits busy data
  subst hp
  rw [startOp_mid, prog]
  have s1 := mid_init (i := i) (rest := [.rangeCheck, .transact tx n, .propagate]) (g := v.begins) calm
  have s2 := mid_range (i := i) (rest := [.transact tx n, .propagate]) (g := v.begins) calm range
  have s3 := mid_transaction (i := i) (rest := []) (g := v.begins) (bs := bs) (ds := ds) calm carries ne
    (by simpa [View.begins] using busy) (by simpa [View.begins] using data) (fits x (by simp))
  have s4 := mid_end (i := i) (g := v.begins.exchanged v.params v.id i x bs ds) calm inv
  exact (((s1.trans s2).trans s3).trans s4).cast (by omega)

/-- An operation that makes one transaction after both checks and ends with a value in one step. -/
theorem performs_checked {p : Params} {i : Instr} {m : Micro} {x : Xfer} {tx : List Byte} {n : Nat} {r : Option Result}
    (prog : programOf p i = [.initCheck, .rangeCheck, .transact tx n, .propagate, m]) (range : rangeOk p i = true)
    (inv : i ≠ .getInventory16Slots) (ne : tx ≠ []) (carries : x.Carries tx n)
    (last : ∀ v0 v : View, v.c.ret = ⟨.ok, some (.bytes x.rx)⟩ → microStep v0 v i m = .moved (v.endOp .ok r)) :
    Performs p i [x] .ok r id (fun h => trailTxn p h i x) (x.ticks + 4) := by
  intro v bs ds hp calm fits busy data
  subst hp
  rw [startOp_mid, prog]
  have s1 := mid_init (i := i) (rest := [.rangeCheck, .transact tx n, .propagate, m]) (g := v.begins) calm
  have s2 := mid_range (i := i) (rest := [.transact tx n, .propagate, m]) (g := v.begins) calm range
  have s3 := mid_transaction (i := i) (rest := [m]) (g := v.begins) (bs := bs) (ds := ds) calm carries ne
    (by simpa [View.begins] using busy) (by simpa [View.begins] using data) (fits x (by simp))
  have s4 := mid_return (i := i) (m := m) (rest := []) (g := v.begins.exchanged v.params v.id i x bs ds) calm inv
    (last _ _ rfl)
  exact (((s1.trans s2).trans s3).trans s4).cast (by omega)

theorem performs_writeRegister {p : Params} {addr value : Nat} {x : Xfer}
    (range : rangeOk p (.writeRegister addr value) = true)
    (carries : x.Carries (writeRegisterFrame (byteOf addr) (wordOf value)) 0) :
    Performs p (.writeRegister addr value) [x] .ok none id (fun h => trailTxn p h (.writeRegister addr value) x) (x.ticks + 4) :=
  performs_write rfl range (by simp) (by simp [writeRegisterFrame]) carries

theorem performs_writeRegisterOr {p : Params} {addr mask : Nat} {x : Xfer}
    (range : rangeOk p (.writeRegisterOr addr mask) = true)
    (carries : x.Carries (writeRegisterOrFrame (byteOf addr) (wordOf mask)) 0) :
    Performs p (.writeRegisterOr addr mask) [x] .ok none id (fun h => trailTxn p h (.writeRegisterOr addr mask) x) (x.ticks + 4) :=
  performs_write rfl range (by simp) (by simp [writeRegisterOrFrame]) carries

theorem performs_writeRegisterAnd {p : Params} {addr mask : Nat} {x : Xfer}
    (range : rangeOk p (.writeRegisterAnd addr mask) = true)
    (carries : x.Carries (writeRegisterAndFrame (byteOf addr) (wordOf mask)) 0) :
    Performs p (.writeRegisterAnd addr mask) [x] .ok none id (fun h => trailTxn p h (.writeRegisterAnd addr mask) x) (x.ticks + 4) :=
  performs_write rfl range (by simp) (by simp [writeRegisterAndFrame]) carries

theorem performs_transact {p : Params} {x : Xfer} {tx : List Byte} {n : Nat} (ne : tx ≠ []) (carries : x.Carries tx n) :
    Performs p (.transact tx n) [x] .ok (some (.bytes x.rx)) id (fun h => trailTxn p h (.transact tx n) x) (x.ticks + 4) :=
  performs_checked rfl (by simp [rangeOk, Nat.one_le_iff_ne_zero, ne]) (by simp) ne carries
    (by intro v0 v h; simp [microStep, returnBytes, h])

theorem performs_readEeprom {p : Params} {addr len : Nat} {x : Xfer} (range : rangeOk p (.readEeprom addr len) = true)
    (carries : x.Carries (readEepromFrame (byteOf addr) (byteOf len)) len) :
    Performs p (.readEeprom addr len) [x] .ok (some (.bytes x.rx)) id (fun h => trailTxn p h (.readEeprom addr len) x) (x.ticks + 4) :=
  performs_checked rfl range (by simp) (by simp [readEepromFrame]) carries
    (by intro v0 v h; simp [microStep, returnBytes, h])

theorem performs_readData {p : Params} {len : Nat} {x : Xfer} (range : rangeOk p (.readData len) = true)
    (carries : x.Carries readDataFrame len) :
    Performs p (.readData len) [x] .ok (some (.bytes x.rx)) id (fun h => trailTxn p h (.readData len) x) (x.ticks + 4) :=
  performs_checked rfl range (by simp) (by simp [readDataFrame]) carries
    (by intro v0 v h; simp [microStep, returnBytes, h])

theorem performs_loadRfConfig {p : Params} {txConf rxConf : Nat} {x : Xfer}
    (range : rangeOk p (.loadRfConfig txConf rxConf) = true)
    (carries : x.Carries (loadRfConfigFrame (byteOf txConf) (byteOf rxConf)) 0) :
    Performs p (.loadRfConfig txConf rxConf) [x] .ok (some (.bool true)) id
      (fun h => trailTxn p h (.loadRfConfig txConf rxConf) x) (x.ticks + 4) :=
  performs_checked rfl range (by simp) (by simp [loadRfConfigFrame]) carries (by intro v0 v h; rfl)

theorem performs_rfOff {p : Params} {x : Xfer} (carries : x.Carries rfOffFrame 0) :
    Performs p .rfOff [x] .ok (some (.bool true)) id (fun h => trailTxn p h .rfOff x) (x.ticks + 3) := by
  intro v bs ds hp calm fits busy data
  subst hp
  rw [startOp_mid]
  have s1 := mid_init (i := .rfOff) (rest := [.transact rfOffFrame 0, .propagate, .returnTrue]) (g := v.begins) calm
  have s3 := mid_transaction (i := .rfOff) (rest := [.returnTrue]) (g := v.begins) (bs := bs) (ds := ds) calm carries
    (by simp [rfOffFrame]) (by simpa [View.begins] using busy) (by simpa [View.begins] using data) (fits x (by simp))
  have s4 := mid_true (i := .rfOff) (g := v.begins.exchanged v.params v.id .rfOff x bs ds) calm (by simp)
  exact ((s1.trans s3).trans s4).cast (by omega)

/-- The value of the four bytes of a register read (20_memory.md R62). -/
theorem performs_readRegister {p : Params} {addr : Nat} {x : Xfer} (range : rangeOk p (.readRegister addr) = true)
    (carries : x.Carries (readRegisterFrame (byteOf addr)) 4) :
    Performs p (.readRegister addr) [x] .ok (some (.register x.rx (registerValue x.rx))) id
      (fun h => trailTxn p h (.readRegister addr) x) (x.ticks + 4) := by
  obtain ⟨b0, b1, b2, b3, hx⟩ : ∃ b0 b1 b2 b3, x.rx = [b0, b1, b2, b3] := by
    obtain ⟨_, h⟩ := carries
    match x.rx, h with
    | [b0, b1, b2, b3], _ => exact ⟨b0, b1, b2, b3, rfl⟩
  refine performs_checked rfl range (by simp) (by simp [readRegisterFrame]) carries ?_
  intro v0 v h
  simp only [microStep, returnRegister, h, hx, registerValue]

end Sys2Proof.Machine
end

