-- ==== Sys2Proof/Laws/Composites.lean ====
section
/-! SUPPORT. The operations that call others: IRQ status, transceiver state, the re-arm sequence, SEND_DATA, SEND_EOF, RF_ON,
SETUP_RF, each from the lemmas of what it calls. -/

namespace Sys2Proof

/-- The addresses and masks the block itself uses pass their range checks (00_scope.md R9, R10). -/
structure Params.InRange (p : Params) : Prop where
  system : p.regSystemConfig.toNat ≤ p.regAddrMax
  irqStatus : p.regIrqStatus.toNat ≤ p.regAddrMax
  irqClear : p.regIrqClear.toNat ≤ p.regAddrMax
  rxStatus : p.regRxStatus.toNat ≤ p.regAddrMax
  txConfig : p.regTxConfig.toNat ≤ p.regAddrMax
  rfStatus : p.regRfStatus.toNat ≤ p.regAddrMax
  request : 3 ≤ p.maxSendPayload
  broadMask : p.broadIrqMask.toNat < 2 ^ p.regValueBits
  allMask : p.allIrqMask.toNat < 2 ^ p.regValueBits
  idleMask : p.idleAndMask.toNat < 2 ^ p.regValueBits
  armMask : p.transceiveOrMask.toNat < 2 ^ p.regValueBits
  eofMask : p.eofOnlyTxAndMask.toNat < 2 ^ p.regValueBits
  confirmMask : 2 ^ p.rfOnConfirmBit.val < 2 ^ p.regValueBits

theorem Params.inRange {p : Params} (h : p.wf = true) : p.InRange := by
  simp only [Params.wf, Bool.and_eq_true, decide_eq_true_eq] at h
  obtain ⟨_, h⟩ : True ∧ _ := ⟨trivial, h⟩
  constructor <;> first | omega | exact Nat.pow_lt_pow_right (by omega) (by omega)

end Sys2Proof

namespace Sys2Proof.Machine

/-! ### Trails and operand bytes -/

@[simp] theorem Trail.empty_append (t : Trail) : Trail.empty.append t = t := rfl

@[simp] theorem Trail.append_empty (t : Trail) : t.append .empty = t := by simp [Trail.append, Trail.empty]

@[simp] theorem Trail.append_assoc (a b c : Trail) : (a.append b).append c = a.append (b.append c) := by
  simp [Trail.append]

@[simp] theorem Trail.concat_nil : Trail.concat [] = .empty := rfl

@[simp] theorem Trail.concat_cons (t : Trail) (ts : List Trail) : Trail.concat (t :: ts) = t.append (.concat ts) := rfl

@[simp] theorem Trail.concat_append (ts us : List Trail) : Trail.concat (ts ++ us) = (Trail.concat ts).append (.concat us) := by
  induction ts with
  | nil => rfl
  | cons t ts ih => simp [ih]

@[simp] theorem byteOf_toNat (b : Byte) : byteOf b.toNat = b := by simp [byteOf]

@[simp] theorem wordOf_toNat (w : Word) : wordOf w.toNat = w := by simp [wordOf]

theorem wordOf_bitMask (bit : Fin 32) : wordOf (bitMask bit) = 1#32 <<< bit.val := by
  revert bit; decide

/-! ### IRQ status, transceiver state, re-arm -/

theorem performs_getIrqStatus {p : Params} {x : Xfer} (ok : p.InRange) (carries : x.Carries [0x04#8, p.regIrqStatus] 4) :
    Performs p .getIrqStatus [x] .ok (some (.word (registerValue x.rx))) id
      (fun h => trailRead p h p.regIrqStatus.toNat x) (x.ticks + 8) := by
  intro v bs ds hp calm fits busy data
  subst hp
  rw [startOp_mid]
  have s1 := mid_init (i := .getIrqStatus)
    (rest := [.call (.readRegister v.params.regIrqStatus.toNat), .propagate, .returnWord]) (g := v.begins) calm
  have s2 := mid_call_ok (i := .getIrqStatus) (rest := [.returnWord]) (g := v.begins) (bs := bs) (ds := ds)
    (performs_readRegister (p := v.params) (addr := v.params.regIrqStatus.toNat) (x := x) (by simp [rangeOk, ok.irqStatus])
      (by simpa [readRegisterFrame] using carries)) calm fits busy data
  have s3 := mid_return (i := .getIrqStatus) (m := .returnWord) (rest := []) (r := some (.word (registerValue x.rx)))
    (g := v.begins.called v.params v.id (.readRegister v.params.regIrqStatus.toNat) .ok
      (some (.register x.rx (registerValue x.rx))) id 1 bs ds
      (trailTxn v.params v.id (.readRegister v.params.regIrqStatus.toNat) x)) calm (by simp) rfl
  exact ((s1.trans s2).trans s3).cast (by omega)

theorem performs_clearIrqStatus {p : Params} {mask : Nat} {x : Xfer} (ok : p.InRange) (lt : mask < 2 ^ p.regValueBits)
    (carries : x.Carries ([0x00#8, p.regIrqClear] ++ le32 (wordOf mask)) 0) :
    Performs p (.clearIrqStatus mask) [x] .ok none id
      (fun h => trailWrite p h (.writeRegister p.regIrqClear.toNat mask) x) (x.ticks + 9) := by
  intro v bs ds hp calm fits busy data
  subst hp
  rw [startOp_mid]
  have s1 := mid_init (i := .clearIrqStatus mask)
    (rest := [.rangeCheck, .call (.writeRegister v.params.regIrqClear.toNat mask), .propagate]) (g := v.begins) calm
  have s2 := mid_range (i := .clearIrqStatus mask)
    (rest := [.call (.writeRegister v.params.regIrqClear.toNat mask), .propagate]) (g := v.begins) calm (by simp [rangeOk, lt])
  have s3 := mid_call_ok (i := .clearIrqStatus mask) (rest := []) (g := v.begins) (bs := bs) (ds := ds)
    (performs_writeRegister (p := v.params) (addr := v.params.regIrqClear.toNat) (value := mask) (x := x)
      (by simp [rangeOk, ok.irqClear, lt]) (by simpa [writeRegisterFrame] using carries)) calm fits busy data
  have s4 := mid_end (i := .clearIrqStatus mask)
    (g := v.begins.called v.params v.id (.writeRegister v.params.regIrqClear.toNat mask) .ok none id 1 bs ds
      (trailTxn v.params v.id (.writeRegister v.params.regIrqClear.toNat mask) x)) calm (by simp)
  exact (((s1.trans s2).trans s3).trans s4).cast (by omega)

theorem performs_getTransceiveState {p : Params} {x : Xfer} (ok : p.InRange)
    (carries : x.Carries [0x04#8, p.regRfStatus] 4) :
    Performs p .getTransceiveState [x] .ok (some (.transceiver (transceiverOf p (registerValue x.rx)))) (fun _ => false)
      (fun h => trailRead p h p.regRfStatus.toNat x) (x.ticks + 7) := by
  intro v bs ds hp calm fits busy data
  subst hp
  rw [startOp_mid]
  let g := v.begins.called v.params v.id (.readRegister v.params.regRfStatus.toNat) .ok
      (some (.register x.rx (registerValue x.rx))) id 1 bs ds
      (trailTxn v.params v.id (.readRegister v.params.regRfStatus.toNat) x)
  have s1 := mid_init (i := .getTransceiveState)
    (rest := [.call (.readRegister v.params.regRfStatus.toNat), .returnState]) (g := v.begins) calm
  have s2 := mid_call (i := .getTransceiveState) (rest := [.returnState]) (g := v.begins) (bs := bs) (ds := ds)
    (performs_readRegister (p := v.params) (addr := v.params.regRfStatus.toNat) (x := x) (by simp [rangeOk, ok.rfStatus])
      (by simpa [readRegisterFrame] using carries)) calm fits busy data
  have s3 : Reaches 1 (v.mid .getTransceiveState [.returnState] g) _ :=
    mid_step (w := (v.mid .getTransceiveState [] { g with fallback := false }).endOp .ok
      (some (.transceiver (transceiverOf v.params (registerValue x.rx))))) calm rfl
  rw [mid_endOp v .getTransceiveState [] { g with fallback := false } (by simp)] at s3
  exact ((s1.trans s2).trans s3).cast (by omega)

theorem performs_idle {p : Params} {x : Xfer} (ok : p.InRange)
    (carries : x.Carries ([0x02#8, p.regSystemConfig] ++ le32 p.idleAndMask) 0) :
    Performs p (.writeRegisterAnd p.regSystemConfig.toNat p.idleAndMask.toNat) [x] .ok none id
      (fun h => trailTxn p h (.writeRegisterAnd p.regSystemConfig.toNat p.idleAndMask.toNat) x) (x.ticks + 4) :=
  performs_writeRegisterAnd (by simp [rangeOk, ok.system, ok.idleMask]) (by simpa [writeRegisterAndFrame] using carries)

theorem performs_arm {p : Params} {x : Xfer} (ok : p.InRange)
    (carries : x.Carries ([0x01#8, p.regSystemConfig] ++ le32 p.transceiveOrMask) 0) :
    Performs p (.writeRegisterOr p.regSystemConfig.toNat p.transceiveOrMask.toNat) [x] .ok none id
      (fun h => trailTxn p h (.writeRegisterOr p.regSystemConfig.toNat p.transceiveOrMask.toNat) x) (x.ticks + 4) :=
  performs_writeRegisterOr (by simp [rangeOk, ok.system, ok.armMask]) (by simpa [writeRegisterOrFrame] using carries)

/-- The progress after the two writes of the re-arm sequence. -/
def Progress.rearmed (g : Progress) (p : Params) (h : Nat) (idle arm : Xfer) (bs : List Level) (ds : List Byte) : Progress :=
  ⟨some .ok, none, ⟨.ok, none⟩, g.fallback, g.count + 2, bs, ds, g.body.append ((trailIdle p h idle).append (trailArm p h arm))⟩

/-- The re-arm sequence (42_radio_controller.md R207). -/
theorem mid_rearm {v : View} {i : Instr} {rest : List Micro} {g : Progress} {idle arm : Xfer} {bs : List Level}
    {ds : List Byte} (ok : v.params.InRange) (calm : v.Calm) (carries : RearmCarries v.params idle arm)
    (fits : idle.Fits v.params ∧ arm.Fits v.params) (busy : g.busy = idle.busy ++ (arm.busy ++ bs))
    (data : g.data = idle.data ++ (arm.data ++ ds)) :
    Reaches (idle.ticks + arm.ticks + 12) (v.mid i (rearm v.params ++ rest) g)
      (v.mid i rest (g.rearmed v.params v.id idle arm bs ds)) := by
  have s1 := mid_call_ok (i := i)
    (rest := [.call (.writeRegisterOr v.params.regSystemConfig.toNat v.params.transceiveOrMask.toNat), .propagate] ++ rest)
    (g := g) (bs := arm.busy ++ bs) (ds := arm.data ++ ds) (performs_idle ok carries.1) calm (by simpa using fits.1)
    (by simpa using busy) (by simpa using data)
  have s2 := mid_call_ok (i := i) (rest := rest)
    (g := g.called v.params v.id (.writeRegisterAnd v.params.regSystemConfig.toNat v.params.idleAndMask.toNat) .ok none id 1
      (arm.busy ++ bs) (arm.data ++ ds)
      (trailTxn v.params v.id (.writeRegisterAnd v.params.regSystemConfig.toNat v.params.idleAndMask.toNat) idle))
    (bs := bs) (ds := ds) (performs_arm ok carries.2) calm (by simpa using fits.2)
    (by simp [Progress.called]) (by simp [Progress.called])
  have e : (g.called v.params v.id (.writeRegisterAnd v.params.regSystemConfig.toNat v.params.idleAndMask.toNat) .ok none id 1
      (arm.busy ++ bs) (arm.data ++ ds)
      (trailTxn v.params v.id (.writeRegisterAnd v.params.regSystemConfig.toNat v.params.idleAndMask.toNat) idle)).called
      v.params v.id (.writeRegisterOr v.params.regSystemConfig.toNat v.params.transceiveOrMask.toNat) .ok none id 1 bs ds
      (trailTxn v.params v.id (.writeRegisterOr v.params.regSystemConfig.toNat v.params.transceiveOrMask.toNat) arm) =
      g.rearmed v.params v.id idle arm bs ds := by
    simp [Progress.called, Progress.rearmed, trailIdle, trailArm, trailWrite]
  rw [← e]
  exact (s1.trans s2).cast (by omega)

/-! ### SEND_DATA and SEND_EOF -/

/-- The progress after SEND_DATA's state read. -/
def Progress.armed (g : Progress) (p : Params) (h : Nat) (t : SendXfers) (bs : List Level) (ds : List Byte) : Progress :=
  ⟨some .ok, some (.transceiver (transceiverOf p (registerValue t.state.rx))),
    ⟨.ok, some (.transceiver (transceiverOf p (registerValue t.state.rx)))⟩, false, g.count + 3, bs, ds,
    g.body.append (t.armed p h)⟩

/-- SEND_DATA up to its check of the transceiver state (41_command_layer.md R165). -/
theorem mid_armed {v : View} {payload : List Byte} {validBits : Nat} {t : SendXfers} {st : TransceiverState}
    {bs : List Level} {ds : List Byte} (ok : v.params.InRange) (calm : v.Calm)
    (range : rangeOk v.params (.sendData payload validBits) = true) (arms : t.Arms v.params st)
    (fits : ∀ x ∈ [t.idle, t.arm, t.state], x.Fits v.params)
    (busy : v.c.busyIn = [t.idle, t.arm, t.state].flatMap Xfer.busy ++ bs)
    (data : v.c.dataIn = [t.idle, t.arm, t.state].flatMap Xfer.data ++ ds) :
    Reaches (t.idle.ticks + t.arm.ticks + t.state.ticks + 23)
      (v.mid (.sendData payload validBits) (progSendData v.params payload validBits) v.begins)
      (v.mid (.sendData payload validBits)
        [.stateCheck, .transact (sendDataFrame (byteOf validBits) payload) 0, .propagate, .returnTrue]
        (v.begins.armed v.params v.id t bs ds)) := by
  obtain ⟨hre, hst, _⟩ := arms
  have s1 := mid_init (i := .sendData payload validBits)
    (rest := [.rangeCheck] ++ rearm v.params ++ [.call .getTransceiveState, .propagate, .stateCheck,
      .transact (sendDataFrame (byteOf validBits) payload) 0, .propagate, .returnTrue]) (g := v.begins) calm
  have s2 := mid_range (i := .sendData payload validBits)
    (rest := rearm v.params ++ [.call .getTransceiveState, .propagate, .stateCheck,
      .transact (sendDataFrame (byteOf validBits) payload) 0, .propagate, .returnTrue]) (g := v.begins) calm range
  have s3 := mid_rearm (i := .sendData payload validBits) (rest := [.call .getTransceiveState, .propagate, .stateCheck,
      .transact (sendDataFrame (byteOf validBits) payload) 0, .propagate, .returnTrue]) (g := v.begins)
    (bs := t.state.busy ++ bs) (ds := t.state.data ++ ds) ok calm hre ⟨fits _ (by simp), fits _ (by simp)⟩
    (by simpa [View.begins] using busy) (by simpa [View.begins] using data)
  have s4 := mid_call_ok (i := .sendData payload validBits)
    (rest := [.stateCheck, .transact (sendDataFrame (byteOf validBits) payload) 0, .propagate, .returnTrue])
    (g := v.begins.rearmed v.params v.id t.idle t.arm (t.state.busy ++ bs) (t.state.data ++ ds)) (bs := bs) (ds := ds)
    (performs_getTransceiveState ok hst) calm (by simpa using fits t.state (by simp))
    (by simp [Progress.rearmed]) (by simp [Progress.rearmed])
  have e : (v.begins.rearmed v.params v.id t.idle t.arm (t.state.busy ++ bs) (t.state.data ++ ds)).called v.params v.id
      .getTransceiveState .ok (some (.transceiver (transceiverOf v.params (registerValue t.state.rx)))) (fun _ => false) 1
      bs ds (trailRead v.params v.id v.params.regRfStatus.toNat t.state) = v.begins.armed v.params v.id t bs ds := by
    simp [Progress.called, Progress.rearmed, Progress.armed, SendXfers.armed, trailStateRead]
  rw [← e]
  exact (((s1.trans s2).trans s3).trans s4).cast (by omega)

theorem performs_sendData {p : Params} {payload : List Byte} {validBits : Nat} {t : SendXfers} (ok : p.InRange)
    (range : rangeOk p (.sendData payload validBits) = true) (sends : t.Sends p (byteOf validBits) payload) :
    Performs p (.sendData payload validBits) t.all .ok (some (.bool true)) (fun _ => false)
      (fun h => (t.armed p h).append (trailTxn p h (.sendData payload validBits) t.frame))
      (t.idle.ticks + t.arm.ticks + t.state.ticks + t.frame.ticks + 26) := by
  intro v bs ds hp calm fits busy data
  subst hp
  rw [startOp_mid]
  obtain ⟨arms, hfr⟩ := sends
  let g := v.begins.armed v.params v.id t (t.frame.busy ++ bs) (t.frame.data ++ ds)
  have s1 := mid_armed (bs := t.frame.busy ++ bs) (ds := t.frame.data ++ ds) ok calm range arms
    (fun x hx => fits x (by simp [SendXfers.all] at hx ⊢; tauto)) (by simpa [SendXfers.all] using busy)
    (by simpa [SendXfers.all] using data)
  have hwt : g.ret = ⟨.ok, some (.transceiver .waitTransmit)⟩ := by
    simp only [g, Progress.armed, arms.2.2]
  have s2 : Reaches 1 (v.mid (.sendData payload validBits)
        [.stateCheck, .transact (sendDataFrame (byteOf validBits) payload) 0, .propagate, .returnTrue] g)
      (v.mid (.sendData payload validBits) [.transact (sendDataFrame (byteOf validBits) payload) 0, .propagate, .returnTrue] g) :=
    mid_step calm (by
      simp only [microStep, stateCheck]
      rw [show (v.mid (.sendData payload validBits) [.transact (sendDataFrame (byteOf validBits) payload) 0, .propagate,
        .returnTrue] g).c.ret = _ from hwt]
      rfl)
  have s3 := mid_transaction (i := .sendData payload validBits) (rest := [.returnTrue]) (g := g) (bs := bs) (ds := ds) calm hfr
    (by simp) rfl rfl (fits t.frame (by simp [SendXfers.all]))
  have s4 := mid_true (i := .sendData payload validBits) (g := g.exchanged v.params v.id (.sendData payload validBits) t.frame bs ds)
    calm (by simp)
  exact (((s1.trans s2).trans s3).trans s4).cast (by omega)

theorem performs_sendEof {p : Params} {t : SendXfers} (ok : p.InRange) (sends : t.Sends p 0x00#8 []) :
    Performs p .sendEof t.all .ok (some (.bool true)) (fun _ => false) (fun h => t.trail p h [] 0)
      (t.idle.ticks + t.arm.ticks + t.state.ticks + t.frame.ticks + 30) := by
  intro v bs ds hp calm fits busy data
  subst hp
  rw [startOp_mid]
  have s1 := mid_init (i := .sendEof) (rest := [.call (.sendData [] 0), .propagate, .returnTrue]) (g := v.begins) calm
  have s2 := mid_call_ok (i := .sendEof) (rest := [.returnTrue]) (g := v.begins) (bs := bs) (ds := ds)
    (performs_sendData ok (payload := []) (validBits := 0) (by simp [rangeOk]) sends) calm fits busy data
  have s3 := mid_true (i := .sendEof) (g := v.begins.called v.params v.id (.sendData [] 0) .ok (some (.bool true))
      (fun _ => false) t.all.length bs ds
      ((t.armed v.params v.id).append (trailTxn v.params v.id (.sendData [] 0) t.frame))) calm (by simp)
  have h := ((s1.trans s2).trans s3).cast
    (b := t.idle.ticks + t.arm.ticks + t.state.ticks + t.frame.ticks + 30) (by omega)
  simpa [Progress.called, View.begins, SendXfers.trail, trailTrue, programOf, progSendEof] using h

/-! ### IRQ waits, RF_ON, SETUP_RF -/

/-- The progress after reads of IRQ status, `hit` the last. -/
def Progress.polled (g : Progress) (p : Params) (h : Nat) (misses : List Xfer) (hit : Xfer) (bs : List Level)
    (ds : List Byte) : Progress :=
  ⟨some .ok, some (.word (registerValue hit.rx)), ⟨.ok, some (.word (registerValue hit.rx))⟩, g.fallback,
    g.count + (misses.length + 1), bs, ds, g.body.append (.concat (misses.map (trailIrqRead p h) ++ [trailIrqRead p h hit]))⟩

/-- The transitions of an IRQ wait. -/
def waitTicks (misses : List Xfer) (hit : Xfer) : Nat := (misses.map fun x => x.ticks + 12).sum + hit.ticks + 12

/-- One read of an IRQ wait, up to its test. -/
theorem mid_irq_read {v : View} {i : Instr} {rest : List Micro} {g : Progress} {bit : Fin 32} {stage : WaitStage} {k : Nat}
    {x : Xfer} {bs : List Level} {ds : List Byte} (ok : v.params.InRange) (calm : v.Calm)
    (carries : x.Carries [0x04#8, v.params.regIrqStatus] 4) (fits : x.Fits v.params) (busy : g.busy = x.busy ++ bs)
    (data : g.data = x.data ++ ds) :
    Reaches (x.ticks + 11) (v.mid i (.irqPoll bit stage k :: rest) g)
      (v.mid i (.irqTest bit stage k :: rest) (g.polled v.params v.id [] x bs ds)) := by
  have s1 : Reaches 1 (v.mid i (.irqPoll bit stage k :: rest) g)
      (v.mid i (.call .getIrqStatus :: .propagate :: .irqTest bit stage k :: rest) g) := mid_step calm rfl
  have s2 := mid_call_ok (i := i) (rest := .irqTest bit stage k :: rest) (g := g) (bs := bs) (ds := ds)
    (performs_getIrqStatus ok carries) calm (by simpa using fits) (by simpa using busy) (by simpa using data)
  have e : g.called v.params v.id .getIrqStatus .ok (some (.word (registerValue x.rx))) id 1 bs ds
      (trailRead v.params v.id v.params.regIrqStatus.toNat x) = g.polled v.params v.id [] x bs ds := by
    simp [Progress.called, Progress.polled, trailIrqRead]
  rw [← e]
  exact (s1.trans s2).cast (by omega)

/-- An IRQ wait that ends with the bit seen set (41_command_layer.md R167; 42_radio_controller.md R202). -/
theorem mid_irq_wait {v : View} {i : Instr} {rest : List Micro} {bit : Fin 32} {stage : WaitStage} {hit : Xfer}
    {bs : List Level} {ds : List Byte} (ok : v.params.InRange) (calm : v.Calm) (last : IrqReads v.params bit true hit)
    (fit : hit.Fits v.params) :
    ∀ (misses : List Xfer) (g : Progress) (k : Nat), (∀ x ∈ misses, IrqReads v.params bit false x) →
      (∀ x ∈ misses, x.Fits v.params) → limitReached (irqLimit v.params stage) (k + misses.length) = false →
      g.busy = misses.flatMap Xfer.busy ++ (hit.busy ++ bs) → g.data = misses.flatMap Xfer.data ++ (hit.data ++ ds) →
      Reaches (waitTicks misses hit) (v.mid i (.irqPoll bit stage k :: rest) g)
        (v.mid i rest (g.polled v.params v.id misses hit bs ds))
  | [], g, k, _, _, _, hb, hd => by
    have s1 := mid_irq_read (i := i) (rest := rest) (bit := bit) (stage := stage) (k := k) (g := g) (bs := bs) (ds := ds) ok calm
      last.1 fit (by simpa using hb) (by simpa using hd)
    have s2 : Reaches 1 (v.mid i (.irqTest bit stage k :: rest) (g.polled v.params v.id [] hit bs ds))
        (v.mid i rest (g.polled v.params v.id [] hit bs ds)) := mid_step calm (by
      simp only [microStep, irqTest]
      rw [show (v.mid i rest (g.polled v.params v.id [] hit bs ds)).c.ret = ⟨.ok, some (.word (registerValue hit.rx))⟩ from rfl]
      simp only [bitSet, last.2, if_true])
    exact (s1.trans s2).cast (by simp [waitTicks])
  | x :: misses, g, k, hm, hf, hl, hb, hd => by
    have hx := hm x (by simp)
    have s1 := mid_irq_read (i := i) (rest := rest) (bit := bit) (stage := stage) (k := k) (g := g)
      (bs := misses.flatMap Xfer.busy ++ (hit.busy ++ bs)) (ds := misses.flatMap Xfer.data ++ (hit.data ++ ds)) ok calm
      hx.1 (hf x (by simp)) (by simpa using hb) (by simpa using hd)
    let g1 := g.polled v.params v.id [] x (misses.flatMap Xfer.busy ++ (hit.busy ++ bs))
      (misses.flatMap Xfer.data ++ (hit.data ++ ds))
    have hl1 : limitReached (irqLimit v.params stage) (k + 1) = false := limitReached_mono hl (by simp)
    have s2 : Reaches 1 (v.mid i (.irqTest bit stage k :: rest) g1) (v.mid i (.irqPoll bit stage (k + 1) :: rest) g1) :=
      mid_step calm (by
        simp only [microStep, irqTest]
        rw [show (v.mid i rest g1).c.ret = ⟨.ok, some (.word (registerValue x.rx))⟩ from rfl]
        rw [show (v.mid i rest g1).params = v.params from rfl]
        simp only [bitSet, hx.2, hl1]
        rfl)
    have s3 := mid_irq_wait (i := i) (rest := rest) ok calm last fit misses g1 (k + 1) (fun y hy => hm y (by simp [hy]))
      (fun y hy => hf y (by simp [hy])) (by rw [← hl]; congr 1; simp; omega) rfl rfl
    have e : g1.polled v.params v.id misses hit bs ds = g.polled v.params v.id (x :: misses) hit bs ds := by
      simp [g1, Progress.polled]; omega
    rw [e] at s3
    exact ((s1.trans s2).trans s3).cast (by simp [waitTicks]; omega)

/-- The transitions of RF_ON. -/
def RfOnXfers.ticks (t : RfOnXfers) : Nat := t.frame.ticks + waitTicks t.misses t.hit + t.clear.ticks + 14

theorem performs_rfOn {p : Params} {t : RfOnXfers} (ok : p.InRange) (confirms : t.Confirms p) :
    Performs p .rfOn t.all .ok (some (.bool true)) id
      (fun h => .concat ([trailTxn p h .rfOn t.frame] ++ t.misses.map (trailIrqRead p h) ++
        [trailIrqRead p h t.hit, trailClear p h (2 ^ p.rfOnConfirmBit.val) t.clear])) t.ticks := by
  intro v bs ds hp calm fits busy data
  subst hp
  obtain ⟨hfr, hm, hl, hh, hc⟩ := confirms
  rw [startOp_mid]
  have hpow : 2 ^ v.params.rfOnConfirmBit.val < 2 ^ v.params.regValueBits := ok.confirmMask
  have s1 := mid_init (i := .rfOn) (rest := [.transact rfOnFrame 0, .propagate, .irqPoll v.params.rfOnConfirmBit .wRfOn 0,
    .call (.clearIrqStatus (bitMask v.params.rfOnConfirmBit)), .propagate, .returnTrue]) (g := v.begins) calm
  have s2 := mid_transaction (i := .rfOn) (rest := [.irqPoll v.params.rfOnConfirmBit .wRfOn 0,
    .call (.clearIrqStatus (bitMask v.params.rfOnConfirmBit)), .propagate, .returnTrue]) (g := v.begins) (x := t.frame)
    (bs := t.misses.flatMap Xfer.busy ++ (t.hit.busy ++ (t.clear.busy ++ bs)))
    (ds := t.misses.flatMap Xfer.data ++ (t.hit.data ++ (t.clear.data ++ ds))) calm hfr (by simp)
    (by simpa [View.begins, RfOnXfers.all] using busy) (by simpa [View.begins, RfOnXfers.all] using data)
    (fits t.frame (by simp [RfOnXfers.all]))
  let g1 := v.begins.exchanged v.params v.id .rfOn t.frame (t.misses.flatMap Xfer.busy ++ (t.hit.busy ++ (t.clear.busy ++ bs)))
    (t.misses.flatMap Xfer.data ++ (t.hit.data ++ (t.clear.data ++ ds)))
  have s3 := mid_irq_wait (i := .rfOn) (rest := [.call (.clearIrqStatus (bitMask v.params.rfOnConfirmBit)), .propagate,
    .returnTrue]) (stage := .wRfOn) (bs := t.clear.busy ++ bs) (ds := t.clear.data ++ ds) ok calm hh
    (fits t.hit (by simp [RfOnXfers.all])) t.misses g1 0 hm (fun x hx => fits x (by simp [RfOnXfers.all, hx]))
    (by simpa [irqLimit] using hl) rfl rfl
  let g2 := g1.polled v.params v.id t.misses t.hit (t.clear.busy ++ bs) (t.clear.data ++ ds)
  have s4 := mid_call_ok (i := .rfOn) (rest := [.returnTrue]) (g := g2) (bs := bs) (ds := ds)
    (performs_clearIrqStatus (mask := bitMask v.params.rfOnConfirmBit) (x := t.clear) ok (by simpa [bitMask] using hpow)
      (by rw [wordOf_bitMask]; exact hc)) calm (by simpa using fits t.clear (by simp [RfOnXfers.all]))
    (by simp [g2, Progress.polled]) (by simp [g2, Progress.polled])
  have s5 := mid_true (i := .rfOn) (g := g2.called v.params v.id (.clearIrqStatus (bitMask v.params.rfOnConfirmBit)) .ok none id
    1 bs ds (trailWrite v.params v.id (.writeRegister v.params.regIrqClear.toNat (bitMask v.params.rfOnConfirmBit)) t.clear))
    calm (by simp)
  have h := ((((s1.trans s2).trans s3).trans s4).trans s5).cast (b := t.ticks) (by simp [RfOnXfers.ticks]; omega)
  have hn : 0 + 1 + (t.misses.length + 1) + 1 = t.all.length := by simp [RfOnXfers.all]; omega
  simpa [Progress.called, Progress.polled, Progress.exchanged, View.begins, programOf, progRfOn, g1, g2, hn, bitMask,
    trailClear] using h

/-- The transitions of SETUP_RF. -/
def SetupXfers.ticks (t : SetupXfers) : Nat := t.off.ticks + t.load.ticks + t.on.ticks + t.idle.ticks + t.arm.ticks + 27

theorem performs_setupRf {p : Params} {t : SetupXfers} (ok : p.InRange) (sets : t.Sets p) :
    Performs p .setupRf t.all .ok (some (.bool true)) id
      (fun h => .concat
        [trailTrue p h .rfOff (trailTxn p h .rfOff t.off),
          trailTrue p h (.loadRfConfig p.iso15693TxConf.toNat p.iso15693RxConf.toNat)
            (trailTxn p h (.loadRfConfig p.iso15693TxConf.toNat p.iso15693RxConf.toNat) t.load),
          t.on.trail p h, trailIdle p h t.idle, trailArm p h t.arm]) t.ticks := by
  intro v bs ds hp calm fits busy data
  subst hp
  obtain ⟨hoff, hload, hon, hre⟩ := sets
  rw [startOp_mid]
  let bs2 := t.idle.busy ++ (t.arm.busy ++ bs)
  let ds2 := t.idle.data ++ (t.arm.data ++ ds)
  let bs1 := t.on.all.flatMap Xfer.busy ++ bs2
  let ds1 := t.on.all.flatMap Xfer.data ++ ds2
  let load := Instr.loadRfConfig v.params.iso15693TxConf.toNat v.params.iso15693RxConf.toNat
  have s1 := mid_init (i := .setupRf) (rest := [.call .rfOff, .propagate, .call load, .propagate, .call .rfOn, .propagate] ++
    rearm v.params ++ [.returnTrue]) (g := v.begins) calm
  have s2 := mid_call_ok (i := .setupRf) (rest := [.call load, .propagate, .call .rfOn, .propagate] ++
    rearm v.params ++ [.returnTrue]) (g := v.begins) (bs := t.load.busy ++ bs1) (ds := t.load.data ++ ds1)
    (performs_rfOff hoff) calm (by simpa using fits t.off (by simp [SetupXfers.all]))
    (by simpa [View.begins, SetupXfers.all, bs1, bs2] using busy) (by simpa [View.begins, SetupXfers.all, ds1, ds2] using data)
  let g1 := v.begins.called v.params v.id .rfOff .ok (some (.bool true)) id 1 (t.load.busy ++ bs1) (t.load.data ++ ds1)
    (trailTxn v.params v.id .rfOff t.off)
  have s3 := mid_call_ok (i := .setupRf) (rest := [.call .rfOn, .propagate] ++ rearm v.params ++ [.returnTrue]) (g := g1)
    (bs := bs1) (ds := ds1)
    (performs_loadRfConfig (p := v.params) (txConf := v.params.iso15693TxConf.toNat) (rxConf := v.params.iso15693RxConf.toNat)
      (x := t.load) (by simp [rangeOk]; omega) (by simpa [loadRfConfigFrame] using hload)) calm
    (by simpa using fits t.load (by simp [SetupXfers.all])) (by simp [g1, Progress.called]) (by simp [g1, Progress.called])
  let g2 := g1.called v.params v.id load .ok (some (.bool true)) id 1 bs1 ds1 (trailTxn v.params v.id load t.load)
  have s4 := mid_call_ok (i := .setupRf) (rest := rearm v.params ++ [.returnTrue]) (g := g2) (bs := bs2) (ds := ds2)
    (performs_rfOn ok hon) calm (fun x hx => fits x (by simp [SetupXfers.all, hx])) rfl rfl
  let g3 := g2.called v.params v.id .rfOn .ok (some (.bool true)) id t.on.all.length bs2 ds2
    (.concat ([trailTxn v.params v.id .rfOn t.on.frame] ++ t.on.misses.map (trailIrqRead v.params v.id) ++
      [trailIrqRead v.params v.id t.on.hit, trailClear v.params v.id (2 ^ v.params.rfOnConfirmBit.val) t.on.clear]))
  have s5 := mid_rearm (i := .setupRf) (rest := [.returnTrue]) (g := g3) (bs := bs) (ds := ds) ok calm hre
    ⟨fits _ (by simp [SetupXfers.all]), fits _ (by simp [SetupXfers.all])⟩ rfl rfl
  have s6 := mid_true (i := .setupRf) (g := g3.rearmed v.params v.id t.idle t.arm bs ds) calm (by simp)
  have h := (((((s1.trans s2).trans s3).trans s4).trans s5).trans s6).cast (b := t.ticks) (by simp [SetupXfers.ticks]; omega)
  have hn : 0 + 1 + 1 + t.on.all.length + 2 = t.all.length := by simp [SetupXfers.all]; omega
  simpa [Progress.called, Progress.rearmed, View.begins, programOf, progSetupRf, g1, g2, g3, hn, load, trailTrue,
    RfOnXfers.trail] using h

end Sys2Proof.Machine
end

