-- ==== Sys2Proof/Laws/Encoding.lean ====
section
/-! SUPPORT. The two directions of the byte order (20_memory.md R62): the value of the four bytes of a word is the word, and the
four bytes of a value are its digits to the base 256. -/

namespace Sys2Proof

/-- `from_le32(le32(v)) = v`, the bytes taken apart. -/
theorem fromLe32_bytes (v : Word) :
    fromLe32 (v.extractLsb' 0 8) (v.extractLsb' 8 8) (v.extractLsb' 16 8) (v.extractLsb' 24 8) = v := by
  apply BitVec.eq_of_getLsbD_eq
  intro i hi
  simp only [fromLe32, BitVec.getLsbD_or, BitVec.getLsbD_shiftLeft, BitVec.truncate_eq_setWidth, BitVec.getLsbD_setWidth,
    BitVec.getLsbD_extractLsb']
  rcases (show i < 8 ∨ (8 ≤ i ∧ i < 16) ∨ (16 ≤ i ∧ i < 24) ∨ (24 ≤ i ∧ i < 32) by omega) with h | ⟨h1, h2⟩ | ⟨h1, h2⟩ | ⟨h1, h2⟩
  · simp [h, hi, show i < 16 by omega, show i < 24 by omega]
  · simp [hi, show ¬ i < 8 by omega, show i < 16 by omega, show i < 24 by omega, show i - 8 < 8 by omega,
      show i - 8 < 32 by omega, show 8 + (i - 8) = i by omega]
  · simp [hi, show ¬ i < 8 by omega, show ¬ i < 16 by omega, show i < 24 by omega, show i - 16 < 8 by omega,
      show i - 16 < 32 by omega, show 16 + (i - 16) = i by omega, show ¬ (i - 8 < 8) by omega]
  · simp [hi, show ¬ i < 8 by omega, show ¬ i < 16 by omega, show ¬ i < 24 by omega, show i - 24 < 8 by omega,
      show i - 24 < 32 by omega, show 24 + (i - 24) = i by omega, show ¬ (i - 8 < 8) by omega, show ¬ (i - 16 < 8) by omega]

/-- The value of four bytes. -/
theorem fromLe32_toNat (b0 b1 b2 b3 : Byte) :
    (fromLe32 b0 b1 b2 b3).toNat = b0.toNat + 256 * b1.toNat + 65536 * b2.toNat + 16777216 * b3.toNat := by
  have e : fromLe32 b0 b1 b2 b3 = b3 ++ b2 ++ b1 ++ b0 := by
    apply BitVec.eq_of_getLsbD_eq
    intro i hi
    simp only [fromLe32, BitVec.getLsbD_or, BitVec.getLsbD_shiftLeft, BitVec.truncate_eq_setWidth, BitVec.getLsbD_setWidth,
      BitVec.getLsbD_append]
    rcases (show i < 8 ∨ (8 ≤ i ∧ i < 16) ∨ (16 ≤ i ∧ i < 24) ∨ (24 ≤ i ∧ i < 32) by omega) with
      h | ⟨h1, h2⟩ | ⟨h1, h2⟩ | ⟨h1, h2⟩
    · simp [h, hi, show i < 16 by omega, show i < 24 by omega]
    · simp [hi, BitVec.getLsbD_of_ge b0 i h1, show ¬ i < 8 by omega, show i < 16 by omega, show i < 24 by omega,
        show i - 8 < 8 by omega, show i - 8 < 32 by omega]
    · simp [hi, BitVec.getLsbD_of_ge b0 i (by omega), BitVec.getLsbD_of_ge b1 (i - 8) (by omega), show ¬ i < 8 by omega,
        show ¬ i < 16 by omega, show i < 24 by omega, show i - 16 < 32 by omega, show ¬ (i - 8 < 8) by omega,
        show i - 8 - 8 = i - 16 by omega, show i - 16 < 8 by omega]
    · simp [hi, BitVec.getLsbD_of_ge b0 i (by omega), BitVec.getLsbD_of_ge b1 (i - 8) (by omega),
        BitVec.getLsbD_of_ge b2 (i - 16) (by omega), show ¬ i < 8 by omega, show ¬ i < 16 by omega, show ¬ i < 24 by omega,
        show i - 24 < 32 by omega, show ¬ (i - 8 < 8) by omega, show ¬ (i - 16 < 8) by omega,
        show i - 8 - 8 = i - 16 by omega, show i - 16 - 8 = i - 24 by omega]
  have h0 := b0.isLt
  have h1 := b1.isLt
  have h2 := b2.isLt
  have h3 := b3.isLt
  rw [e]
  simp only [BitVec.toNat_append]
  rw [← Nat.shiftLeft_add_eq_or_of_lt h0, ← Nat.shiftLeft_add_eq_or_of_lt h1, ← Nat.shiftLeft_add_eq_or_of_lt h2]
  simp only [Nat.shiftLeft_eq]; omega

end Sys2Proof
end

