-- ==== Sys2Proof/Laws/InventoryPass.lean ====
section
/-! SUPPORT. Operations that end with an error on an initialised controller, and a whole pass of GET_INVENTORY_16_SLOTS. -/

namespace Sys2Proof.Machine

/-! ### Errors -/

/-- `raise` at a step of an operation other than GET_INVENTORY_16_SLOTS (60_exceptions.md R271). -/
theorem mid_raise {v : View} {i : Instr} {m : Micro} {rest : List Micro} {g : Progress} {e : Status}
    (calm : v.Calm) (inv : i ≠ .getInventory16Slots)
    (h : microStep (v.mid i (m :: rest) g) (v.mid i rest g) i m = .moved ((v.mid i rest g).raise e)) :
    Reaches 1 (v.mid i (m :: rest) g) (v.did i e (failureResult i) g.fallback g.count g.busy g.data g.body) :=
  mid_return calm inv (by rw [h]; rfl)

/-- An argument out of range: no transaction (41_command_layer.md R151). -/
theorem performs_rangeError {p : Params} {i : Instr} {rest : List Micro} (prog : programOf p i = .initCheck :: .rangeCheck :: rest)
    (range : rangeOk p i = false) (inv : i ≠ .getInventory16Slots) :
    Performs p i [] .rangeError (failureResult i) id (fun _ => .empty) 2 := by
  intro v bs ds hp calm _ busy data
  subst hp
  rw [startOp_mid, prog]
  have s1 := mid_init (i := i) (rest := .rangeCheck :: rest) (g := v.begins) calm
  have s2 := mid_raise (i := i) (m := .rangeCheck) (rest := rest) (g := v.begins) (e := .rangeError) calm inv
    (by simp [microStep, View.mid, range])
  have h := s1.trans s2
  simpa [View.begins, busy, data] using h

/-- A state read that does not give WaitTransmit: the payload is not sent (R165). -/
theorem performs_sendData_sequenceError {p : Params} {payload : List Byte} {validBits : Nat} {t : SendXfers}
    {st : TransceiverState} (ok : p.InRange) (range : rangeOk p (.sendData payload validBits) = true) (arms : t.Arms p st)
    (ne : st ≠ .waitTransmit) :
    Performs p (.sendData payload validBits) [t.idle, t.arm, t.state] .sequenceError (some (.bool false)) (fun _ => false)
      (fun h => t.armed p h) (t.idle.ticks + t.arm.ticks + t.state.ticks + 24) := by
  intro v bs ds hp calm fits busy data
  subst hp
  rw [startOp_mid]
  let g := v.begins.armed v.params v.id t bs ds
  have s1 := mid_armed (bs := bs) (ds := ds) ok calm range arms fits busy data
  have hst : g.ret = ⟨.ok, some (.transceiver st)⟩ := by simp only [g, Progress.armed, arms.2.2]
  have s2 := mid_raise (i := .sendData payload validBits) (m := .stateCheck)
    (rest := [.transact (sendDataFrame (byteOf validBits) payload) 0, .propagate, .returnTrue]) (g := g) (e := .sequenceError)
    calm (by simp) (by
      simp only [microStep, stateCheck]
      rw [show (v.mid (.sendData payload validBits) [.transact (sendDataFrame (byteOf validBits) payload) 0, .propagate,
        .returnTrue] g).c.ret = _ from hst]
      simp only [if_neg ne]
      rfl)
  exact (s1.trans s2).cast (by omega)

theorem performs_sendEof_sequenceError {p : Params} {t : SendXfers} {st : TransceiverState} (ok : p.InRange)
    (arms : t.Arms p st) (ne : st ≠ .waitTransmit) :
    Performs p .sendEof [t.idle, t.arm, t.state] .sequenceError (some (.bool false)) (fun _ => false)
      (fun h => t.refusedTrail p h [] 0) (t.idle.ticks + t.arm.ticks + t.state.ticks + 27) := by
  intro v bs ds hp calm fits busy data
  subst hp
  rw [startOp_mid]
  have s1 := mid_init (i := .sendEof) (rest := [.call (.sendData [] 0), .propagate, .returnTrue]) (g := v.begins) calm
  have s2 := mid_call (i := .sendEof) (rest := [.propagate, .returnTrue]) (g := v.begins) (bs := bs) (ds := ds)
    (performs_sendData_sequenceError ok (payload := []) (validBits := 0) (by simp [rangeOk]) arms ne) calm fits busy data
  have s3 := mid_raise (i := .sendEof) (m := .propagate) (rest := [.returnTrue]) (e := .sequenceError)
    (g := v.begins.called v.params v.id (.sendData [] 0) .sequenceError (some (.bool false)) (fun _ => false) 3 bs ds
      (t.armed v.params v.id)) calm (by simp) rfl
  have h := ((s1.trans s2).trans s3).cast (b := t.idle.ticks + t.arm.ticks + t.state.ticks + 27) (by omega)
  simpa [Progress.called, View.begins, SendXfers.refusedTrail, programOf, progSendEof, failureResult, returnsBool] using h

/-! ### The inventory -/

/-- The view with the inventory registers at these values. -/
def View.inv (v : View) (ph : InvPhase) (slot count : Option Nat) (frames : Option (List (List Byte))) : View :=
  { v with c := { v.c with invPhase := ph, invSlot := slot, invCount := count, invFrames := frames } }

theorem View.Calm.inv {v : View} (calm : v.Calm) (ph : InvPhase) (slot count : Option Nat)
    (frames : Option (List (List Byte))) : (v.inv ph slot count frames).Calm := by
  cases calm; constructor <;> assumption

/-- The instruction whose pass this file follows. -/
abbrev pass : Instr := .getInventory16Slots

section
variable {v : View} {rest : List Micro} {g : Progress} {ph : InvPhase} {slot count : Option Nat}
  {frames : Option (List (List Byte))}

theorem inv_phase (calm : v.Calm) (ph' : InvPhase) :
    Reaches 1 ((v.inv ph slot count frames).mid pass (.invPhase ph' :: rest) g)
      ((v.inv ph' slot count frames).mid pass rest g) :=
  mid_step (calm.inv _ _ _ _) rfl

end

/-- The transitions of SEND_EOF in a slot. -/
def SendXfers.eofTicks (p : Params) (t : SendXfers) : Nat :=
  t.idle.ticks + t.arm.ticks + t.state.ticks + (if t.ready p then t.frame.ticks + 30 else 27)

/-- SEND_EOF of a slot, sent or not. -/
theorem performs_slotEof {p : Params} {t : SlotXfers} (ok : p.InRange) (re : RearmCarries p t.eof.idle t.eof.arm)
    (st : t.eof.state.Carries [0x04#8, p.regRfStatus] 4)
    (fr : t.eof.ready p = true → t.eof.frame.Carries [0x09#8, 0x00#8] 0) :
    ∃ body : Nat → Trail, Performs p .sendEof (t.eof.made p) (if t.eof.ready p then .ok else .sequenceError)
      (some (.bool (t.eof.ready p))) (fun _ => false) body (t.eof.eofTicks p) ∧
      ∀ h, trailOp p h .sendEof (if t.eof.ready p then .ok else .sequenceError) (some (.bool (t.eof.ready p))) (body h) =
        t.eofTrail p h := by
  cases hr : t.eof.ready p with
  | true =>
    refine ⟨fun h => t.eof.trail p h [] 0, ?_, fun h => by simp [SlotXfers.eofTrail, hr, SendXfers.eof, trailTrue]⟩
    have h := performs_sendEof (t := t.eof) ok ⟨⟨re, st, by simpa [SendXfers.ready] using hr⟩, by simpa using fr hr⟩
    simpa [SendXfers.made, SendXfers.all, hr, SendXfers.eofTicks, Nat.add_assoc] using h
  | false =>
    refine ⟨fun h => t.eof.refusedTrail p h [] 0, ?_, fun h => by simp [SlotXfers.eofTrail, hr]⟩
    have h := performs_sendEof_sequenceError (t := t.eof) ok ⟨re, st, rfl⟩ (by simpa [SendXfers.ready] using hr)
    simpa [SendXfers.made, hr, SendXfers.eofTicks] using h

/-- The transitions of a slot. -/
def SlotXfers.ticks (p : Params) (t : SlotXfers) : Nat :=
  t.check.ticks + (if t.responds p then t.length.ticks + 12 else 0) + (if t.collects p then t.read.ticks + 2 else 0) +
    t.txConfig.ticks + t.idle.ticks + t.arm.ticks + t.clear.ticks + t.eof.eofTicks p + (if 0 < p.tSlotMs then 1 else 0) + 46

/-- From `v` with `a` left and the progress `g`, the controller comes to `w` with `b` left and a progress `g'`, having made the
transactions `xs` and appended `t`. -/
structure Leads (k : Nat) (v w : View) (a b : List Micro) (g g' : Progress) (xs : List Xfer) (t : Trail) : Prop where
  run : Reaches k (v.mid pass a g) (w.mid pass b g')
  count : g'.count = g.count + xs.length
  busy : g.busy = xs.flatMap Xfer.busy ++ g'.busy
  data : g.data = xs.flatMap Xfer.data ++ g'.data
  body : g'.body = g.body.append t

theorem Leads.trans {k l : Nat} {u v w : View} {a b c : List Micro} {g g1 g2 : Progress} {xs ys : List Xfer} {t t' : Trail}
    (h1 : Leads k u v a b g g1 xs t) (h2 : Leads l v w b c g1 g2 ys t') :
    Leads (k + l) u w a c g g2 (xs ++ ys) (t.append t') where
  run := h1.run.trans h2.run
  count := by rw [h2.count, h1.count, List.length_append]; omega
  busy := by rw [h1.busy, h2.busy]; simp
  data := by rw [h1.data, h2.data]; simp
  body := by rw [h2.body, h1.body, Trail.append_assoc]

/-- A step that touches neither the progress nor the observations. -/
theorem Leads.silent {k : Nat} {v w : View} {a b : List Micro} {g : Progress} (h : Reaches k (v.mid pass a g) (w.mid pass b g)) :
    Leads k v w a b g g [] .empty := ⟨h, rfl, rfl, rfl, by simp⟩

/-- A call that is followed by `?` and ends `Ok`. -/
theorem Leads.call_ok {v : View} {j : Instr} {rest : List Micro} {g : Progress} {xs : List Xfer} {r : Option Result}
    {fb : Bool → Bool} {body : Nat → Trail} {k : Nat} {bs : List Level} {ds : List Byte}
    (h : Performs v.params j xs .ok r fb body k) (calm : v.Calm) (fits : ∀ x ∈ xs, x.Fits v.params)
    (busy : g.busy = xs.flatMap Xfer.busy ++ bs) (data : g.data = xs.flatMap Xfer.data ++ ds) :
    Leads (k + 2) v v (.call j :: .propagate :: rest) rest g
      (g.called v.params v.id j .ok r fb xs.length bs ds (body v.id)) xs (trailOp v.params v.id j .ok r (body v.id)) :=
  ⟨mid_call_ok h calm fits busy data, rfl, busy, data, rfl⟩

/-- A call. -/
theorem Leads.call {v : View} {j : Instr} {rest : List Micro} {g : Progress} {xs : List Xfer} {st : Status}
    {r : Option Result} {fb : Bool → Bool} {body : Nat → Trail} {k : Nat} {bs : List Level} {ds : List Byte}
    (h : Performs v.params j xs st r fb body k) (calm : v.Calm) (fits : ∀ x ∈ xs, x.Fits v.params)
    (busy : g.busy = xs.flatMap Xfer.busy ++ bs) (data : g.data = xs.flatMap Xfer.data ++ ds) :
    Leads (k + 1) v v (.call j :: rest) rest g
      (g.called v.params v.id j st r fb xs.length bs ds (body v.id)) xs (trailOp v.params v.id j st r (body v.id)) :=
  ⟨mid_call h calm fits busy data, rfl, busy, data, rfl⟩

/-- The re-arm sequence. -/
theorem Leads.rearm {v : View} {rest : List Micro} {g : Progress} {idle arm : Xfer} {bs : List Level}
    {ds : List Byte} (ok : v.params.InRange) (calm : v.Calm) (carries : RearmCarries v.params idle arm)
    (fits : idle.Fits v.params ∧ arm.Fits v.params) (busy : g.busy = [idle, arm].flatMap Xfer.busy ++ bs)
    (data : g.data = [idle, arm].flatMap Xfer.data ++ ds) :
    Leads (idle.ticks + arm.ticks + 12) v v (Machine.rearm v.params ++ rest) rest g (g.rearmed v.params v.id idle arm bs ds)
      [idle, arm] ((trailIdle v.params v.id idle).append (trailArm v.params v.id arm)) :=
  ⟨mid_rearm ok calm carries fits (by simpa using busy) (by simpa using data), rfl, busy, data, rfl⟩

/-- A delay. -/
theorem Leads.delay {v : View} {rest : List Micro} {g : Progress} {t : Duration} (calm : v.Calm) :
    Leads 1 v v (.delay t :: rest) rest g { g with body := g.body.append (trailDelay v.id t) } [] (trailDelay v.id t) where
  run := mid_step calm (by
    simp [microStep, View.wait, View.record, View.mid, Shared.extend, trailDelay, Trail.append])
  count := rfl
  busy := rfl
  data := rfl
  body := rfl

/-- The response of a slot, after the test of the RX start-of-frame bit (43_inventory.md R243): RX_STATUS is read, then the
response, which is appended and counted unless READ_DATA refuses its length. -/
theorem slot_response {v : View} {rest : List Micro} {g : Progress} {ph : InvPhase} {j n : Nat} {fr : List (List Byte)}
    {t : SlotXfers} {bs : List Level} {ds : List Byte} (ok : v.params.InRange) (calm : v.Calm)
    (hlen : t.length.Carries [0x04#8, v.params.regRxStatus] 4) (hr : t.responds v.params = true)
    (hread : t.collects v.params = true → t.read.Carries [0x0A#8, 0x00#8] (t.size v.params))
    (fits : ∀ x ∈ t.length :: (if t.collects v.params then [t.read] else []), x.Fits v.params)
    (busy : g.busy = (t.length :: (if t.collects v.params then [t.read] else [])).flatMap Xfer.busy ++ bs)
    (data : g.data = (t.length :: (if t.collects v.params then [t.read] else [])).flatMap Xfer.data ++ ds) :
    ∃ g' : Progress, ∃ ph' : InvPhase, g'.busy = bs ∧ g'.data = ds ∧
      Leads (t.length.ticks + 12 + (if t.collects v.params then t.read.ticks + 2 else 0))
        (v.inv ph (some j) (some n) (some fr))
        (v.inv ph' (some j) (some (n + (t.frames v.params).length)) (some (fr ++ t.frames v.params)))
        (slotResponse v.params ++ rest) rest g g' (t.length :: (if t.collects v.params then [t.read] else []))
        (.concat (t.responseTrail v.params v.id)) := by
  let w := v.inv .slotRead (some j) (some n) (some fr)
  have cw : w.Calm := calm.inv _ _ _ _
  let bs1 := (if t.collects v.params then [t.read] else []).flatMap Xfer.busy ++ bs
  let ds1 := (if t.collects v.params then [t.read] else []).flatMap Xfer.data ++ ds
  have s1 : Leads 1 (v.inv ph (some j) (some n) (some fr)) w (slotResponse v.params ++ rest)
      ([.call (.readRegister v.params.regRxStatus.toNat), .propagate, .slotRead] ++ rest) g g [] .empty :=
    .silent (inv_phase calm .slotRead)
  have s2 := Leads.call_ok (v := w) (rest := .slotRead :: rest) (g := g) (bs := bs1) (ds := ds1)
    (performs_readRegister (p := v.params) (addr := v.params.regRxStatus.toNat) (x := t.length)
      (by simp [rangeOk, ok.rxStatus]) (by simpa [readRegisterFrame] using hlen)) cw
    (List.forall_mem_singleton.mpr (fits t.length (by simp))) (by simpa [bs1] using busy) (by simpa [ds1] using data)
  let g2 := g.called v.params v.id (.readRegister v.params.regRxStatus.toNat) .ok
    (some (.register t.length.rx (registerValue t.length.rx))) id 1 bs1 ds1
    (trailTxn v.params v.id (.readRegister v.params.regRxStatus.toNat) t.length)
  have s3 : Leads 1 w w (.slotRead :: rest) (.call (.readData (t.size v.params)) :: .slotFrame :: rest) g2 g2 [] .empty :=
    .silent (mid_step cw rfl)
  by_cases hc : t.collects v.params = true
  · have hle : t.size v.params ≤ v.params.maxReadData := by
      simpa [SlotXfers.collects, hr] using hc
    have s4 := Leads.call (v := w) (rest := .slotFrame :: rest) (g := g2) (bs := bs) (ds := ds)
      (performs_readData (p := v.params) (len := t.size v.params) (x := t.read) (by simp [rangeOk, hle]) (hread hc)) cw
      (List.forall_mem_singleton.mpr (fits t.read (by simp [hc]))) (by simp [g2, Progress.called, bs1, hc]) (by simp [g2, Progress.called, ds1, hc])
    let g4 := g2.called v.params v.id (.readData (t.size v.params)) .ok (some (.bytes t.read.rx)) id 1 bs ds
      (trailTxn v.params v.id (.readData (t.size v.params)) t.read)
    have s5 : Leads 1 w (v.inv .slotRead (some j) (some (n + 1)) (some (fr ++ [t.read.rx]))) (.slotFrame :: rest) rest g4 g4 []
        .empty := .silent (mid_step cw rfl)
    refine ⟨g4, .slotRead, rfl, rfl, ?_⟩
    have h := (((s1.trans s2).trans s3).trans s4).trans s5
    simp only [hc, if_true, SlotXfers.frames, SlotXfers.responseTrail, hr, List.length_singleton]
    refine ⟨h.run.cast (by omega), h.count, h.busy, h.data, ?_⟩
    rw [h.body]; simp [trailRead, w, View.inv]
  · have hle : ¬ t.size v.params ≤ v.params.maxReadData := by
      simpa [SlotXfers.collects, hr] using hc
    have s4 := Leads.call (v := w) (rest := .slotFrame :: rest) (g := g2) (bs := bs) (ds := ds)
      (performs_rangeError (p := v.params) (i := .readData (t.size v.params)) rfl (by simp [rangeOk]; omega) (by simp)) cw
      (by simp) (by simp [g2, Progress.called, bs1, hc]) (by simp [g2, Progress.called, ds1, hc])
    let g4 := g2.called v.params v.id (.readData (t.size v.params)) .rangeError none id 0 bs ds .empty
    have s5 : Leads 1 w w (.slotFrame :: rest) rest g4 g4 [] .empty := .silent (mid_step cw rfl)
    refine ⟨g4, .slotRead, rfl, rfl, ?_⟩
    have h := (((s1.trans s2).trans s3).trans s4).trans s5
    simp only [hc, SlotXfers.frames, SlotXfers.responseTrail, hr, if_true]
    refine ⟨?_, h.count, h.busy, h.data, ?_⟩
    · have := h.run.cast (b := t.length.ticks + 12 + 0) (by omega)
      simpa [w] using this
    · rw [h.body]; simp [trailRead, w, View.inv, failureResult, returnsBool]

/-- SlotCheck (R243). -/
theorem slot_check {v : View} {rest : List Micro} {g : Progress} {ph : InvPhase} {j n : Nat} {fr : List (List Byte)}
    {t : SlotXfers} {bs : List Level} {ds : List Byte} (ok : v.params.InRange) (calm : v.Calm) (runs : t.Runs v.params)
    (fits : ∀ x ∈ [t.check] ++ (if t.responds v.params then [t.length] else []) ++
      (if t.collects v.params then [t.read] else []), x.Fits v.params)
    (busy : g.busy = ([t.check] ++ (if t.responds v.params then [t.length] else []) ++
      (if t.collects v.params then [t.read] else [])).flatMap Xfer.busy ++ bs)
    (data : g.data = ([t.check] ++ (if t.responds v.params then [t.length] else []) ++
      (if t.collects v.params then [t.read] else [])).flatMap Xfer.data ++ ds) :
    ∃ g' : Progress, ∃ ph' : InvPhase, g'.busy = bs ∧ g'.data = ds ∧
      Leads (t.check.ticks + 12 + (if t.responds v.params then t.length.ticks + 12 else 0) +
          (if t.collects v.params then t.read.ticks + 2 else 0))
        (v.inv ph (some j) (some n) (some fr))
        (v.inv ph' (some j) (some (n + (t.frames v.params).length)) (some (fr ++ t.frames v.params)))
        (slotCheck ++ rest) rest g g' ([t.check] ++ (if t.responds v.params then [t.length] else []) ++
          (if t.collects v.params then [t.read] else []))
        (.concat ([trailIrqRead v.params v.id t.check] ++ t.responseTrail v.params v.id)) := by
  obtain ⟨hcheck, hlen, hread, -⟩ := runs
  let w := v.inv .slotCheck (some j) (some n) (some fr)
  have cw : w.Calm := calm.inv _ _ _ _
  let xs2 := (if t.responds v.params then [t.length] else []) ++ (if t.collects v.params then [t.read] else [])
  let bs1 := xs2.flatMap Xfer.busy ++ bs
  let ds1 := xs2.flatMap Xfer.data ++ ds
  have s1 : Leads 1 (v.inv ph (some j) (some n) (some fr)) w (slotCheck ++ rest)
      ([.call .getIrqStatus, .propagate, .sofTest] ++ rest) g g [] .empty := .silent (inv_phase calm .slotCheck)
  have s2 := Leads.call_ok (v := w) (rest := .sofTest :: rest) (g := g) (bs := bs1) (ds := ds1)
    (performs_getIrqStatus (p := v.params) ok hcheck) cw (List.forall_mem_singleton.mpr (fits t.check (by simp)))
    (by rw [busy]; simp [bs1, xs2]) (by rw [data]; simp [ds1, xs2])
  let g2 := g.called v.params v.id .getIrqStatus .ok (some (.word (registerValue t.check.rx))) id 1 bs1 ds1
    (trailRead v.params v.id v.params.regIrqStatus.toNat t.check)
  have hret : ∀ todo, (w.mid pass todo g2).c.ret = ⟨.ok, some (.word (registerValue t.check.rx))⟩ := fun _ => rfl
  by_cases hr : t.responds v.params = true
  · have s3 : Leads 1 w w (.sofTest :: rest) (slotResponse v.params ++ rest) g2 g2 [] .empty :=
      .silent (mid_step cw (by
        simp only [microStep, sofTest, hret]
        rw [show bitSet (registerValue t.check.rx) (w.mid pass rest g2).params.irqBitRxSof = true from hr]
        rfl))
    obtain ⟨g', ph', hb, hd, s4⟩ := slot_response (rest := rest) (g := g2) (ph := .slotCheck) (j := j) (n := n) (fr := fr)
      (bs := bs) (ds := ds) ok calm (hlen hr) hr hread
      (fun x hx => fits x (by simp [hr] at hx ⊢; tauto)) (by simp [g2, Progress.called, bs1, xs2, hr])
      (by simp [g2, Progress.called, ds1, xs2, hr])
    refine ⟨g', ph', hb, hd, ?_⟩
    have h := ((s1.trans s2).trans s3).trans s4
    refine ⟨h.run.cast (by simp [hr]; omega), ?_, ?_, ?_, ?_⟩
    · rw [h.count]; simp [hr]
    · rw [h.busy]; simp [hr]
    · rw [h.data]; simp [hr]
    · rw [h.body]; simp [trailIrqRead, w, View.inv]
  · have hc : t.collects v.params = false := by simp [SlotXfers.collects, hr]
    have s3 : Leads 1 w w (.sofTest :: rest) rest g2 g2 [] .empty :=
      .silent (mid_step cw (by
        simp only [microStep, sofTest, hret]
        rw [show bitSet (registerValue t.check.rx) (w.mid pass rest g2).params.irqBitRxSof = false from Bool.not_eq_true _ ▸ hr]
        rfl))
    refine ⟨g2, .slotCheck, by simp [g2, Progress.called, bs1, xs2, hr, hc], by simp [g2, Progress.called, ds1, xs2, hr, hc], ?_⟩
    have h := (s1.trans s2).trans s3
    refine ⟨?_, ?_, ?_, ?_, ?_⟩
    · have := h.run.cast (b := t.check.ticks + 12) (by omega)
      simpa [hr, hc, w, SlotXfers.frames] using this
    · rw [h.count]; simp [hr, hc]
    · rw [h.busy]; simp [hr, hc]
    · rw [h.data]; simp [hr, hc]
    · rw [h.body]; simp [trailIrqRead, w, View.inv, SlotXfers.responseTrail, hr, hc]

/-- SlotAdvance (R244). -/
theorem slot_advance {v : View} {rest : List Micro} {g : Progress} {ph : InvPhase} {slot count : Option Nat}
    {frames : Option (List (List Byte))} {t : SlotXfers} {bs : List Level} {ds : List Byte} (ok : v.params.InRange)
    (calm : v.Calm) (runs : t.Runs v.params)
    (fits : ∀ x ∈ [t.txConfig, t.idle, t.arm, t.clear] ++ t.eof.made v.params, x.Fits v.params)
    (busy : g.busy = ([t.txConfig, t.idle, t.arm, t.clear] ++ t.eof.made v.params).flatMap Xfer.busy ++ bs)
    (data : g.data = ([t.txConfig, t.idle, t.arm, t.clear] ++ t.eof.made v.params).flatMap Xfer.data ++ ds) :
    ∃ g' : Progress, g'.busy = bs ∧ g'.data = ds ∧ g'.fallback = false ∧
      Leads (t.txConfig.ticks + t.idle.ticks + t.arm.ticks + t.clear.ticks + t.eof.eofTicks v.params + 32 +
          (if 0 < v.params.tSlotMs then 1 else 0))
        (v.inv ph slot count frames) (v.inv .slotAdvance slot count frames)
        (slotAdvance v.params ++ rest) rest g g' ([t.txConfig, t.idle, t.arm, t.clear] ++ t.eof.made v.params)
        (.concat ([trailWrite v.params v.id (.writeRegisterAnd v.params.regTxConfig.toNat v.params.eofOnlyTxAndMask.toNat)
            t.txConfig, trailIdle v.params v.id t.idle, trailArm v.params v.id t.arm,
            trailClear v.params v.id v.params.broadIrqMask.toNat t.clear, t.eofTrail v.params v.id] ++
          (if 0 < v.params.tSlotMs then [trailDelay v.id (.ms v.params.tSlotMs)] else []))) := by
  obtain ⟨-, -, -, htx, hre, hclear, hre2, hst, hfr⟩ := runs
  let w := v.inv .slotAdvance slot count frames
  have cw : w.Calm := calm.inv _ _ _ _
  let delays : List Micro := if 0 < v.params.tSlotMs then [.delay (.ms v.params.tSlotMs)] else []
  let eofs := t.eof.made v.params
  let bs3 := eofs.flatMap Xfer.busy ++ bs
  let ds3 := eofs.flatMap Xfer.data ++ ds
  let bs2 := t.clear.busy ++ bs3
  let ds2 := t.clear.data ++ ds3
  let bs1 := [t.idle, t.arm].flatMap Xfer.busy ++ bs2
  let ds1 := [t.idle, t.arm].flatMap Xfer.data ++ ds2
  let writeTx := Instr.writeRegisterAnd v.params.regTxConfig.toNat v.params.eofOnlyTxAndMask.toNat
  let clearAll := Instr.clearIrqStatus v.params.broadIrqMask.toNat
  let tail3 : List Micro := .call .sendEof :: .eofCheck :: (delays ++ rest)
  let tail2 : List Micro := .call clearAll :: .propagate :: tail3
  have hprog : slotAdvance v.params ++ rest =
      .invPhase .slotAdvance :: .call writeTx :: .propagate :: (rearm v.params ++ tail2) := by
    simp [slotAdvance, tail2, tail3, delays, writeTx, clearAll]
  have hm : ∀ x, x ∈ [t.txConfig, t.idle, t.arm, t.clear] → x.Fits v.params :=
    fun x hx => fits x (List.mem_append.mpr (.inl hx))
  have s1 : Leads 1 (v.inv ph slot count frames) w (slotAdvance v.params ++ rest)
      (.call writeTx :: .propagate :: (rearm v.params ++ tail2)) g g [] .empty := by
    rw [hprog]; exact .silent (inv_phase calm .slotAdvance)
  have s2 := Leads.call_ok (v := w) (rest := rearm v.params ++ tail2) (g := g) (bs := bs1) (ds := ds1)
    (performs_writeRegisterAnd (p := v.params) (addr := v.params.regTxConfig.toNat)
      (mask := v.params.eofOnlyTxAndMask.toNat) (x := t.txConfig) (by simp [rangeOk, ok.txConfig, ok.eofMask])
      (by simpa [writeRegisterAndFrame] using htx)) cw (List.forall_mem_singleton.mpr (hm _ (by simp)))
    (by rw [busy]; simp [bs1, bs2, bs3, eofs]) (by rw [data]; simp [ds1, ds2, ds3, eofs])
  let g2 := g.called v.params v.id writeTx .ok none id 1 bs1 ds1 (trailTxn v.params v.id writeTx t.txConfig)
  have s3 := Leads.rearm (v := w) (rest := tail2) (g := g2) (bs := bs2) (ds := ds2) ok cw hre
    ⟨hm _ (by simp), hm _ (by simp)⟩ rfl rfl
  let g3 := g2.rearmed v.params v.id t.idle t.arm bs2 ds2
  have s4 := Leads.call_ok (v := w) (rest := tail3) (g := g3) (bs := bs3) (ds := ds3)
    (performs_clearIrqStatus (p := v.params) (mask := v.params.broadIrqMask.toNat) (x := t.clear) ok ok.broadMask
      (by simpa using hclear)) cw (List.forall_mem_singleton.mpr (hm _ (by simp))) (by simp [g3, Progress.rearmed, bs2])
    (by simp [g3, Progress.rearmed, ds2])
  let g4 := g3.called v.params v.id clearAll .ok none id 1 bs3 ds3
    (trailWrite v.params v.id (.writeRegister v.params.regIrqClear.toNat v.params.broadIrqMask.toNat) t.clear)
  obtain ⟨body, heof, hbody⟩ := performs_slotEof (p := v.params) (t := t) ok hre2 hst hfr
  have s5 := Leads.call (v := w) (rest := .eofCheck :: (delays ++ rest)) (g := g4) (bs := bs) (ds := ds) heof cw
    (fun x hx => fits x (List.mem_append.mpr (.inr hx))) rfl rfl
  let g5 := g4.called v.params v.id .sendEof (if t.eof.ready v.params then .ok else .sequenceError)
    (some (.bool (t.eof.ready v.params))) (fun _ => false) eofs.length bs ds (body v.id)
  have s6 : Leads 1 w w (.eofCheck :: (delays ++ rest)) (delays ++ rest) g5 g5 [] .empty :=
    .silent (mid_step cw (by
      simp only [microStep]
      rw [show (w.mid pass (delays ++ rest) g5).c.ret.status = if t.eof.ready v.params then .ok else .sequenceError from rfl]
      cases t.eof.ready v.params <;> rfl))
  have h := ((((s1.trans s2).trans s3).trans s4).trans s5).trans s6
  by_cases hd : 0 < v.params.tSlotMs
  · have s7 : Leads 1 w w (delays ++ rest) rest g5 { g5 with body := g5.body.append (trailDelay w.id (.ms v.params.tSlotMs)) }
        [] (trailDelay w.id (.ms v.params.tSlotMs)) := by
      simp only [delays, if_pos hd, List.singleton_append]
      exact Leads.delay cw
    refine ⟨{ g5 with body := g5.body.append (trailDelay w.id (.ms v.params.tSlotMs)) }, rfl, rfl, rfl, ?_⟩
    have h' := h.trans s7
    refine ⟨h'.run.cast (by simp [hd]; omega), ?_, ?_, ?_, ?_⟩
    · rw [h'.count]; simp
    · rw [h'.busy]; simp
    · rw [h'.data]; simp
    · rw [h'.body, ← hbody]; simp [hd, trailWrite, trailClear, w, View.inv]
  · have hdel : delays ++ rest = rest := by simp [delays, hd]
    rw [hdel] at h
    refine ⟨g5, rfl, rfl, rfl, ?_⟩
    refine ⟨h.run.cast (by simp [hd]; omega), ?_, ?_, ?_, ?_⟩
    · rw [h.count]; simp
    · rw [h.busy]; simp
    · rw [h.data]; simp
    · rw [h.body, ← hbody]; simp [hd, trailWrite, trailClear, w, View.inv]

/-- One turn of the slot loop (R240 step 5). -/
theorem slot_turn {v : View} {rest : List Micro} {g : Progress} {ph : InvPhase} {j n : Nat} {fr : List (List Byte)}
    {t : SlotXfers} {bs : List Level} {ds : List Byte} (ok : v.params.InRange) (calm : v.Calm) (runs : t.Runs v.params)
    (more : j < v.params.nSlots) (fits : ∀ x ∈ t.made v.params, x.Fits v.params)
    (busy : g.busy = (t.made v.params).flatMap Xfer.busy ++ bs) (data : g.data = (t.made v.params).flatMap Xfer.data ++ ds) :
    ∃ g' : Progress, g'.busy = bs ∧ g'.data = ds ∧ g'.fallback = false ∧
      Leads (t.ticks v.params) (v.inv ph (some j) (some n) (some fr))
        (v.inv .slotAdvance (some (j + 1)) (some (n + (t.frames v.params).length)) (some (fr ++ t.frames v.params)))
        (.slotLoop :: rest) (.slotLoop :: rest) g g' (t.made v.params) (t.trail v.params v.id) := by
  let xs1 := [t.check] ++ (if t.responds v.params then [t.length] else []) ++ (if t.collects v.params then [t.read] else [])
  let xs2 := [t.txConfig, t.idle, t.arm, t.clear] ++ t.eof.made v.params
  have hmade : t.made v.params = xs1 ++ xs2 := by simp [SlotXfers.made, xs1, xs2]
  have s0 : Leads 1 (v.inv ph (some j) (some n) (some fr)) (v.inv ph (some j) (some n) (some fr)) (.slotLoop :: rest)
      (slotCheck ++ (slotAdvance v.params ++ ([.slotNext, .slotLoop] ++ rest))) g g [] .empty :=
    .silent (mid_step (calm.inv _ _ _ _) (by
      simp only [microStep, slotLoop]
      rw [show ((v.inv ph (some j) (some n) (some fr)).mid pass rest g).c.invSlot = some j from rfl]
      rw [show ((v.inv ph (some j) (some n) (some fr)).mid pass rest g).params = v.params from rfl]
      simp only [if_pos more]
      rw [show slotBody v.params = slotCheck ++ (slotAdvance v.params ++ [.slotNext, .slotLoop]) from by simp [slotBody]]
      rw [show slotCheck ++ (slotAdvance v.params ++ ([Micro.slotNext, .slotLoop] ++ rest)) =
        (slotCheck ++ (slotAdvance v.params ++ [.slotNext, .slotLoop])) ++ rest from by simp]
      rfl))
  obtain ⟨g1, ph1, hb1, hd1, s1⟩ := slot_check (rest := slotAdvance v.params ++ ([.slotNext, .slotLoop] ++ rest)) (g := g)
    (ph := ph) (j := j) (n := n) (fr := fr) (bs := xs2.flatMap Xfer.busy ++ bs) (ds := xs2.flatMap Xfer.data ++ ds) ok calm runs
    (fun x hx => fits x (by rw [hmade]; exact List.mem_append.mpr (.inl hx))) (by rw [busy, hmade]; simp [xs1])
    (by rw [data, hmade]; simp [xs1])
  obtain ⟨g2, hb2, hd2, hf2, s2⟩ := slot_advance (rest := [.slotNext, .slotLoop] ++ rest) (g := g1) (ph := ph1)
    (slot := some j) (count := some (n + (t.frames v.params).length)) (frames := some (fr ++ t.frames v.params))
    (bs := bs) (ds := ds) ok calm runs (fun x hx => fits x (by rw [hmade]; exact List.mem_append.mpr (.inr hx))) hb1 hd1
  have s3 : Leads 1 (v.inv .slotAdvance (some j) (some (n + (t.frames v.params).length)) (some (fr ++ t.frames v.params)))
      (v.inv .slotAdvance (some (j + 1)) (some (n + (t.frames v.params).length)) (some (fr ++ t.frames v.params)))
      ([.slotNext, .slotLoop] ++ rest) (.slotLoop :: rest) g2 g2 [] .empty := .silent (mid_step (calm.inv _ _ _ _) rfl)
  have h := ((s0.trans s1).trans s2).trans s3
  refine ⟨g2, hb2, hd2, hf2, h.run.cast (by simp [SlotXfers.ticks]; omega), ?_, ?_, ?_, ?_⟩
  · rw [h.count, hmade]; simp [xs1, xs2]
  · rw [h.busy, hmade]; simp [xs1, xs2]
  · rw [h.data, hmade]; simp [xs1, xs2]
  · rw [h.body]; simp [SlotXfers.trail]

/-- The slot loop (R240 step 5; R248). -/
theorem slot_loop {v : View} {rest : List Micro} (ok : v.params.InRange) (calm : v.Calm) :
    ∀ (ts : List SlotXfers) (g : Progress) (ph : InvPhase) (j n : Nat) (fr : List (List Byte)) (bs : List Level)
      (ds : List Byte), (∀ t ∈ ts, t.Runs v.params) → j + ts.length = v.params.nSlots →
      (∀ x ∈ ts.flatMap (SlotXfers.made v.params), x.Fits v.params) →
      g.busy = (ts.flatMap (SlotXfers.made v.params)).flatMap Xfer.busy ++ bs →
      g.data = (ts.flatMap (SlotXfers.made v.params)).flatMap Xfer.data ++ ds → g.fallback = false →
      ∃ g' : Progress, ∃ ph' : InvPhase, g'.busy = bs ∧ g'.data = ds ∧ g'.fallback = false ∧
        Leads ((ts.map (SlotXfers.ticks v.params)).sum + 1) (v.inv ph (some j) (some n) (some fr))
          (v.inv ph' (some (j + ts.length)) (some (n + (ts.flatMap (SlotXfers.frames v.params)).length))
            (some (fr ++ ts.flatMap (SlotXfers.frames v.params))))
          (.slotLoop :: rest) rest g g' (ts.flatMap (SlotXfers.made v.params)) (.concat (ts.map (SlotXfers.trail v.params v.id)))
  | [], g, ph, j, n, fr, bs, ds, _, hj, _, hb, hd, hf => by
    have s : Leads 1 (v.inv ph (some j) (some n) (some fr)) (v.inv ph (some j) (some n) (some fr)) (.slotLoop :: rest) rest
        g g [] .empty := .silent (mid_step (calm.inv _ _ _ _) (by
      simp only [microStep, slotLoop]
      rw [show ((v.inv ph (some j) (some n) (some fr)).mid pass rest g).c.invSlot = some j from rfl]
      rw [show ((v.inv ph (some j) (some n) (some fr)).mid pass rest g).params = v.params from rfl]
      simp only [if_neg (show ¬ j < v.params.nSlots by simp at hj; omega)]))
    exact ⟨g, ph, by simpa using hb, by simpa using hd, hf, by simpa using s⟩
  | t :: ts, g, ph, j, n, fr, bs, ds, hr, hj, hfit, hb, hd, hf => by
    simp only [List.length_cons] at hj
    obtain ⟨g1, hb1, hd1, hf1, s1⟩ := slot_turn (rest := rest) (g := g) (ph := ph) (j := j) (n := n) (fr := fr) (t := t)
      (bs := (ts.flatMap (SlotXfers.made v.params)).flatMap Xfer.busy ++ bs)
      (ds := (ts.flatMap (SlotXfers.made v.params)).flatMap Xfer.data ++ ds) ok calm (hr t (by simp)) (by omega)
      (fun x hx => hfit x (by simp [hx])) (by simpa using hb) (by simpa using hd)
    obtain ⟨g2, ph2, hb2, hd2, hf2, s2⟩ := slot_loop (rest := rest) ok calm ts g1 .slotAdvance (j + 1)
      (n + (t.frames v.params).length) (fr ++ t.frames v.params) bs ds (fun u hu => hr u (by simp [hu])) (by omega)
      (fun x hx => hfit x (by simp only [List.flatMap_cons, List.mem_append]; exact .inr hx)) hb1 hd1 hf1
    refine ⟨g2, ph2, hb2, hd2, hf2, ?_⟩
    have h := s1.trans s2
    refine ⟨?_, ?_, ?_, ?_, ?_⟩
    · have := h.run.cast (b := ((t :: ts).map (SlotXfers.ticks v.params)).sum + 1) (by simp; omega)
      simpa [Nat.add_assoc, Nat.add_comm 1] using this
    · rw [h.count]; simp
    · rw [h.busy]; simp
    · rw [h.data]; simp
    · rw [h.body]; simp

/-- What the end of GET_INVENTORY_16_SLOTS does: the inventory registers return to no value (70_reset_and_hazards.md R305). -/
theorem inv_end {v : View} {todo : List Micro} {g : Progress} {ph : InvPhase} {slot count : Option Nat}
    {frames : Option (List (List Byte))} {st : Status} {r : Option Result} :
    ((v.inv ph slot count frames).mid pass todo g).endOp st r =
      (v.inv .idle none none none).did pass st r g.fallback g.count g.busy g.data g.body := by
  simp [View.endOp, View.inv, View.mid, View.did, View.record, clearInventory, Shared.extend, trailOp]
  congr

/-- The transitions of a pass. -/
def PassXfers.ticks (p : Params) (t : PassXfers) : Nat :=
  t.setup.ticks + t.clear.ticks + t.request.idle.ticks + t.request.arm.ticks + t.request.state.ticks +
    t.request.frame.ticks + (t.slots.map (SlotXfers.ticks p)).sum + 52

/-- A pass of GET_INVENTORY_16_SLOTS that is not aborted (R240, R246, R247, R248). -/
theorem pass_completes {p : Params} {t : PassXfers} (ok : p.InRange) (runs : t.Runs p) (v : View) (bs : List Level)
    (ds : List Byte) (hp : v.params = p) (calm : v.Calm) (fits : ∀ x ∈ t.made p, x.Fits p)
    (busy : v.c.busyIn = (t.made p).flatMap Xfer.busy ++ bs) (data : v.c.dataIn = (t.made p).flatMap Xfer.data ++ ds) :
    Reaches (t.ticks p) (v.startOp pass (programOf p pass))
      ((v.inv .idle none none none).did pass .ok (some (t.result p)) false (t.made p).length bs ds (t.trail p v.id)) := by
  subst hp
  obtain ⟨hset, hclear, hreq, hn, hslots⟩ := runs
  rw [startOp_mid]
  show Reaches _ (v.mid pass (progGetInventory v.params) v.begins) _
  let xs4 := t.slots.flatMap (SlotXfers.made v.params)
  let bs4 := xs4.flatMap Xfer.busy ++ bs
  let ds4 := xs4.flatMap Xfer.data ++ ds
  let bs3 := t.request.all.flatMap Xfer.busy ++ bs4
  let ds3 := t.request.all.flatMap Xfer.data ++ ds4
  let bs2 := t.clear.busy ++ bs3
  let ds2 := t.clear.data ++ ds3
  let clearAll := Instr.clearIrqStatus v.params.broadIrqMask.toNat
  let send := Instr.sendData (inventoryRequest v.params) 0
  let tail4 : List Micro := [.invPhase .classify, .invReturn]
  let tail3 : List Micro := .invPhase .settle :: .delay (.ms v.params.tInvSettleMs) :: .invSlotZero :: .slotLoop :: tail4
  let tail2 : List Micro := .invPhase .request :: .call send :: .propagate :: tail3
  let tail1 : List Micro := .invPhase .clear0 :: .call clearAll :: .propagate :: tail2
  let s0 := v.c.invSlot
  let w1 := v.inv .setup s0 (some 0) (some [])
  let w2 := v.inv .clear0 s0 (some 0) (some [])
  let w3 := v.inv .request s0 (some 0) (some [])
  let w4 := v.inv .settle s0 (some 0) (some [])
  have hfit : ∀ ys : List Xfer, (∀ x ∈ ys, x ∈ t.made v.params) → ∀ x ∈ ys, x.Fits v.params :=
    fun ys h x hx => fits x (h x hx)
  have s1 : Leads 1 v v (progGetInventory v.params) (.invStart :: .invPhase .setup :: .call .setupRf :: .propagate :: tail1)
      v.begins v.begins [] .empty := .silent (mid_init calm)
  have s2 : Leads 1 v (v.inv v.c.invPhase s0 (some 0) (some []))
      (.invStart :: .invPhase .setup :: .call .setupRf :: .propagate :: tail1)
      (.invPhase .setup :: .call .setupRf :: .propagate :: tail1) v.begins v.begins [] .empty := .silent (mid_step calm rfl)
  have s3 : Leads 1 (v.inv v.c.invPhase s0 (some 0) (some [])) w1 (.invPhase .setup :: .call .setupRf :: .propagate :: tail1)
      (.call .setupRf :: .propagate :: tail1) v.begins v.begins [] .empty := .silent (inv_phase calm .setup)
  have s4 := Leads.call_ok (v := w1) (rest := tail1) (g := v.begins) (bs := bs2) (ds := ds2)
    (performs_setupRf (p := v.params) ok hset) (calm.inv _ _ _ _)
    (hfit _ fun x hx => by simp only [PassXfers.made, List.mem_append]; tauto)
    (by simp [View.begins, busy, PassXfers.made, bs2, bs3, bs4, xs4])
    (by simp [View.begins, data, PassXfers.made, ds2, ds3, ds4, xs4])
  let g4 : Progress := w1.begins.called v.params v.id .setupRf .ok (some (.bool true)) id t.setup.all.length bs2 ds2
    (.concat
        [trailTrue v.params v.id .rfOff (trailTxn v.params v.id .rfOff t.setup.off),
          trailTrue v.params v.id (.loadRfConfig v.params.iso15693TxConf.toNat v.params.iso15693RxConf.toNat)
            (trailTxn v.params v.id (.loadRfConfig v.params.iso15693TxConf.toNat v.params.iso15693RxConf.toNat) t.setup.load),
          t.setup.on.trail v.params v.id, trailIdle v.params v.id t.setup.idle, trailArm v.params v.id t.setup.arm])
  have s5 : Leads 1 w1 w2 tail1 (.call clearAll :: .propagate :: tail2) g4 g4 [] .empty := .silent (inv_phase calm .clear0)
  have s6 := Leads.call_ok (v := w2) (rest := tail2) (g := g4) (bs := bs3) (ds := ds3)
    (performs_clearIrqStatus (p := v.params) (mask := v.params.broadIrqMask.toNat) (x := t.clear) ok ok.broadMask
      (by simpa using hclear)) (calm.inv _ _ _ _)
    (hfit _ fun x hx => by simp only [PassXfers.made, List.mem_append]; tauto)
    (by simp [g4, Progress.called, bs2]) (by simp [g4, Progress.called, ds2])
  let g6 := g4.called v.params v.id clearAll .ok none id 1 bs3 ds3
    (trailWrite v.params v.id (.writeRegister v.params.regIrqClear.toNat v.params.broadIrqMask.toNat) t.clear)
  have s7 : Leads 1 w2 w3 tail2 (.call send :: .propagate :: tail3) g6 g6 [] .empty := .silent (inv_phase calm .request)
  have s8 := Leads.call_ok (v := w3) (rest := tail3) (g := g6) (bs := bs4) (ds := ds4)
    (performs_sendData (p := v.params) (payload := inventoryRequest v.params) (validBits := 0) (t := t.request) ok
      (by simp [rangeOk, inventoryRequest, ok.request]) hreq) (calm.inv _ _ _ _)
    (hfit _ fun x hx => by simp only [PassXfers.made, List.mem_append]; tauto) rfl rfl
  let g8 := g6.called v.params v.id send .ok (some (.bool true)) (fun _ => false) t.request.all.length bs4 ds4
    ((t.request.armed v.params v.id).append (trailTxn v.params v.id send t.request.frame))
  have s9 : Leads 1 w3 w4 tail3 (.delay (.ms v.params.tInvSettleMs) :: .invSlotZero :: .slotLoop :: tail4) g8 g8 [] .empty :=
    .silent (inv_phase calm .settle)
  have s10 := Leads.delay (v := w4) (rest := .invSlotZero :: .slotLoop :: tail4) (g := g8)
    (t := .ms v.params.tInvSettleMs) (calm.inv _ _ _ _)
  let g10 : Progress := { g8 with body := g8.body.append (trailDelay v.id (.ms v.params.tInvSettleMs)) }
  have s11 : Leads 1 w4 (v.inv .settle (some 0) (some 0) (some [])) (.invSlotZero :: .slotLoop :: tail4) (.slotLoop :: tail4)
      g10 g10 [] .empty := .silent (mid_step (calm.inv _ _ _ _) rfl)
  obtain ⟨g12, ph12, hb12, hd12, hf12, s12⟩ := slot_loop (rest := tail4) ok calm t.slots g10 .settle 0 0 [] bs ds hslots
    (by simpa using hn) (hfit _ fun x hx => by simp only [PassXfers.made, List.mem_append]; tauto) rfl rfl rfl
  have s13 : Leads 1 (v.inv ph12 (some (0 + t.slots.length)) (some (0 + (t.frames v.params).length))
        (some ([] ++ t.frames v.params))) (v.inv .classify (some (0 + t.slots.length)) (some (0 + (t.frames v.params).length))
        (some ([] ++ t.frames v.params))) tail4 [.invReturn] g12 g12 [] .empty := .silent (inv_phase calm .classify)
  have s14 : Reaches 1 ((v.inv .classify (some (0 + t.slots.length)) (some (0 + (t.frames v.params).length))
        (some ([] ++ t.frames v.params))).mid pass [.invReturn] g12)
      ((v.inv .idle none none none).did pass .ok (some (t.result v.params)) g12.fallback g12.count g12.busy g12.data
        g12.body) := mid_step (calm.inv _ _ _ _) (by
      simp only [microStep, invReturn]
      rw [← inv_end (ph := .classify) (slot := some (0 + t.slots.length)) (count := some (0 + (t.frames v.params).length))
        (frames := some ([] ++ t.frames v.params)) (todo := [])]
      simp [View.mid, View.inv, PassXfers.result])
  have h := (((((((((((s1.trans s2).trans s3).trans s4).trans s5).trans s6).trans s7).trans s8).trans s9).trans s10).trans
    s11).trans s12).trans s13
  have hrun := (h.run.trans s14).cast (b := t.ticks v.params) (by simp [PassXfers.ticks]; omega)
  have hc : g12.count = (t.made v.params).length := by
    rw [h.count]; simp [View.begins, PassXfers.made]
  have hbody : g12.body = t.trail v.params v.id := by
    rw [h.body]
    simp [View.begins, PassXfers.trail, SetupXfers.trail, SendXfers.trail, trailTrue, trailClear, w1, w2, w3, w4, View.inv,
      inventoryRequest]
  rw [hf12, hc, hb12, hd12, hbody] at hrun
  exact hrun

end Sys2Proof.Machine
end

