-- ==== Sys2Proof/Laws/Execution.lean ====
section
/-! SUPPORT. From the runs of one controller to the machine: what `issue` answers when the operation it starts ends within the
turn, and how long the operations take. -/

namespace Sys2Proof.Machine

/-- A controller with no operation and no transaction in progress has nothing to do. -/
theorem tick_nothing {v : View} (phase : v.c.tePhase = .idle) (stack : v.c.stack = []) : tick v = .held := by
  rw [tick_idle phase]; simp only [tickIdle, stack]

theorem Ready.view {s : State} {c : Handle} (ready : Ready s c) :
    s.view s.now.handle = some ⟨s.now.handle, s.params, c, s.shared⟩ := by
  simp only [State.view, ready.here, Option.map_some]

/-- The controller of a ready state, as a view, with its operation noted. -/
def State.issued (s : State) (c : Handle) (i : Instr) : View :=
  ⟨s.now.handle, s.params, { c with op := some i }, s.shared⟩

theorem Ready.calm {s : State} {c : Handle} (ready : Ready s c) (i : Instr) : (s.issued c i).Calm := by
  cases ready; constructor <;> assumption

/-- An operation that leads, within the turn, to a controller with nothing to do has run in one step. -/
theorem issue_reaches {s : State} {c : Handle} {i : Instr} {prog : Params → List Micro} {w : View} {k : Nat}
    (here : s.handles[s.now.handle]? = some c) (noOp : c.op = none)
    (run : Reaches k ((s.issued c i).startOp i (prog s.params)) w) (phase : w.c.tePhase = .idle) (stack : w.c.stack = [])
    (turn : k ≤ s.now.quantum) : issue i prog s = .next (s.put w) := by
  have hv : s.view s.now.handle = some ⟨s.now.handle, s.params, c, s.shared⟩ := by
    simp only [State.view, here, Option.map_some]
  simp only [issue, hv, noOp, if_true, State.runTurn]
  have := run.run_eq (tick_nothing phase stack) turn
  simp only [State.issued] at this
  rw [this]

/-- An operation that a ready controller performs within the turn leads to the state that its lemma says. -/
theorem issue_performs {s : State} {c : Handle} {i : Instr} {prog : Params → List Micro} {xs : List Xfer} {st : Status}
    {r : Option Result} {fb : Bool → Bool} {body : Nat → Trail} {k : Nat} {busyRest : List Level} {dataRest : List Byte}
    (perf : Performs s.params i xs st r fb body k) (hprog : prog s.params = programOf s.params i) (ready : Ready s c)
    (answers : Answers s c xs busyRest dataRest) (turn : k ≤ budget xs) :
    issue i prog s = .next (s.after
      { c.ended st r xs.length busyRest dataRest with tsFallback := fb c.tsFallback }
      (trailOp s.params s.now.handle i st r (body s.now.handle))) := by
  have h := perf (s.issued c i) busyRest dataRest rfl (ready.calm i) answers.fits answers.busy answers.data
  rw [← hprog] at h
  rw [issue_reaches ready.here ready.noOp h ready.phase ready.noStack (turn.trans answers.turn)]
  have hs := ready.noStack
  have ho := ready.noOp
  simp only [State.put, State.after, View.did, State.issued, Handle.ended]
  cases c
  simp_all

/-! ### How long they take -/

/-- What a transaction adds to a budget beyond its fixed part. -/
def Xfer.weight (x : Xfer) : Nat :=
  x.tx.length + x.rx.length + x.waitReadyTx + x.waitAcceptTx + x.waitDoneTx + x.waitAcceptRx + x.waitDoneRx

theorem budget_eq (xs : List Xfer) : budget xs = 60 * (xs.length + 1) + (xs.map Xfer.weight).sum := rfl

theorem Xfer.ticks_le (x : Xfer) : x.ticks ≤ x.weight + 13 := by
  unfold Xfer.ticks Xfer.weight; split <;> omega

theorem sum_ticks_le (xs : List Xfer) (c : Nat) :
    (xs.map fun x => x.ticks + c).sum ≤ (xs.map Xfer.weight).sum + (13 + c) * xs.length := by
  induction xs with
  | nil => simp
  | cons x xs ih =>
    have := x.ticks_le
    simp only [List.map_cons, List.sum_cons, List.length_cons, Nat.mul_add, Nat.mul_one]
    omega

theorem waitTicks_le (misses : List Xfer) (hit : Xfer) :
    waitTicks misses hit ≤ (misses.map Xfer.weight).sum + hit.weight + 25 * (misses.length + 1) := by
  have h1 := sum_ticks_le misses 12
  have h2 := hit.ticks_le
  unfold waitTicks; omega

theorem RfOnXfers.ticks_le (t : RfOnXfers) : t.ticks + 60 ≤ budget t.all := by
  have h1 := waitTicks_le t.misses t.hit
  have h2 := t.frame.ticks_le
  have h3 := t.clear.ticks_le
  rw [budget_eq]
  simp only [RfOnXfers.ticks, RfOnXfers.all, List.singleton_append, List.length_append, List.length_cons, List.length_nil,
    List.map_append, List.map_cons, List.map_nil, List.sum_append, List.sum_cons, List.sum_nil]
  omega

theorem SetupXfers.ticks_le (t : SetupXfers) : t.ticks + 60 ≤ budget t.all := by
  have h1 := t.on.ticks_le
  have h2 := t.off.ticks_le
  have h3 := t.load.ticks_le
  have h4 := t.idle.ticks_le
  have h5 := t.arm.ticks_le
  rw [budget_eq] at *
  simp only [SetupXfers.ticks, SetupXfers.all, List.length_append, List.length_cons, List.length_nil,
    List.map_append, List.map_cons, List.map_nil, List.sum_append, List.sum_cons, List.sum_nil]
  omega

theorem SendXfers.ticks_le (p : Params) (t : SendXfers) :
    t.eofTicks p ≤ 13 * (t.made p).length + 30 + ((t.made p).map Xfer.weight).sum := by
  have h1 := t.idle.ticks_le
  have h2 := t.arm.ticks_le
  have h3 := t.state.ticks_le
  have h4 := t.frame.ticks_le
  unfold SendXfers.eofTicks SendXfers.made
  cases t.ready p <;> simp <;> omega

theorem SlotXfers.ticks_le (p : Params) (t : SlotXfers) :
    t.ticks p ≤ 60 * (t.made p).length + ((t.made p).map Xfer.weight).sum := by
  have h1 := t.check.ticks_le
  have h2 := t.length.ticks_le
  have h3 := t.read.ticks_le
  have h4 := t.txConfig.ticks_le
  have h5 := t.idle.ticks_le
  have h6 := t.arm.ticks_le
  have h7 := t.clear.ticks_le
  have h8 := t.eof.ticks_le p
  have h9 : (if 0 < p.tSlotMs then 1 else 0) ≤ 1 := by split <;> omega
  unfold SlotXfers.ticks SlotXfers.made
  cases t.responds p <;> cases t.collects p <;> simp <;> omega

theorem slots_ticks_le (p : Params) (ts : List SlotXfers) :
    (ts.map (SlotXfers.ticks p)).sum ≤
      60 * (ts.flatMap (SlotXfers.made p)).length + ((ts.flatMap (SlotXfers.made p)).map Xfer.weight).sum := by
  induction ts with
  | nil => simp
  | cons t ts ih =>
    have := t.ticks_le p
    simp only [List.map_cons, List.sum_cons, List.flatMap_cons, List.length_append, List.map_append, List.sum_append]
    omega

theorem PassXfers.ticks_le (p : Params) (t : PassXfers) : t.ticks p ≤ budget (t.made p) := by
  have h1 := t.setup.ticks_le
  have h2 := t.clear.ticks_le
  have h3 := t.request.idle.ticks_le
  have h4 := t.request.arm.ticks_le
  have h5 := t.request.state.ticks_le
  have h6 := t.request.frame.ticks_le
  have h7 := slots_ticks_le p t.slots
  rw [budget_eq] at *
  simp only [PassXfers.ticks, PassXfers.made, SendXfers.all, List.length_append, List.length_cons, List.length_nil,
    List.map_append, List.map_cons, List.map_nil, List.sum_append, List.sum_cons, List.sum_nil]
  omega

end Sys2Proof.Machine
end

