-- ==== Sys2Proof/Laws/History.lean ====
section
/-! SUPPORT. What every transition of a controller does to what is observed of it, whatever the state: the log grows, each
transaction that starts is counted, `BEGUN` is never cleared, the parameters and the handle stay. -/

namespace Sys2Proof.Machine

/-- How many transactions of handle `h` a piece of the log starts. -/
def startsOf (h : Nat) (new : List LogRec) : Nat :=
  (new.filter fun r => match r with | .txnStart g _ _ => decide (g = h) | _ => false).length

@[simp] theorem startsOf_nil (h : Nat) : startsOf h [] = 0 := rfl

@[simp] theorem startsOf_append (h : Nat) (a b : List LogRec) : startsOf h (a ++ b) = startsOf h a + startsOf h b := by
  simp [startsOf]

/-- What a transition from `v` to `w` does to the history: `n` transactions are started. -/
structure Grows (v w : View) : Prop where
  id : w.id = v.id
  params : w.params = v.params
  begun : v.c.begun = true → w.c.begun = true
  log : ∃ new : List LogRec, w.bus.log = v.bus.log ++ new ∧ w.c.txnCount = v.c.txnCount + startsOf v.id new ∧
    ∀ h, h ≠ v.id → startsOf h new = 0

theorem Grows.refl (v : View) : Grows v v := ⟨rfl, rfl, fun h => h, [], by simp, by simp, by simp⟩

theorem Grows.trans {u v w : View} (h1 : Grows u v) (h2 : Grows v w) : Grows u w := by
  obtain ⟨i1, p1, b1, n1, l1, c1, o1⟩ := h1
  obtain ⟨i2, p2, b2, n2, l2, c2, o2⟩ := h2
  refine ⟨i2.trans i1, p2.trans p1, fun h => b2 (b1 h), n1 ++ n2, by rw [l2, l1, List.append_assoc], ?_, fun h ne => ?_⟩
  · rw [c2, c1, i1, startsOf_append, Nat.add_assoc]
  · rw [startsOf_append, o1 h ne, o2 h (i1 ▸ ne)]

/-- A change of registers that keeps the count and `BEGUN`, with no record. -/
theorem Grows.quiet {v w : View} (id : w.id = v.id) (params : w.params = v.params)
    (begun : v.c.begun = true → w.c.begun = true) (count : w.c.txnCount = v.c.txnCount) (log : w.bus.log = v.bus.log) :
    Grows v w := ⟨id, params, begun, [], by simpa using log, by simpa using count, by simp⟩

/-- A change of registers with one record that starts no transaction. -/
theorem Grows.one {v w : View} {r : LogRec} (start : ∀ h, startsOf h [r] = 0) (id : w.id = v.id)
    (params : w.params = v.params) (begun : v.c.begun = true → w.c.begun = true) (count : w.c.txnCount = v.c.txnCount)
    (log : w.bus.log = v.bus.log ++ [r]) : Grows v w := ⟨id, params, begun, [r], log, by simp [count, start], fun h _ => start h⟩

theorem grows_c (v : View) (c : Handle) (begun : v.c.begun = true → c.begun = true) (count : c.txnCount = v.c.txnCount) :
    Grows v { v with c := c } := .quiet rfl rfl begun count rfl

theorem grows_setNss (v : View) (l : Level) : Grows v (v.setNss l) := by
  unfold View.setNss
  split
  · exact .refl v
  · exact .one (r := .nss v.id l) (fun _ => rfl) rfl rfl (fun h => h) rfl rfl

theorem grows_setRst (v : View) (l : Level) : Grows v (v.setRst l) := by
  unfold View.setRst
  split
  · exact .refl v
  · exact .one (r := .rst v.id l) (fun _ => rfl) rfl rfl (fun h => h) rfl rfl

theorem grows_wait (v : View) (t : Duration) : Grows v (v.wait t) :=
  .one (r := .delay v.id t) (fun _ => rfl) rfl rfl (fun h => h) rfl rfl

theorem grows_prepend (v : View) (ms : List Micro) : Grows v (v.prepend ms) := by
  unfold View.prepend
  split
  · exact .quiet rfl rfl (fun h => h) rfl rfl
  · exact .refl v

theorem grows_startOp (v : View) (op : Instr) (prog : List Micro) : Grows v (v.startOp op prog) :=
  .one (r := .opStart v.id op) (fun _ => rfl) (by simp [View.startOp]) (by simp [View.startOp]) (by simp [View.startOp])
    (by simp [View.startOp]) (by simp [View.startOp])

theorem clearInventory_begun (i : Instr) (c : Handle) : (clearInventory i c).begun = c.begun := by
  unfold clearInventory; split <;> rfl

theorem clearInventory_txnCount (i : Instr) (c : Handle) : (clearInventory i c).txnCount = c.txnCount := by
  unfold clearInventory; split <;> rfl

theorem grows_endOp (v : View) (st : Status) (r : Option Result) : Grows v (v.endOp st r) := by
  unfold View.endOp
  split
  · exact .refl v
  · exact .one (r := .opEnd v.id st r) (fun _ => rfl) rfl rfl (fun h => by simpa [clearInventory_begun] using h)
      (by simp [clearInventory_txnCount]) rfl

theorem grows_raise (v : View) (e : Status) : Grows v (v.raise e) := by
  unfold View.raise
  split
  · exact .refl v
  · exact grows_endOp _ _ _

theorem grows_finish (v : View) (st : Status) (rx : List Byte) : Grows v (v.finish st rx) :=
  .one (r := .txnEnd v.id st rx) (fun _ => rfl) rfl rfl (fun h => h) rfl rfl

theorem grows_timeOut (v : View) (stage : WaitStage) : Grows v (v.timeOut stage) := by
  unfold View.timeOut
  refine Grows.trans (v := if v.c.nss = some low then v.setNss high else v) ?_ ?_
  · split
    · exact grows_setNss _ _
    · exact .refl v
  · generalize (if v.c.nss = some low then v.setNss high else v) = u
    exact (grows_c u { u.c with timeoutStage := some stage } (fun h => h) rfl).trans (grows_finish _ _ _)

theorem grows_sampleBusy (v : View) : Grows v v.sampleBusy.2 := by
  unfold View.sampleBusy
  split <;> exact .quiet rfl rfl (fun h => h) rfl rfl

theorem grows_exchange (v : View) (o : Byte) : Grows v (v.exchange o).2 := by
  unfold View.exchange View.sampleData
  split <;> exact .quiet rfl rfl (fun h => h) rfl rfl

theorem grows_enter (v : View) (ph : TePhase) : Grows v (v.enter ph) := .quiet rfl rfl (fun h => h) rfl rfl

theorem grows_enterWait (v : View) (ph : TePhase) : Grows v (v.enterWait ph) := .quiet rfl rfl (fun h => h) rfl rfl

theorem grows_grant (v : View) (op : Instr) (tx : List Byte) (n : Nat) : Grows v (v.grant op tx n) := by
  refine ⟨by simp [View.grant], by simp [View.grant], by simp [View.grant], [.txnStart v.id tx n], by simp [View.grant], ?_, ?_⟩
  · simp [View.grant, startsOf]
  · intro h ne; simp [startsOf, Ne.symm ne]

/-- A tick that moves grows. -/
def Tick.Grows (v : View) : Tick → Prop
  | .moved w => Machine.Grows v w
  | .held => True
  | .fault _ => True

theorem pollBusy_grows (v : View) (level : Level) (stage : WaitStage) (next : View → Tick)
    (h : ∀ u, Grows v u → (next u).Grows v) : (pollBusy v level stage next).Grows v := by
  unfold pollBusy
  simp only
  split
  · exact h _ (grows_sampleBusy v)
  · split
    · trivial
    · rename_i k _
      have : Grows v { v.sampleBusy.2 with c := { v.sampleBusy.2.c with pollCnt := some (k + 1) } } :=
        (grows_sampleBusy v).trans (grows_c _ _ (fun h => h) rfl)
      split
      · exact this.trans (grows_timeOut _ _)
      · exact this

theorem tickEngine_grows (v : View) (ph : TePhase) : (tickEngine v ph).Grows v := by
  cases ph <;> simp only [tickEngine]
  case idle => trivial
  case arb =>
    unfold tickArb
    split
    · split
      · refine Grows.trans ?_ (grows_grant _ _ _ _)
        exact grows_c v _ (fun h => h) rfl
      · trivial
    · trivial
  case wReadyTx => exact pollBusy_grows _ _ _ _ fun u h => (h.trans (grows_setNss u low)).trans (grows_enter _ _)
  case txSetup => exact (grows_wait _ _).trans (grows_enter _ _)
  case txBytes =>
    unfold tickTxBytes
    split <;> try trivial
    split
    · exact grows_enterWait _ _
    · exact (grows_exchange _ _).trans (.quiet rfl rfl (fun h => h) rfl rfl)
  case wAcceptTx => exact pollBusy_grows _ _ _ _ fun u h => (h.trans (grows_setNss u high)).trans (grows_enter _ _)
  case txHold => exact (grows_wait _ _).trans (grows_enterWait _ _)
  case wDoneTx =>
    refine pollBusy_grows _ _ _ _ fun u h => ?_
    unfold doneTx
    split
    · trivial
    · exact h.trans (grows_finish _ _ _)
    · exact (h.trans (grows_setNss u low)).trans (grows_enter _ _)
  case rxSetup => exact (grows_wait _ _).trans (grows_enter _ _)
  case rxBytes =>
    unfold tickRxBytes
    split <;> try trivial
    split
    · exact (grows_exchange _ _).trans (.quiet rfl rfl (fun h => h) rfl rfl)
    · exact grows_enterWait _ _
  case wAcceptRx => exact pollBusy_grows _ _ _ _ fun u h => (h.trans (grows_setNss u high)).trans (grows_enter _ _)
  case rxHold => exact (grows_wait _ _).trans (grows_enterWait _ _)
  case wDoneRx =>
    refine pollBusy_grows _ _ _ _ fun u h => ?_
    unfold doneRx
    split
    · trivial
    · exact h.trans (grows_finish _ _ _)

/-- The steps of the pseudocode, each from the view with the step taken off. -/
theorem microStep_grows (v : View) (op : Instr) (m : Micro) (rest : List Micro) (fs : List Frame) :
    (microStep v (v.at op rest fs) op m).Grows v := by
  have h0 : Grows v (v.at op rest fs) := .quiet rfl rfl (fun h => h) rfl rfl
  generalize v.at op rest fs = u at h0
  have hend : ∀ st r, Grows v (u.endOp st r) := fun st r => h0.trans (grows_endOp u st r)
  have hraise : ∀ e, Grows v (u.raise e) := fun e => h0.trans (grows_raise u e)
  cases m <;> simp only [microStep]
  case initCheck => split; exacts [h0, hraise _]
  case rangeCheck => split; exacts [h0, hraise _]
  case transact => split; exacts [hraise _, grows_enter _ _]
  case call => exact h0.trans (grows_startOp _ _ _)
  case propagate => split; exacts [h0, hraise _]
  case irqPoll => exact h0.trans (grows_prepend _ _)
  case irqTest =>
    unfold irqTest
    split
    · split
      · exact h0
      · split
        · refine Grows.trans ?_ (grows_raise _ _)
          exact h0.trans (grows_c u _ (fun h => h) rfl)
        · exact h0.trans (grows_prepend _ _)
    · trivial
  case setRst => exact h0.trans (grows_setRst _ _)
  case deselect => exact h0.trans (grows_setNss _ _)
  case setBegun => exact h0.trans (.quiet rfl rfl (fun _ => rfl) rfl rfl)
  case delay => exact h0.trans (grows_wait _ _)
  case stateCheck =>
    unfold stateCheck
    split
    · exact hraise _
    · split
      · split; exacts [h0, hraise _]
      · trivial
  case returnTrue => exact hend _ _
  case returnBytes => unfold returnBytes; split; exacts [hend _ _, trivial]
  case returnRegister => unfold returnRegister; split; exacts [hend _ _, trivial]
  case returnWord => unfold returnWord; split; exacts [hend _ _, trivial]
  case returnState =>
    unfold returnState
    split
    · split
      · refine Grows.trans ?_ (grows_endOp _ _ _)
        exact h0.trans (grows_c u _ (fun h => h) rfl)
      · trivial
    · refine Grows.trans ?_ (grows_endOp _ _ _)
      exact h0.trans (grows_c u _ (fun h => h) rfl)
  case invStart => exact h0.trans (.quiet rfl rfl (fun h => h) rfl rfl)
  case invPhase => exact h0.trans (.quiet rfl rfl (fun h => h) rfl rfl)
  case invSlotZero => exact h0.trans (.quiet rfl rfl (fun h => h) rfl rfl)
  case slotLoop =>
    unfold slotLoop
    split
    · trivial
    · split; exacts [h0.trans (grows_prepend _ _), h0]
  case sofTest =>
    unfold sofTest
    split
    · split; exacts [h0.trans (grows_prepend _ _), h0]
    · trivial
  case slotRead => unfold slotRead; split; exacts [h0.trans (grows_prepend _ _), trivial]
  case slotFrame =>
    unfold slotFrame
    split
    · split <;> first | trivial | exact h0.trans (.quiet rfl rfl (fun h => h) rfl rfl)
    · split; exacts [h0, hraise _]
  case eofCheck => split; exacts [hraise _, h0]
  case slotNext => split; exacts [trivial, h0.trans (.quiet rfl rfl (fun h => h) rfl rfl)]
  case invReturn => unfold invReturn; split; exacts [trivial, trivial, hend _ _]

theorem tick_grows (v : View) : (tick v).Grows v := by
  unfold tick
  split
  · unfold tickIdle
    split
    · trivial
    · exact grows_endOp _ _ _
    · exact microStep_grows v _ _ _ _
  · exact tickEngine_grows v _

/-- What a turn does to the history. -/
theorem run_grows : ∀ (q : Nat) (v w : View), run q v = .ok w → Grows v w
  | 0, v, w, h => by cases h; exact .refl v
  | q + 1, v, w, h => by
    have ht := tick_grows v
    simp only [run] at h
    cases e : tick v with
    | moved u =>
      rw [e] at h ht
      exact Grows.trans ht (run_grows q u w h)
    | held => rw [e] at h; cases h; exact .refl v
    | fault f => rw [e] at h; cases h

end Sys2Proof.Machine
end

