-- ==== Sys2Proof/Laws/Invariant.lean ====
section
/-! SUPPORT. What every transition of a handle controller keeps: the invariant of the controller, its agreement with the bus
arbiter, and everything that belongs to other handles. -/

namespace Sys2Proof.Machine

/-- The invariant of one controller with its share of the arbiter's state. -/
structure View.Sound (v : View) : Prop where
  ok : v.c.Ok
  owns : ownsBus v.c.tePhase = true ↔ v.bus.busOwner = some v.id

/-- What a transition from `v` keeps. -/
def Tick.Keeps (v : View) : Tick → Prop
  | .moved w => w.Sound ∧ w.id = v.id ∧ w.params = v.params ∧
      ∀ h, h ≠ v.id → (w.bus.busOwner = some h ↔ v.bus.busOwner = some h)
  | .held => True
  | .fault _ => False

/-! ### The engine -/

/-- The engine's registers inside a transaction. -/
structure Handle.Registers (c : Handle) (tx : List Byte) (idx n : Nat) (rx : List Byte) (cnt : Nat) : Prop where
  txBuf : c.txBuf = some tx
  txIdx : c.txIdx = some idx
  rxLen : c.rxLen = some n
  rxBuf : c.rxBuf = some rx
  pollCnt : c.pollCnt = some cnt
  frame : tx ≠ []
  idxLe : idx ≤ tx.length
  rxLe : rx.length ≤ n
  before : c.tePhase ∈ [.wReadyTx, .txSetup] → idx = 0
  written : c.tePhase ∉ [.wReadyTx, .txSetup, .txBytes] → idx = tx.length
  unread : c.tePhase ∉ [.rxBytes, .wAcceptRx, .rxHold, .wDoneRx] → rx = []
  reading : c.tePhase ∈ [.rxSetup, .rxBytes, .wAcceptRx, .rxHold, .wDoneRx] → 0 < n
  read : c.tePhase ∈ [.wAcceptRx, .rxHold, .wDoneRx] → rx.length = n

theorem Handle.registers_of_engineOk {c : Handle} (own : ownsBus c.tePhase = true) (h : c.engineOk) :
    ∃ tx idx n rx cnt, c.Registers tx idx n rx cnt := by
  unfold Handle.engineOk at h
  rw [own] at h
  obtain ⟨tx, idx, n, rx, cnt, h1, h2, h3, h4, h5, h6, h7, h8, h9, h10, h11, h12, h13⟩ := h
  exact ⟨tx, idx, n, rx, cnt, h1, h2, h3, h4, h5, h6, h7, h8, h9, h10, h11, h12, h13⟩

theorem Handle.engineOk_of_registers {c : Handle} (own : ownsBus c.tePhase = true) {tx : List Byte} {idx n : Nat}
    {rx : List Byte} {cnt : Nat} (h : c.Registers tx idx n rx cnt) : c.engineOk := by
  unfold Handle.engineOk
  rw [own]
  obtain ⟨h1, h2, h3, h4, h5, h6, h7, h8, h9, h10, h11, h12, h13⟩ := h
  exact ⟨tx, idx, n, rx, cnt, h1, h2, h3, h4, h5, h6, h7, h8, h9, h10, h11, h12, h13⟩

theorem Handle.controlOk_owning {c : Handle} (own : ownsBus c.tePhase = true) : c.controlOk ↔
    ∃ n, c.rxLen = some n ∧ c.stack ≠ [] ∧
      stackOk c.hasInventory c.invSlot.isSome (.outcomeOf (.bytes n)) c.stack = true := by
  unfold Handle.controlOk
  revert own
  cases c.tePhase <;> simp [ownsBus]

/-- A step inside a transaction keeps what does not belong to the engine. -/
theorem Handle.Ok.inTransaction {c c' : Handle} (ok : c.Ok) (own : ownsBus c.tePhase = true)
    (own' : ownsBus c'.tePhase = true) (hstack : c'.stack = c.stack) (hop : c'.op = c.op) (hlen : c'.rxLen = c.rxLen)
    (hinv : c'.invPhase = c.invPhase ∧ c'.invSlot = c.invSlot ∧ c'.invCount = c.invCount ∧ c'.invFrames = c.invFrames)
    (hnss : c'.nss = some low ↔ assertsNss c'.tePhase = true) (heng : c'.engineOk) : c'.Ok := by
  obtain ⟨-, -, hc, ho, hi, hf⟩ := ok
  obtain ⟨hi1, hi2, hi3, hi4⟩ := hinv
  refine ⟨hnss, heng, ?_, ?_, ?_, ?_⟩
  · rw [Handle.controlOk_owning own'] at *
    rw [Handle.controlOk_owning own] at hc
    simpa only [hstack, hlen, hi2, hi3, hi4, Handle.hasInventory] using hc
  · rw [hop, hstack, ho]
  · rw [hop, hi1, hi2, hi3, hi4]; exact hi
  · rw [hi3, hi4]; exact hf

/-- Keeping, for a step inside a transaction. -/
theorem keeps_inTransaction {v w : View} (s : v.Sound) (own : ownsBus v.c.tePhase = true)
    (own' : ownsBus w.c.tePhase = true) (hid : w.id = v.id) (hp : w.params = v.params) (hb : w.bus.busOwner = v.bus.busOwner)
    (hstack : w.c.stack = v.c.stack) (hop : w.c.op = v.c.op) (hlen : w.c.rxLen = v.c.rxLen)
    (hinv : w.c.invPhase = v.c.invPhase ∧ w.c.invSlot = v.c.invSlot ∧ w.c.invCount = v.c.invCount ∧
      w.c.invFrames = v.c.invFrames)
    (hnss : w.c.nss = some low ↔ assertsNss w.c.tePhase = true) {tx : List Byte} {idx n : Nat} {rx : List Byte} {cnt : Nat}
    (regs : w.c.Registers tx idx n rx cnt) : (Tick.moved w).Keeps v := by
  refine ⟨⟨s.ok.inTransaction own own' hstack hop hlen hinv hnss (Handle.engineOk_of_registers own' regs), ?_⟩, hid, hp, ?_⟩
  · rw [hb, hid]
    simp only [own', true_iff]
    exact s.owns.mp own
  · intro h _; rw [hb]

/-- The end of a transaction. -/
theorem keeps_finish {v w : View} (s : v.Sound) (own : ownsBus v.c.tePhase = true) (hid : w.id = v.id)
    (hp : w.params = v.params) (hstack : w.c.stack = v.c.stack) (hop : w.c.op = v.c.op)
    (hinv : w.c.invPhase = v.c.invPhase ∧ w.c.invSlot = v.c.invSlot ∧ w.c.invCount = v.c.invCount ∧
      w.c.invFrames = v.c.invFrames)
    (hnss : w.c.nss ≠ some low) {st : Status} {rx : List Byte} {n : Nat} (hn : v.c.rxLen = some n)
    (hrx : st = .ok → rx.length = n) : (Tick.moved (w.finish st rx)).Keeps v := by
  obtain ⟨ok, owns⟩ := s
  have hc := (Handle.controlOk_owning own).mp ok.control
  obtain ⟨m, hm, hne, hst⟩ := hc
  obtain rfl : m = n := by rw [hn] at hm; exact (Option.some.inj hm).symm
  obtain ⟨hi1, hi2, hi3, hi4⟩ := hinv
  refine ⟨⟨⟨?_, ?_, ?_, ?_, ?_, ?_⟩, ?_⟩, hid, hp, ?_⟩
  · simp [View.finish, View.release, assertsNss, hnss]
  · simp [View.finish, View.release, Handle.engineOk, ownsBus]
  · refine ⟨.outcomeOf (.bytes m), ?_, ?_⟩
    · intro hok
      have : st = .ok := hok
      simp only [View.finish, View.release, this, if_true, Kind.fits, decide_eq_true_eq]
      exact hrx this
    · simpa only [View.finish, View.release, hstack, hi2, hi3, hi4, Handle.hasInventory] using hst
  · simpa only [View.finish, View.release, hstack, hop] using ok.opInProgress
  · simpa only [View.finish, View.release, hop, hi1, hi2, hi3, hi4] using ok.inventoryEnded
  · simpa only [View.finish, View.release, hi3, hi4] using ok.framesCounted
  · simp [View.finish, View.release, ownsBus]
  · intro h hne
    have := owns.mp own
    simp only [View.finish, View.release, this, Option.some.injEq]
    exact iff_of_false (by simp) (fun x => hne x.symm)

/-- A busy wait that runs out. -/
theorem keeps_timeOut {v w : View} (s : v.Sound) (own : ownsBus v.c.tePhase = true) (hid : w.id = v.id)
    (hp : w.params = v.params) (hstack : w.c.stack = v.c.stack) (hop : w.c.op = v.c.op)
    (hinv : w.c.invPhase = v.c.invPhase ∧ w.c.invSlot = v.c.invSlot ∧ w.c.invCount = v.c.invCount ∧
      w.c.invFrames = v.c.invFrames) {n : Nat} (hn : v.c.rxLen = some n) (stage : WaitStage) :
    (Tick.moved (w.timeOut stage)).Keeps v := by
  unfold View.timeOut
  by_cases h : w.c.nss = some low
  · simp only [if_pos h]
    exact keeps_finish (w := { w.setNss high with c := { (w.setNss high).c with timeoutStage := some stage } }) s own
      (by simpa using hid) (by simpa using hp) (by simpa using hstack) (by simpa using hop) (by simpa using hinv) (by simp)
      hn (fun e => by cases e)
  · simp only [if_neg h]
    exact keeps_finish (w := { w with c := { w.c with timeoutStage := some stage } }) s own hid hp hstack hop hinv h
      hn (fun e => by cases e)

/-- What a busy sample changes. -/
theorem sampleBusy_keeps (v : View) : ∃ bs k, v.sampleBusy.2 = { v with c := { v.c with busyIn := bs, busyDrawn := k } } := by
  unfold View.sampleBusy
  cases h : v.c.busyIn with
  | nil => exact ⟨v.c.busyIn, v.c.busyDrawn + 1, rfl⟩
  | cons b bs => exact ⟨bs, v.c.busyDrawn, rfl⟩

/-- What a byte slot changes. -/
theorem exchange_keeps (v : View) (o : Byte) : ∃ ds k sl, (v.exchange o).2 =
    { v with c := { v.c with dataIn := ds, dataDrawn := k }, bus := { v.bus with slots := sl } } := by
  unfold View.exchange View.sampleData
  cases h : v.c.dataIn with
  | nil => exact ⟨v.c.dataIn, v.c.dataDrawn + 1, _, rfl⟩
  | cons d ds => exact ⟨ds, v.c.dataDrawn, _, rfl⟩

/-- One sample of a busy wait. -/
theorem pollBusy_keeps {v : View} {level : Level} {stage : WaitStage} {next : View → Tick} (s : v.Sound)
    (own : ownsBus v.c.tePhase = true)
    (hnext : ∀ bs k, (next { v with c := { v.c with busyIn := bs, busyDrawn := k } }).Keeps v) :
    (pollBusy v level stage next).Keeps v := by
  obtain ⟨tx, idx, n, rx, cnt, regs⟩ := Handle.registers_of_engineOk own s.ok.engine
  obtain ⟨bs, k, hk⟩ := sampleBusy_keeps v
  have hn := hnext bs k
  rw [← hk] at hn
  unfold pollBusy
  simp only [regs.pollCnt]
  split
  · exact hn
  · rw [hk]
    split
    · exact keeps_timeOut (w := { v with c := { v.c with busyIn := bs, busyDrawn := k, pollCnt := some (cnt + 1) } }) s own rfl rfl rfl rfl ⟨rfl, rfl, rfl, rfl⟩ (n := n) regs.rxLen stage
    · refine keeps_inTransaction (tx := tx) (idx := idx) (n := n) (rx := rx) (cnt := cnt + 1) s own own rfl rfl rfl rfl rfl rfl
        ⟨rfl, rfl, rfl, rfl⟩ s.ok.chipSelect ?_
      obtain ⟨h1, h2, h3, h4, h5, h6, h7, h8, h9, h10, h11, h12, h13⟩ := regs
      constructor <;> first | assumption | rfl

/-- The arbiter's grant. -/
theorem tickArb_keeps {v : View} (s : v.Sound) (phase : v.c.tePhase = .arb) : (tickArb v).Keeps v := by
  have hc := s.ok.control
  have he := s.ok.engine
  unfold Handle.controlOk at hc
  unfold Handle.engineOk at he
  rw [phase] at hc he
  obtain ⟨op, tx, n, rest, fs, hs, hne, hst⟩ := hc
  unfold tickArb
  rw [hs]
  simp only
  split
  · rename_i hfree
    obtain ⟨ok, owns⟩ := s
    rw [hs] at hst
    simp only [stackOk, todoOk, Bool.and_eq_true] at hst
    refine ⟨⟨⟨?_, ?_, ?_, ?_, ?_, ?_⟩, ?_⟩, by simp [View.grant], by simp [View.grant], ?_⟩
    · have := ok.chipSelect
      rw [phase] at this
      simpa [View.grant, assertsNss] using this
    · refine Handle.engineOk_of_registers (tx := tx) (idx := 0) (n := n) (rx := []) (cnt := 0) (by simp [View.grant, ownsBus]) ?_
      constructor <;> simp [View.grant, hne]
    · rw [Handle.controlOk_owning (by simp [View.grant, ownsBus])]
      refine ⟨n, by simp [View.grant], by simp [View.grant], ?_⟩
      simp only [View.grant, View.enterWait_c, View.debug_c, View.record_c, View.acquire_c, stackOk, Bool.and_eq_true]
      exact hst
    · have := ok.opInProgress
      rw [hs] at this
      simp only [View.grant, View.enterWait_c, View.debug_c, View.record_c, View.acquire_c]
      rw [this]
      cases fs <;> simp [List.getLast?_cons]
    · have := ok.inventoryEnded
      simpa [View.grant] using this
    · have := ok.framesCounted
      simpa [View.grant] using this
    · simp [View.grant, ownsBus]
    · intro h hne'
      simp only [View.grant, View.enterWait_busOwner, View.debug_busOwner, View.record_busOwner, View.acquire_busOwner, hfree]
      exact iff_of_false (fun x => hne' (Option.some.inj x).symm) (by simp)
  · trivial

/-- A transition of the engine. -/
theorem tickEngine_keeps {v : View} (s : v.Sound) {ph : TePhase} (phase : v.c.tePhase = ph) (ne : ph ≠ .idle) :
    (tickEngine v ph).Keeps v := by
  by_cases harb : ph = .arb
  · subst harb; exact tickArb_keeps s phase
  have own : ownsBus v.c.tePhase = true := by rw [phase]; cases ph <;> simp_all [ownsBus]
  obtain ⟨tx, idx, n, rx, cnt, regs⟩ := Handle.registers_of_engineOk own s.ok.engine
  obtain ⟨h1, h2, h3, h4, h5, h6, h7, h8, h9, h10, h11, h12, h13⟩ := regs
  cases ph with
  | idle => exact absurd rfl ne
  | arb => exact absurd rfl harb
  | wReadyTx =>
    simp only [tickEngine]
    refine pollBusy_keeps s own fun bs k => ?_
    refine keeps_inTransaction (tx := tx) (idx := idx) (n := n) (rx := rx) (cnt := cnt) s own (by simp [ownsBus]) (by simp)
      (by simp) (by simp) (by simp) (by simp) (by simp) (by simp) (by simp [assertsNss]) ?_
    constructor <;> simp_all
  | txSetup =>
    refine keeps_inTransaction (tx := tx) (idx := idx) (n := n) (rx := rx) (cnt := cnt) s own (by simp [ownsBus]) (by simp)
      (by simp) (by simp) (by simp) (by simp) (by simp) (by simp)
      (by have := s.ok.chipSelect; rw [phase] at this; simpa [assertsNss] using this) ?_
    constructor <;> simp_all
  | txBytes =>
    simp only [tickEngine, tickTxBytes, h1, h2]
    have hns := s.ok.chipSelect
    rw [phase] at hns
    split
    · rename_i hnone
      have hle : tx.length ≤ idx := by simpa using hnone
      refine keeps_inTransaction (tx := tx) (idx := idx) (n := n) (rx := rx) (cnt := 0) s own (by simp [ownsBus]) (by simp)
        (by simp) (by simp) (by simp) (by simp) (by simp) (by simp) (by simpa [assertsNss] using hns) ?_
      constructor <;> simp_all
      omega
    · rename_i b hsome
      have hlt : idx < tx.length := by
        by_contra hge
        rw [List.getElem?_eq_none (by omega)] at hsome
        cases hsome
      obtain ⟨ds, k, sl, hk⟩ := exchange_keeps v b
      rw [hk]
      refine keeps_inTransaction (tx := tx) (idx := idx + 1) (n := n) (rx := rx) (cnt := cnt) s own own rfl rfl rfl rfl rfl rfl
        ⟨rfl, rfl, rfl, rfl⟩ (by simpa [phase, assertsNss] using hns) ?_
      constructor <;> simp_all
  | wAcceptTx =>
    simp only [tickEngine]
    refine pollBusy_keeps s own fun bs k => ?_
    refine keeps_inTransaction (tx := tx) (idx := idx) (n := n) (rx := rx) (cnt := cnt) s own (by simp [ownsBus]) (by simp)
      (by simp) (by simp) (by simp) (by simp) (by simp) (by simp) (by simp [assertsNss]) ?_
    constructor <;> simp_all
  | txHold =>
    refine keeps_inTransaction (tx := tx) (idx := idx) (n := n) (rx := rx) (cnt := 0) s own (by simp [ownsBus]) (by simp)
      (by simp) (by simp) (by simp) (by simp) (by simp) (by simp)
      (by have := s.ok.chipSelect; rw [phase] at this; simpa [assertsNss] using this) ?_
    constructor <;> simp_all
  | wDoneTx =>
    have hns := s.ok.chipSelect
    rw [phase] at hns
    simp only [tickEngine]
    refine pollBusy_keeps s own fun bs k => ?_
    have hrx : rx = [] := h11 (by simp [phase])
    simp only [doneTx]
    split
    · rename_i hnone; rw [h3] at hnone; cases hnone
    · rename_i hzero
      have hz : v.c.rxLen = some 0 := hzero
      exact keeps_finish (w := { v with c := { v.c with busyIn := bs, busyDrawn := k } }) (st := .ok) (rx := []) (n := 0) s own rfl rfl rfl rfl ⟨rfl, rfl, rfl, rfl⟩
        (by simpa [assertsNss] using hns) hz (by simp)
    · rename_i m hsucc
      have hz : v.c.rxLen = some (m + 1) := hsucc
      obtain rfl : n = m + 1 := by rw [h3] at hz; exact Option.some.inj hz
      refine keeps_inTransaction (tx := tx) (idx := idx) (n := m + 1) (rx := rx) (cnt := cnt) s own (by simp [ownsBus])
        (by simp) (by simp) (by simp) (by simp) (by simp) (by simp) (by simp) (by simp [assertsNss]) ?_
      constructor <;> simp_all
  | rxSetup =>
    refine keeps_inTransaction (tx := tx) (idx := idx) (n := n) (rx := rx) (cnt := cnt) s own (by simp [ownsBus]) (by simp)
      (by simp) (by simp) (by simp) (by simp) (by simp) (by simp)
      (by have := s.ok.chipSelect; rw [phase] at this; simpa [assertsNss] using this) ?_
    constructor <;> simp_all
  | rxBytes =>
    simp only [tickEngine, tickRxBytes, h3, h4]
    have hns := s.ok.chipSelect
    rw [phase] at hns
    split
    · rename_i hlt
      obtain ⟨ds, k, sl, hk⟩ := exchange_keeps v v.params.readFillByte
      rw [hk]
      refine keeps_inTransaction (tx := tx) (idx := idx) (n := n) (rx := rx ++ [(v.exchange v.params.readFillByte).1]) (cnt := cnt)
        s own own rfl rfl rfl rfl rfl rfl ⟨rfl, rfl, rfl, rfl⟩ (by simpa [phase, assertsNss] using hns) ?_
      constructor <;> simp_all
    · rename_i hge
      refine keeps_inTransaction (tx := tx) (idx := idx) (n := n) (rx := rx) (cnt := 0) s own (by simp [ownsBus]) (by simp)
        (by simp) (by simp) (by simp) (by simp) (by simp) (by simp) (by simpa [assertsNss] using hns) ?_
      constructor <;> simp_all
      omega
  | wAcceptRx =>
    simp only [tickEngine]
    refine pollBusy_keeps s own fun bs k => ?_
    refine keeps_inTransaction (tx := tx) (idx := idx) (n := n) (rx := rx) (cnt := cnt) s own (by simp [ownsBus]) (by simp)
      (by simp) (by simp) (by simp) (by simp) (by simp) (by simp) (by simp [assertsNss]) ?_
    constructor <;> simp_all
  | rxHold =>
    refine keeps_inTransaction (tx := tx) (idx := idx) (n := n) (rx := rx) (cnt := 0) s own (by simp [ownsBus]) (by simp)
      (by simp) (by simp) (by simp) (by simp) (by simp) (by simp)
      (by have := s.ok.chipSelect; rw [phase] at this; simpa [assertsNss] using this) ?_
    constructor <;> simp_all
  | wDoneRx =>
    have hns := s.ok.chipSelect
    rw [phase] at hns
    simp only [tickEngine]
    refine pollBusy_keeps s own fun bs k => ?_
    simp only [doneRx]
    split
    · rename_i hnone; rw [h4] at hnone; cases hnone
    · rename_i rx' hsome
      have hz : v.c.rxBuf = some rx' := hsome
      obtain rfl : rx = rx' := by rw [h4] at hz; exact Option.some.inj hz
      exact keeps_finish (w := { v with c := { v.c with busyIn := bs, busyDrawn := k } }) (st := .ok) (rx := rx) s own rfl rfl rfl rfl ⟨rfl, rfl, rfl, rfl⟩
        (by simpa [assertsNss] using hns) h3 (fun _ => h13 (by simp [phase]))

/-! ### The pseudocode -/

/-- What the control stack keeps beside what remains of the innermost operation: facts of every state of a controller that
runs no transaction and has `⟨op, m :: rest⟩ :: fs` on its stack. -/
structure View.Inside (v : View) (k : Know) (op : Instr) (todo : List Micro) (fs : List Frame) : Prop where
  sound : v.Sound
  phase : v.c.tePhase = .idle
  stack : v.c.stack = ⟨op, todo⟩ :: fs
  known : k.holds v.c.ret
  remains : todoOk op k v.c.hasInventory v.c.invSlot.isSome todo = true
  outer : op = .getInventory16Slots → fs = []
  below : stackOk v.c.hasInventory v.c.invSlot.isSome (.outcomeOf (resultKind op)) fs = true

theorem View.Sound.inside {v : View} (s : v.Sound) {op : Instr} {todo : List Micro} {fs : List Frame}
    (phase : v.c.tePhase = .idle) (stack : v.c.stack = ⟨op, todo⟩ :: fs) : ∃ k, v.Inside k op todo fs := by
  have hc := s.ok.control
  unfold Handle.controlOk at hc
  rw [phase] at hc
  obtain ⟨k, hk, hst⟩ := hc
  rw [stack] at hst
  simp only [stackOk, Bool.and_eq_true, Bool.or_eq_true, decide_eq_true_eq, List.isEmpty_iff] at hst
  exact ⟨k, s, phase, stack, hk, hst.1.1, fun e => hst.1.2.resolve_left (fun h => h e), hst.2⟩

/-- The operation in progress is GET_INVENTORY_16_SLOTS when its own pseudocode runs. -/
theorem View.Inside.isInventory {v : View} {k : Know} {op : Instr} {todo : List Micro} {fs : List Frame}
    (h : v.Inside k op todo fs) (e : op = .getInventory16Slots) : v.c.op = some .getInventory16Slots := by
  have := h.sound.ok.opInProgress
  rw [h.stack, h.outer e, e] at this
  simpa using this

/-- Keeping, for a step that stays inside the operation in progress and changes nothing the invariant speaks of. -/
theorem View.Inside.keeps_todo {v w : View} {k k' : Know} {op : Instr} {todo todo' : List Micro} {fs : List Frame}
    (h : v.Inside k op todo fs) (hid : w.id = v.id) (hp : w.params = v.params) (hb : w.bus.busOwner = v.bus.busOwner)
    (hphase : w.c.tePhase = .idle) (hstack : w.c.stack = ⟨op, todo'⟩ :: fs) (hop : w.c.op = v.c.op)
    (hregs : w.c.txBuf = v.c.txBuf ∧ w.c.txIdx = v.c.txIdx ∧ w.c.rxLen = v.c.rxLen ∧ w.c.rxBuf = v.c.rxBuf ∧
      w.c.pollCnt = v.c.pollCnt)
    (hnss : w.c.nss ≠ some low) (known : k'.holds w.c.ret)
    (htodo : todoOk op k' w.c.hasInventory w.c.invSlot.isSome todo' = true)
    (hbelow : stackOk w.c.hasInventory w.c.invSlot.isSome (.outcomeOf (resultKind op)) fs = true)
    (hinv : w.c.op ≠ some .getInventory16Slots →
      w.c.invPhase = .idle ∧ w.c.invSlot = none ∧ w.c.invCount = none ∧ w.c.invFrames = none)
    (hframes : ∀ count frames, w.c.invCount = some count → w.c.invFrames = some frames → count = frames.length) :
    (Tick.moved w).Keeps v := by
  obtain ⟨s, phase, stack, -, -, outer, -⟩ := h
  refine ⟨⟨⟨?_, ?_, ?_, ?_, hinv, hframes⟩, ?_⟩, hid, hp, fun h _ => by rw [hb]⟩
  · rw [hphase]; simp [assertsNss, hnss]
  · have := s.ok.engine
    unfold Handle.engineOk at *
    rw [phase] at this
    rw [hphase]
    obtain ⟨h1, h2, h3, h4, h5⟩ := hregs
    simpa only [h1, h2, h3, h4, h5] using this
  · unfold Handle.controlOk
    rw [hphase]
    refine ⟨k', known, ?_⟩
    rw [hstack]
    simp only [stackOk, Bool.and_eq_true, Bool.or_eq_true, decide_eq_true_eq, List.isEmpty_iff]
    refine ⟨⟨htodo, ?_⟩, hbelow⟩
    by_cases e : op = .getInventory16Slots
    · exact .inr (outer e)
    · exact .inl e
  · have := s.ok.opInProgress
    rw [stack] at this
    rw [hop, hstack, this]
    cases fs <;> simp [List.getLast?_cons]
  · rw [hphase, hb, hid]
    have := s.owns
    rw [phase] at this
    exact this

/-- The same, when nothing but the control stack changes. -/
theorem View.Inside.keeps_at {v : View} {k k' : Know} {op : Instr} {todo todo' : List Micro} {fs : List Frame}
    (h : v.Inside k op todo fs) (known : k'.holds v.c.ret)
    (htodo : todoOk op k' v.c.hasInventory v.c.invSlot.isSome todo' = true) :
    (Tick.moved { v with c := { v.c with stack := ⟨op, todo'⟩ :: fs } }).Keeps v :=
  h.keeps_todo rfl rfl rfl h.phase rfl rfl ⟨rfl, rfl, rfl, rfl, rfl⟩
    (by have := h.sound.ok.chipSelect; rw [h.phase] at this; simpa [assertsNss] using this) known htodo h.below
    h.sound.ok.inventoryEnded h.sound.ok.framesCounted

/-- The end of an operation, with an error or with a value of its kind. -/
theorem View.Inside.keeps_end {v w : View} {k : Know} {op : Instr} {todo todo' : List Micro} {fs : List Frame}
    (h : v.Inside k op todo fs)
    (hw : ∃ fb ts, w = { v with c := { v.c with stack := ⟨op, todo'⟩ :: fs, tsFallback := fb, timeoutStage := ts } })
    {st : Status} {r : Option Result} (hr : st = .ok → (resultKind op).fits r = true) :
    (Tick.moved (w.endOp st r)).Keeps v := by
  obtain ⟨fb, ts, rfl⟩ := hw
  obtain ⟨s, phase, stack, -, -, outer, below⟩ := h
  obtain ⟨⟨hcs, heng, hctl, hop, hinv, hfr⟩, owns⟩ := s
  rw [phase] at hcs owns
  rw [stack] at hop
  have heng' : v.c.txBuf = none ∧ v.c.txIdx = none ∧ v.c.rxLen = none ∧ v.c.rxBuf = none ∧ v.c.pollCnt = none := by
    unfold Handle.engineOk at heng; rw [phase] at heng; exact heng
  by_cases e : op = .getInventory16Slots
  · have hfs := outer e
    subst hfs
    refine ⟨⟨⟨?_, ?_, ?_, ?_, ?_, ?_⟩, ?_⟩, rfl, rfl, fun h _ => Iff.rfl⟩
    · simp only [View.endOp, View.record, clearInventory, e, if_true, phase]; exact hcs
    · simp only [View.endOp, View.record, clearInventory, e, if_true, Handle.engineOk, phase]; exact heng'
    · simp only [View.endOp, View.record, clearInventory, e, if_true, Handle.controlOk, phase]
      exact ⟨.anything, trivial, rfl⟩
    · simp [View.endOp, View.record, clearInventory, e]
    · simp [View.endOp, View.record, clearInventory, e]
    · simp [View.endOp, View.record, clearInventory, e]
    · simp only [View.endOp, View.record, clearInventory, e, if_true, phase]; exact owns
  · refine ⟨⟨⟨?_, ?_, ?_, ?_, ?_, ?_⟩, ?_⟩, rfl, rfl, fun h _ => Iff.rfl⟩
    · simp only [View.endOp, View.record, clearInventory, if_neg e, phase]; exact hcs
    · simp only [View.endOp, View.record, clearInventory, if_neg e, Handle.engineOk, phase]; exact heng'
    · simp only [View.endOp, View.record, clearInventory, if_neg e, Handle.controlOk, phase]
      exact ⟨.outcomeOf (resultKind op), hr, below⟩
    · simp only [View.endOp, View.record, clearInventory, if_neg e]
      rw [hop]
      cases fs <;> simp [List.getLast?_cons]
    · simp only [View.endOp, View.record, clearInventory, if_neg e]
      by_cases hfs : fs = []
      · subst hfs
        have : v.c.op = some op := by simpa using hop
        intro _
        exact hinv (by rw [this]; simpa using e)
      · simpa only [if_neg hfs] using hinv
    · simp only [View.endOp, View.record, clearInventory, if_neg e]; exact hfr
    · simp only [View.endOp, View.record, clearInventory, if_neg e, phase]; exact owns

/-- An operation that ends with an error. -/
theorem View.Inside.keeps_raise {v w : View} {k : Know} {op : Instr} {todo todo' : List Micro} {fs : List Frame}
    (h : v.Inside k op todo fs)
    (hw : ∃ fb ts, w = { v with c := { v.c with stack := ⟨op, todo'⟩ :: fs, tsFallback := fb, timeoutStage := ts } })
    {e : Status} (he : e ≠ .ok) : (Tick.moved (w.raise e)).Keeps v := by
  have : w.raise e = w.endOp e (failureResult op) := by
    obtain ⟨fb, ts, rfl⟩ := hw; rfl
  rw [this]
  exact h.keeps_end hw (fun x => absurd x he)

/-! ### The programs are sound -/

theorem programOf_todoOk (p : Params) (i : Instr) (iv sl : Bool) : todoOk i .anything iv sl (programOf p i) = true := by
  cases i <;>
    simp [programOf, progTransact, progWriteRegister, progWriteRegisterOr, progWriteRegisterAnd, progReadRegister,
      progReadEeprom, progSendData, progReadData, progLoadRfConfig, progRfOn, progRfOff, progGetIrqStatus,
      progClearIrqStatus, progGetTransceiveState, progBegin, progReset, progSendEof, progSetupRf, progGetInventory, rearm,
      todoOk, resultKind, Know.checked]

theorem slotBody_todoOk (p : Params) (k : Know) (r : List Micro)
    (h : todoOk .getInventory16Slots .anything true true r = true) :
    todoOk .getInventory16Slots k true true (slotBody p ++ r) = true := by
  unfold slotBody slotCheck slotAdvance rearm
  by_cases hd : 0 < p.tSlotMs <;> simp [hd, todoOk, resultKind, Know.checked, h]

theorem slotResponse_todoOk (p : Params) (k : Know) (sl : Bool) (r : List Micro)
    (h : todoOk .getInventory16Slots .anything true sl r = true) :
    todoOk .getInventory16Slots k true sl (slotResponse p ++ r) = true := by
  simp [slotResponse, todoOk, resultKind, Know.checked, h]

theorem Know.holds_checked {k : Know} {r : Ret} (h : k.holds r) (ok : r.status = .ok) : k.checked.holds r := by
  cases k with
  | anything => trivial
  | outcomeOf k => exact ⟨ok, h ok⟩
  | valueOf k => exact h

/-- Steps of the pseudocode of the operation in progress. -/
theorem microStep_keeps {v : View} {k : Know} {op : Instr} {m : Micro} {rest : List Micro} {fs : List Frame}
    (h : v.Inside k op (m :: rest) fs) :
    (microStep v { v with c := { v.c with stack := ⟨op, rest⟩ :: fs } } op m).Keeps v := by
  have hk := h.known
  have hr := h.remains
  have hself : ∃ fb ts, ({ v with c := { v.c with stack := ⟨op, rest⟩ :: fs } } : View) =
      { v with c := { v.c with stack := ⟨op, rest⟩ :: fs, tsFallback := fb, timeoutStage := ts } } :=
    ⟨v.c.tsFallback, v.c.timeoutStage, rfl⟩
  have hnss : v.c.nss ≠ some low := by
    have := h.sound.ok.chipSelect; rw [h.phase] at this; simpa [assertsNss] using this
  cases m with
  | initCheck =>
    simp only [todoOk] at hr
    simp only [microStep]
    split
    · exact h.keeps_at hk hr
    · exact h.keeps_raise hself (by simp)
  | rangeCheck =>
    simp only [todoOk] at hr
    simp only [microStep]
    split
    · exact h.keeps_at hk hr
    · exact h.keeps_raise hself (by simp)
  | transact tx n =>
    simp only [microStep]
    split
    · exact h.keeps_raise hself (by simp)
    · rename_i hne
      obtain ⟨s, phase, stack, -, -, outer, below⟩ := h
      obtain ⟨⟨hcs, heng, hctl, hop, hinv, hfr⟩, owns⟩ := s
      refine ⟨⟨⟨?_, ?_, ?_, hop, hinv, hfr⟩, ?_⟩, rfl, rfl, fun h _ => Iff.rfl⟩
      · rw [phase] at hcs
        simpa [assertsNss] using hcs
      · unfold Handle.engineOk at *
        rw [phase] at heng
        simpa [ownsBus] using heng
      · refine ⟨op, tx, n, rest, fs, stack, hne, ?_⟩
        rw [show (v.enter .arb).c.stack = ⟨op, .transact tx n :: rest⟩ :: fs from stack]
        simp only [stackOk, Bool.and_eq_true, Bool.or_eq_true, decide_eq_true_eq, List.isEmpty_iff]
        refine ⟨⟨?_, ?_⟩, below⟩
        · simp only [todoOk] at hr ⊢; exact hr
        · by_cases e : op = .getInventory16Slots
          · exact .inr (outer e)
          · exact .inl e
      · rw [phase] at owns
        simpa [ownsBus] using owns
  | call i =>
    simp only [todoOk, Bool.and_eq_true, decide_eq_true_eq] at hr
    obtain ⟨s, phase, stack, -, -, outer, below⟩ := h
    obtain ⟨⟨hcs, heng, hctl, hop, hinv, hfr⟩, owns⟩ := s
    simp only [microStep]
    refine ⟨⟨⟨?_, ?_, ?_, ?_, ?_, ?_⟩, ?_⟩, ?_, ?_, ?_⟩
    · simpa [View.startOp] using hcs
    · unfold Handle.engineOk at *
      simpa [View.startOp] using heng
    · unfold Handle.controlOk
      simp only [View.startOp, View.debug_c, View.record_c, phase]
      refine ⟨.anything, trivial, ?_⟩
      simp only [stackOk, Bool.and_eq_true, Bool.or_eq_true, decide_eq_true_eq, List.isEmpty_iff]
      refine ⟨⟨programOf_todoOk _ _ _ _, .inl hr.1⟩, ⟨hr.2, ?_⟩, below⟩
      by_cases e : op = .getInventory16Slots
      · exact .inr (outer e)
      · exact .inl e
    · simp only [View.startOp, View.debug_c, View.record_c]
      rw [hop, stack]
      cases fs <;> simp [List.getLast?_cons]
    · simpa [View.startOp] using hinv
    · simpa [View.startOp] using hfr
    · simpa [View.startOp] using owns
    · simp [View.startOp]
    · simp [View.startOp]
    · intro h _; simp [View.startOp]
  | propagate =>
    simp only [todoOk] at hr
    simp only [microStep]
    split
    · rename_i hok
      exact h.keeps_at (Know.holds_checked hk hok) hr
    · rename_i hne
      exact h.keeps_raise hself hne
  | irqPoll bit stage n =>
    simp only [todoOk] at hr
    exact h.keeps_at (todo' := .call .getIrqStatus :: .propagate :: .irqTest bit stage n :: rest) hk
      (by simp [todoOk, resultKind, Know.checked, hr])
  | irqTest bit stage n =>
    simp only [todoOk, Bool.and_eq_true, decide_eq_true_eq] at hr
    obtain ⟨rfl, hr⟩ := hr
    obtain ⟨hok, hfit⟩ := hk
    simp only [microStep, irqTest]
    split
    · split
      · exact h.keeps_at h.known hr
      · split
        · exact h.keeps_raise ⟨v.c.tsFallback, some stage, rfl⟩ (by simp)
        · exact h.keeps_at (todo' := .irqPoll bit stage (n + 1) :: rest) h.known (by simp [todoOk, hr])
    · rename_i hno
      cases hres : v.c.ret.result with
      | none => rw [hres] at hfit; cases hfit
      | some r =>
        cases r <;> simp_all [Kind.fits]
  | setRst active =>
    simp only [todoOk] at hr
    simp only [microStep]
    exact h.keeps_todo (k' := k) (todo' := rest) (by simp) (by simp) (by simp) (by simpa using h.phase) (by simp) (by simp)
      (by simp) (by simpa using hnss) (by simpa using hk) (by simpa [Handle.hasInventory] using hr)
      (by simpa [Handle.hasInventory] using h.below) (by simpa using h.sound.ok.inventoryEnded)
      (by simpa using h.sound.ok.framesCounted)
  | deselect =>
    simp only [todoOk] at hr
    simp only [microStep]
    exact h.keeps_todo (k' := k) (todo' := rest) (by simp) (by simp) (by simp) (by simpa using h.phase) (by simp) (by simp)
      (by simp) (by simp) (by simpa using hk) (by simpa [Handle.hasInventory] using hr)
      (by simpa [Handle.hasInventory] using h.below) (by simpa using h.sound.ok.inventoryEnded)
      (by simpa using h.sound.ok.framesCounted)
  | setBegun =>
    simp only [todoOk] at hr
    exact h.keeps_todo (k' := k) (todo' := rest) rfl rfl rfl h.phase rfl rfl ⟨rfl, rfl, rfl, rfl, rfl⟩ hnss hk hr h.below
      h.sound.ok.inventoryEnded h.sound.ok.framesCounted
  | delay t =>
    simp only [todoOk] at hr
    exact h.keeps_todo (k' := k) (todo' := rest) rfl rfl rfl h.phase rfl rfl ⟨rfl, rfl, rfl, rfl, rfl⟩ hnss hk hr h.below
      h.sound.ok.inventoryEnded h.sound.ok.framesCounted
  | stateCheck =>
    simp only [todoOk, Bool.and_eq_true, decide_eq_true_eq] at hr
    obtain ⟨rfl, hr⟩ := hr
    obtain ⟨hok, hfit⟩ := hk
    simp only [microStep, stateCheck]
    split
    · exact h.keeps_raise hself (by simp)
    · split
      · split
        · exact h.keeps_at h.known hr
        · exact h.keeps_raise hself (by simp)
      · rename_i hno
        cases hres : v.c.ret.result with
        | none => rw [hres] at hfit; cases hfit
        | some r => cases r <;> simp_all [Kind.fits]
  | returnTrue =>
    simp only [todoOk, decide_eq_true_eq] at hr
    exact h.keeps_end hself (fun _ => by rw [hr]; rfl)
  | returnBytes =>
    simp only [todoOk] at hr
    cases hkind : resultKind op with
    | bytes n =>
      rw [hkind] at hr
      simp only [decide_eq_true_eq] at hr
      subst hr
      obtain ⟨hok, hfit⟩ := hk
      simp only [microStep, returnBytes]
      split
      · rename_i bs hres
        exact h.keeps_end hself (fun _ => by rw [hkind]; have : v.c.ret.result = some (.bytes bs) := hres; rw [this] at hfit; exact hfit)
      · rename_i hno
        cases hres : v.c.ret.result with
        | none => rw [hres] at hfit; cases hfit
        | some r => cases r <;> simp_all [Kind.fits]
    | nothing => rw [hkind] at hr; cases hr
    | register => rw [hkind] at hr; cases hr
    | word => rw [hkind] at hr; cases hr
    | transceiver => rw [hkind] at hr; cases hr
    | bool => rw [hkind] at hr; cases hr
    | inventory => rw [hkind] at hr; cases hr
  | returnRegister =>
    simp only [todoOk, Bool.and_eq_true, decide_eq_true_eq] at hr
    obtain ⟨rfl, hkind⟩ := hr
    obtain ⟨hok, hfit⟩ := hk
    simp only [microStep, returnRegister]
    split
    · exact h.keeps_end hself (fun _ => by rw [hkind]; rfl)
    · rename_i hno
      cases hres : v.c.ret.result with
      | none => rw [hres] at hfit; cases hfit
      | some r =>
        cases r with
        | bytes bs =>
          rw [hres] at hfit
          simp only [Kind.fits, decide_eq_true_eq] at hfit
          match bs, hfit with
          | [b0, b1, b2, b3], _ => exact absurd hres (hno b0 b1 b2 b3)
        | _ => rw [hres] at hfit; cases hfit
  | returnWord =>
    simp only [todoOk, Bool.and_eq_true, decide_eq_true_eq] at hr
    obtain ⟨rfl, hkind⟩ := hr
    obtain ⟨hok, hfit⟩ := hk
    simp only [microStep, returnWord]
    split
    · exact h.keeps_end hself (fun _ => by rw [hkind]; rfl)
    · rename_i hno
      cases hres : v.c.ret.result with
      | none => rw [hres] at hfit; cases hfit
      | some r => cases r <;> simp_all [Kind.fits]
  | returnState =>
    simp only [todoOk, Bool.and_eq_true, decide_eq_true_eq] at hr
    obtain ⟨rfl, hkind⟩ := hr
    simp only [microStep, returnState]
    split
    · rename_i hok
      have hfit := hk hok
      split
      · exact h.keeps_end ⟨false, v.c.timeoutStage, rfl⟩ (fun _ => by rw [hkind]; rfl)
      · rename_i hno
        cases hres : v.c.ret.result with
        | none => rw [hres] at hfit; cases hfit
        | some r => cases r <;> simp_all [Kind.fits]
    · exact h.keeps_end ⟨true, v.c.timeoutStage, rfl⟩ (fun _ => by rw [hkind]; rfl)
  | invStart =>
    simp only [todoOk, Bool.and_eq_true, decide_eq_true_eq] at hr
    obtain ⟨rfl, hr⟩ := hr
    have hop := h.isInventory rfl
    obtain rfl := h.outer rfl
    exact h.keeps_todo (k' := k) (todo' := rest) rfl rfl rfl h.phase rfl rfl ⟨rfl, rfl, rfl, rfl, rfl⟩ hnss hk hr rfl
      (fun x => absurd hop x) (fun c f h1 h2 => by
        simp only [Option.some.injEq] at h1 h2; subst h1; subst h2; rfl)
  | invPhase ph =>
    simp only [todoOk, Bool.and_eq_true, decide_eq_true_eq] at hr
    obtain ⟨rfl, hr⟩ := hr
    have hop := h.isInventory rfl
    exact h.keeps_todo (k' := k) (todo' := rest) rfl rfl rfl h.phase rfl rfl ⟨rfl, rfl, rfl, rfl, rfl⟩ hnss hk hr h.below
      (fun x => absurd hop x) h.sound.ok.framesCounted
  | invSlotZero =>
    simp only [todoOk, Bool.and_eq_true, decide_eq_true_eq] at hr
    obtain ⟨rfl, hr⟩ := hr
    have hop := h.isInventory rfl
    obtain rfl := h.outer rfl
    exact h.keeps_todo (k' := k) (todo' := rest) rfl rfl rfl h.phase rfl rfl ⟨rfl, rfl, rfl, rfl, rfl⟩ hnss hk hr rfl
      (fun x => absurd hop x) h.sound.ok.framesCounted
  | slotLoop =>
    simp only [todoOk, Bool.and_eq_true, decide_eq_true_eq] at hr
    obtain ⟨⟨⟨rfl, hiv⟩, hsl⟩, hr⟩ := hr
    simp only [microStep, slotLoop]
    split
    · rename_i hnone
      have : v.c.invSlot = none := hnone
      rw [this] at hsl; cases hsl
    · split
      · refine h.keeps_at (todo' := slotBody v.params ++ rest) hk ?_
        rw [hiv, hsl] at *
        exact slotBody_todoOk _ _ _ hr
      · exact h.keeps_at (k' := .anything) trivial hr
  | sofTest =>
    simp only [todoOk, Bool.and_eq_true, decide_eq_true_eq] at hr
    obtain ⟨⟨⟨rfl, hiv⟩, rfl⟩, hr⟩ := hr
    obtain ⟨hok, hfit⟩ := hk
    simp only [microStep, sofTest]
    split
    · split
      · refine h.keeps_at (todo' := slotResponse v.params ++ rest) h.known ?_
        rw [hiv] at *
        exact slotResponse_todoOk _ _ _ _ hr
      · exact h.keeps_at (k' := .anything) trivial hr
    · rename_i hno
      cases hres : v.c.ret.result with
      | none => rw [hres] at hfit; cases hfit
      | some r => cases r <;> simp_all [Kind.fits]
  | slotRead =>
    simp only [todoOk, Bool.and_eq_true, decide_eq_true_eq] at hr
    obtain ⟨⟨⟨rfl, hiv⟩, rfl⟩, hr⟩ := hr
    obtain ⟨hok, hfit⟩ := hk
    simp only [microStep, slotRead]
    split
    · rename_i bs value hres
      exact h.keeps_at (todo' := .call (.readData (responseLength v.params value)) :: .slotFrame :: rest) h.known
        (by simp [todoOk, resultKind, hiv]; rw [hiv] at hr; exact hr)
    · rename_i hno
      cases hres : v.c.ret.result with
      | none => rw [hres] at hfit; cases hfit
      | some r => cases r <;> simp_all [Kind.fits]
  | slotFrame =>
    cases k with
    | anything => simp [todoOk] at hr
    | valueOf k => simp [todoOk] at hr
    | outcomeOf kk =>
      cases kk with
      | bytes n =>
        simp only [todoOk, Bool.and_eq_true, decide_eq_true_eq] at hr
        obtain ⟨⟨rfl, hiv⟩, hr⟩ := hr
        have hop := h.isInventory rfl
        obtain rfl := h.outer rfl
        have hiv' := hiv
        simp only [Handle.hasInventory, Bool.and_eq_true, Option.isSome_iff_exists] at hiv'
        obtain ⟨⟨cnt, hcnt⟩, frs, hfrs⟩ := hiv'
        have hlen := h.sound.ok.framesCounted cnt frs hcnt hfrs
        simp only [microStep, slotFrame]
        split
        · rename_i hok
          have hfit := hk hok
          cases hres : v.c.ret.result with
          | none => rw [hres] at hfit; cases hfit
          | some r =>
            cases r with
            | bytes bs =>
              simp only [hfrs, hcnt]
              refine h.keeps_todo (k' := .anything) (todo' := rest) rfl rfl rfl h.phase rfl rfl ⟨rfl, rfl, rfl, rfl, rfl⟩ hnss
                trivial ?_ rfl (fun x => absurd hop x) ?_
              · rw [hiv] at hr; exact hr
              · intro c f h1 h2
                simp only [Option.some.injEq] at h1 h2
                subst h1; subst h2
                simp [hlen]
            | _ => rw [hres] at hfit; cases hfit
        · split
          · exact h.keeps_at (k' := .anything) trivial hr
          · rename_i hne _
            exact h.keeps_raise hself hne
      | _ => simp [todoOk] at hr
  | eofCheck =>
    simp only [todoOk] at hr
    simp only [microStep]
    split
    · exact h.keeps_raise hself (by simp)
    · exact h.keeps_at (k' := .anything) trivial hr
  | slotNext =>
    simp only [todoOk, Bool.and_eq_true, decide_eq_true_eq] at hr
    obtain ⟨⟨rfl, hsl⟩, hr⟩ := hr
    have hop := h.isInventory rfl
    obtain rfl := h.outer rfl
    simp only [microStep]
    split
    · rename_i hnone
      have : v.c.invSlot = none := hnone
      rw [this] at hsl; cases hsl
    · rw [hsl] at hr
      exact h.keeps_todo (k' := .anything) (todo' := rest) rfl rfl rfl h.phase rfl rfl ⟨rfl, rfl, rfl, rfl, rfl⟩ hnss trivial hr
        rfl (fun x => absurd hop x) h.sound.ok.framesCounted
  | invReturn =>
    simp only [todoOk, Bool.and_eq_true, decide_eq_true_eq] at hr
    obtain ⟨rfl, hiv⟩ := hr
    have hiv' := hiv
    simp only [Handle.hasInventory, Bool.and_eq_true, Option.isSome_iff_exists] at hiv'
    obtain ⟨⟨cnt, hcnt⟩, frs, hfrs⟩ := hiv'
    have hlen := h.sound.ok.framesCounted cnt frs hcnt hfrs
    simp only [microStep, invReturn, hcnt, hfrs]
    have := h.keeps_end hself (st := .ok) (r := some (.inventory (if 1 ≤ cnt then .ok else .noCard) cnt frs))
      (fun _ => by simp [resultKind, Kind.fits, hlen])
    simpa only [hcnt, hfrs] using this

/-- Every transition of a controller keeps its invariant, its agreement with the arbiter and everything of the other handles,
and none faults (10_state.md R29, R44). -/
theorem tick_keeps {v : View} (s : v.Sound) : (tick v).Keeps v := by
  by_cases phase : v.c.tePhase = .idle
  · rw [tick_idle phase]
    cases hst : v.c.stack with
    | nil => simp only [tickIdle, hst]; trivial
    | cons f fs =>
      obtain ⟨op, todo⟩ := f
      obtain ⟨k, h⟩ := s.inside phase hst
      cases todo with
      | nil =>
        simp only [tickIdle, hst]
        have hr := h.remains
        simp only [todoOk, decide_eq_true_eq] at hr
        have e : v = { v with c := { v.c with stack := ⟨op, []⟩ :: fs } } := by
          cases v with | mk i p c b => cases c; simp_all
        exact h.keeps_end (todo' := []) ⟨v.c.tsFallback, v.c.timeoutStage, e⟩ (fun _ => by rw [hr]; rfl)
      | cons m rest =>
        simp only [tickIdle, hst]
        exact microStep_keeps h
  · rw [tick_engine rfl phase]
    exact tickEngine_keeps s rfl phase

/-- What a turn keeps. -/
theorem run_keeps : ∀ (q : Nat) {v : View}, v.Sound → ∃ w, run q v = .ok w ∧ w.Sound ∧ w.id = v.id ∧ w.params = v.params ∧
    ∀ h, h ≠ v.id → (w.bus.busOwner = some h ↔ v.bus.busOwner = some h)
  | 0, v, s => ⟨v, rfl, s, rfl, rfl, fun _ _ => Iff.rfl⟩
  | q + 1, v, s => by
    have hk := tick_keeps s
    simp only [run]
    cases ht : tick v with
    | moved w =>
      rw [ht] at hk
      obtain ⟨hs, hid, hp, ho⟩ := hk
      obtain ⟨u, hu, hus, hui, hup, huo⟩ := run_keeps q hs
      exact ⟨u, hu, hus, hui.trans hid, hup.trans hp, fun h hne => (huo h (hid ▸ hne)).trans (ho h hne)⟩
    | held => exact ⟨v, rfl, s, rfl, rfl, fun _ _ => Iff.rfl⟩
    | fault f => rw [ht] at hk; exact hk.elim

end Sys2Proof.Machine
end

