-- ==== Sys2Proof/Laws/Outcomes.lean ====
section
/-! SUPPORT. The other ways an operation goes: before BEGIN, BEGIN itself, RESET, waits that run out and waits that hang. -/

namespace Sys2Proof.Machine

/-- Every instruction is the issue of its host operation. -/
theorem exec_eq_issue (i : Instr) (s : State) :
    exec i s = issue (operationOf i) (fun p => programOf p (operationOf i)) s := by
  cases i <;> rfl

/-- An instruction that a ready controller performs within the turn leads to the state that its lemma says. -/
theorem exec_performs {s : State} {c : Handle} {i : Instr} {xs : List Xfer} {st : Status} {r : Option Result}
    {fb : Bool → Bool} {body : Nat → Trail} {k : Nat} {busyRest : List Level} {dataRest : List Byte}
    (perf : Performs s.params (operationOf i) xs st r fb body k) (ready : Ready s c)
    (answers : Answers s c xs busyRest dataRest) (turn : k ≤ budget xs) :
    exec i s = .next (s.after
      { c.ended st r xs.length busyRest dataRest with tsFallback := fb c.tsFallback }
      (trailOp s.params s.now.handle (operationOf i) st r (body s.now.handle))) := by
  rw [exec_eq_issue]
  exact issue_performs perf rfl ready answers turn

theorem ticks_le_budget (x : Xfer) : x.ticks + 9 ≤ budget [x] := by
  have := x.ticks_le
  simp [budget_eq]; omega

theorem operationOf_idem (i : Instr) : operationOf (operationOf i) = operationOf i := by cases i <;> rfl

theorem errorResult_operationOf (i : Instr) : errorResult (operationOf i) = errorResult i := by cases i <;> rfl

theorem failureResult_eq (i : Instr) : failureResult i = errorResult i := by cases i <;> rfl

/-- Every operation but BEGIN begins with the initialisation check. -/
theorem programOf_initCheck (p : Params) (i : Instr) (ne : i ≠ .beginLines) :
    ∃ rest, programOf p i = .initCheck :: rest := by
  cases i <;> first | exact absurd rfl ne | exact ⟨_, rfl⟩

/-- The operations with failing arguments run their range checks second, and fail them. -/
theorem OutOfRange.checked {p : Params} {i : Instr} (h : OutOfRange p i) :
    i ≠ .getInventory16Slots ∧ rangeOk p i = false ∧ ∃ rest, programOf p i = .initCheck :: .rangeCheck :: rest := by
  cases h <;> refine ⟨by simp, ?_, ⟨_, rfl⟩⟩ <;> simp only [rangeOk, Bool.and_eq_false_iff, decide_eq_false_iff_not,
    List.length_nil] <;> omega

/-- An issued operation that ends at its first step. -/
theorem issue_notInitialised {s : State} {c : Handle} {i : Instr} {prog : Params → List Micro} {rest : List Micro}
    (hprog : prog s.params = .initCheck :: rest) (here : s.handles[s.now.handle]? = some c) (noOp : c.op = none)
    (noStack : c.stack = []) (phase : c.tePhase = .idle) (begun : c.begun = false) (turn : 1 ≤ s.now.quantum) :
    issue i prog s = .next (s.after
      (clearInventory i { c with status := some .notInitialised, result := errorResult i, ret := ⟨.notInitialised, errorResult i⟩ })
      (trailOp s.params s.now.handle i .notInitialised (errorResult i) .empty)) := by
  have h1 : tick ((s.issued c i).startOp i (prog s.params)) = .moved (View.endOp ((s.issued c i).startOp i rest) .notInitialised
      (failureResult i)) := by
    rw [tick_idle (by simp [View.startOp, State.issued, phase])]
    simp [tickIdle, View.startOp, State.issued, noStack, hprog, microStep, begun, View.raise, debug_eq, View.record]
  rw [issue_reaches here noOp (Reaches.of_tick h1) (by simp [View.endOp, View.startOp, State.issued, noStack, phase, debug_eq, View.record, clearInventory]; split <;> simp) (by simp [View.endOp, View.startOp, State.issued, noStack, debug_eq, View.record]) turn]
  rw [failureResult_eq]
  cases c
  simp only at noOp noStack phase begun
  subst noOp noStack phase begun
  simp [State.put, State.after, View.endOp, View.startOp, State.issued, debug_eq, View.record, Shared.extend, trailOp, Trail.empty, clearInventory]
  split <;> simp

/-! ### BEGIN and the reset pulse -/

theorem setNss_eq (v : View) (l : Level) : v.setNss l = { v with
    c := { v.c with nss := some l }
    bus := v.bus.extend ⟨if v.c.nss = some l then [] else [.nss v.id l], [], []⟩ } := by
  cases v with | mk i p c b => cases c; cases b; unfold View.setNss; split <;> simp_all [View.record, Shared.extend]

theorem setRst_eq (v : View) (l : Level) : v.setRst l = { v with
    c := { v.c with rst := some l }
    bus := v.bus.extend ⟨if v.c.rst = some l then [] else [.rst v.id l], [], []⟩ } := by
  cases v with | mk i p c b => cases c; cases b; unfold View.setRst; split <;> simp_all [View.record, Shared.extend]

/-- BEGIN, from any controller with no operation and no transaction in progress. -/
theorem issue_begin {s : State} {c : Handle} (here : s.handles[s.now.handle]? = some c) (noOp : c.op = none)
    (noStack : c.stack = []) (phase : c.tePhase = .idle) (turn : 4 ≤ s.now.quantum) :
    issue .beginLines (fun _ => progBegin) s = .next (s.after
      { c with rst := some (!s.params.rstActiveLevel), nss := some high, begun := true, status := some .ok, result := none, ret := ⟨.ok, none⟩ }
      (trailOp s.params s.now.handle .beginLines .ok none (trailLines s.params s.now.handle c))) := by
  let w (m : List Micro) (c' : Handle) (t : Trail) : View := ⟨s.now.handle, s.params, { c' with op := some .beginLines, stack := [⟨.beginLines, m⟩] },
    (s.shared.extend ⟨[.opStart s.now.handle .beginLines], [], traced s.params ⟨s.now.handle, some .beginLines, none, []⟩⟩).extend t⟩
  let c1 : Handle := { c with rst := some (!s.params.rstActiveLevel) }
  let c2 : Handle := { c1 with nss := some high }
  let c3 : Handle := { c2 with begun := true }
  let t1 : Trail := ⟨if c.rst = some (!s.params.rstActiveLevel) then [] else [.rst s.now.handle (!s.params.rstActiveLevel)], [], []⟩
  have e0 : (s.issued c .beginLines).startOp .beginLines progBegin = w progBegin c .empty := by
    simp [w, View.startOp, State.issued, noStack, debug_eq, View.record, Shared.extend, Trail.empty, registerAddress, operandBytes]
  have step {m : Micro} {rest : List Micro} {c' : Handle} {t : Trail} {u : View} (ph : c'.tePhase = .idle)
      (h : microStep (w (m :: rest) c' t) (w rest c' t) .beginLines m = .moved u) : Reaches 1 (w (m :: rest) c' t) u :=
    Reaches.micro (op := .beginLines) (m := m) (rest := rest) (fs := []) ph rfl h
  have s1 : Reaches 1 (w progBegin c .empty) (w [.deselect, .setBegun] c1 t1) := step phase (by
    simp only [microStep, setRst_eq, rstLevel]
    simp [w, c1, t1, Shared.extend, Trail.empty])
  have s2 : Reaches 1 (w [.deselect, .setBegun] c1 t1) (w [.setBegun] c2 (trailLines s.params s.now.handle c)) := step phase (by
    simp only [microStep, setNss_eq]
    simp [w, c1, c2, t1, Shared.extend, trailLines])
  have s3 : Reaches 1 (w [.setBegun] c2 (trailLines s.params s.now.handle c)) (w [] c3 (trailLines s.params s.now.handle c)) :=
    step phase rfl
  have s4 : Reaches 1 (w [] c3 (trailLines s.params s.now.handle c))
      ((w [] c3 (trailLines s.params s.now.handle c)).endOp .ok none) := Reaches.of_tick (tick_end phase rfl)
  rw [issue_reaches (prog := fun _ => progBegin) here noOp (e0 ▸ (((s1.trans s2).trans s3).trans s4)) phase rfl turn]
  cases c
  simp only at noOp noStack
  subst noOp noStack
  simp [State.put, State.after, View.endOp, w, c3, c2, c1, View.record, Shared.extend, trailOp, clearInventory, trailLines,
    registerAddress, operandBytes]

/-! ### RESET -/

/-- The view with the reset line at a level. -/
def View.rstAt (v : View) (l : Level) : View := { v with c := { v.c with rst := some l } }

theorem View.Calm.rstAt {v : View} (calm : v.Calm) (l : Level) : (v.rstAt l).Calm := by cases calm; constructor <;> assumption

/-- The progress after a trail of the operation's own. -/
def Progress.noted (g : Progress) (t : Trail) : Progress := { g with body := g.body.append t }

theorem mid_setRst {v : View} {i : Instr} {rest : List Micro} {g : Progress} {active : Bool} (calm : v.Calm) :
    Reaches 1 (v.mid i (.setRst active :: rest) g) ((v.rstAt (rstLevel v.params active)).mid i rest
      (g.noted ⟨if v.c.rst = some (rstLevel v.params active) then [] else [.rst v.id (rstLevel v.params active)], [], []⟩)) :=
  mid_step calm (by
    simp only [microStep, setRst_eq]
    simp [View.mid, View.rstAt, Progress.noted, Shared.extend, Trail.append]
    rfl)

theorem mid_delay {v : View} {i : Instr} {rest : List Micro} {g : Progress} {t : Duration} (calm : v.Calm) :
    Reaches 1 (v.mid i (.delay t :: rest) g) (v.mid i rest (g.noted (trailDelay v.id t))) :=
  mid_step calm (by simp [microStep, View.wait, View.record, View.mid, Progress.noted, Shared.extend, Trail.append, trailDelay])

/-- The reset pulse and the ramp (42_radio_controller.md R202). -/
theorem mid_pulse {v : View} {i : Instr} {rest : List Micro} {g : Progress} (calm : v.Calm) :
    Reaches 4 (v.mid i (.setRst true :: .delay (.us v.params.tRstPulseUs) :: .setRst false :: .delay (.ms v.params.tRampMs) :: rest) g)
      ((v.rstAt (!v.params.rstActiveLevel)).mid i rest (g.noted (trailPulse v.params v.id v.c.rst))) := by
  have s1 := mid_setRst (i := i) (active := true) (g := g)
    (rest := .delay (.us v.params.tRstPulseUs) :: .setRst false :: .delay (.ms v.params.tRampMs) :: rest) calm
  have s2 := mid_delay (i := i) (t := .us v.params.tRstPulseUs)
    (rest := .setRst false :: .delay (.ms v.params.tRampMs) :: rest) (calm.rstAt (rstLevel v.params true))
    (g := g.noted ⟨if v.c.rst = some (rstLevel v.params true) then [] else [.rst v.id (rstLevel v.params true)], [], []⟩)
  have s3 := mid_setRst (i := i) (active := false) (rest := .delay (.ms v.params.tRampMs) :: rest)
    (calm.rstAt (rstLevel v.params true))
    (g := (g.noted ⟨if v.c.rst = some (rstLevel v.params true) then [] else [.rst v.id (rstLevel v.params true)], [], []⟩).noted
      (trailDelay v.id (.us v.params.tRstPulseUs)))
  have s4 := mid_delay (i := i) (t := .ms v.params.tRampMs) (rest := rest) ((calm.rstAt (rstLevel v.params true)).rstAt (rstLevel v.params false))
    (g := ((g.noted ⟨if v.c.rst = some (rstLevel v.params true) then [] else [.rst v.id (rstLevel v.params true)], [], []⟩).noted
      (trailDelay v.id (.us v.params.tRstPulseUs))).noted ⟨[.rst v.id (rstLevel v.params false)], [], []⟩)
  have hne : ¬ (v.params.rstActiveLevel = !v.params.rstActiveLevel) := by cases v.params.rstActiveLevel <;> decide
  have h := (s1.trans s2).trans (Reaches.trans (s3.cast rfl) (by
    simpa [View.rstAt, rstLevel, hne] using s4))
  simpa [Progress.noted, trailPulse, trailDelay, View.rstAt, rstLevel, Trail.append] using h

/-- The transitions of RESET. -/
def ResetXfers.ticks (t : ResetXfers) : Nat := waitTicks t.misses t.hit + t.clear.ticks + 17

theorem ResetXfers.ticks_le (t : ResetXfers) : t.ticks ≤ budget t.all := by
  have h1 := waitTicks_le t.misses t.hit
  have h2 := t.clear.ticks_le
  rw [budget_eq]
  simp only [ResetXfers.ticks, ResetXfers.all, List.length_append, List.length_cons, List.length_nil,
    List.map_append, List.map_cons, List.map_nil, List.sum_append, List.sum_cons, List.sum_nil]
  omega

/-- RESET, from its start to its end. -/
theorem reset_completes {t : ResetXfers} (v : View) (bs : List Level) (ds : List Byte) (ok : v.params.InRange) (calm : v.Calm)
    (starts : t.Starts v.params) (fits : ∀ x ∈ t.all, x.Fits v.params) (busy : v.c.busyIn = t.all.flatMap Xfer.busy ++ bs)
    (data : v.c.dataIn = t.all.flatMap Xfer.data ++ ds) :
    Reaches t.ticks (v.startOp .resetChip (progReset v.params))
      ((v.rstAt (!v.params.rstActiveLevel)).did .resetChip .ok none v.c.tsFallback t.all.length bs ds
        (.concat ([trailPulse v.params v.id v.c.rst] ++ t.misses.map (trailIrqRead v.params v.id) ++
          [trailIrqRead v.params v.id t.hit, trailClear v.params v.id v.params.allIrqMask.toNat t.clear]))) := by
  obtain ⟨hm, hl, hh, hc⟩ := starts
  rw [startOp_mid]
  let tail : List Micro := [.call (.clearIrqStatus v.params.allIrqMask.toNat), .propagate]
  have s1 := mid_init (i := .resetChip) (g := v.begins) (rest := [.setRst true, .delay (.us v.params.tRstPulseUs), .setRst false,
    .delay (.ms v.params.tRampMs), .irqPoll v.params.irqBitIdle .wStartup 0] ++ tail) calm
  have s2 := mid_pulse (i := .resetChip) (g := v.begins) (rest := .irqPoll v.params.irqBitIdle .wStartup 0 :: tail) calm
  let w := v.rstAt (!v.params.rstActiveLevel)
  have cw : w.Calm := calm.rstAt _
  let g1 := v.begins.noted (trailPulse v.params v.id v.c.rst)
  have s3 := mid_irq_wait (v := w) (i := .resetChip) (rest := tail) (stage := .wStartup) (bs := t.clear.busy ++ bs)
    (ds := t.clear.data ++ ds) ok cw hh (fits t.hit (by simp [ResetXfers.all])) t.misses g1 0 hm
    (fun x hx => fits x (by simp [ResetXfers.all, hx])) (by rw [Nat.zero_add]; exact hl)
    (by simpa [g1, Progress.noted, View.begins, ResetXfers.all] using busy)
    (by simpa [g1, Progress.noted, View.begins, ResetXfers.all] using data)
  let g2 := g1.polled v.params v.id t.misses t.hit (t.clear.busy ++ bs) (t.clear.data ++ ds)
  have s4 := mid_call_ok (v := w) (i := .resetChip) (rest := []) (g := g2) (bs := bs) (ds := ds)
    (performs_clearIrqStatus (p := v.params) (mask := v.params.allIrqMask.toNat) (x := t.clear) ok ok.allMask (by simpa using hc)) cw
    (by simpa [w, View.rstAt] using fits t.clear (by simp [ResetXfers.all])) (by simp [g2, Progress.polled]) (by simp [g2, Progress.polled])
  have s5 := mid_end (v := w) (i := .resetChip) (g := g2.called v.params v.id (.clearIrqStatus v.params.allIrqMask.toNat) .ok none id
    1 bs ds (trailWrite v.params v.id (.writeRegister v.params.regIrqClear.toNat v.params.allIrqMask.toNat) t.clear)) cw (by simp)
  have h := ((((s1.trans s2).trans s3).trans s4).trans s5).cast (b := t.ticks) (by simp [ResetXfers.ticks]; omega)
  have hn : t.all.length = t.misses.length + 1 + 1 := by simp [ResetXfers.all]
  simpa [Progress.called, Progress.polled, Progress.noted, View.begins, progReset, g1, g2, hn, trailClear, tail, w] using h

/-! ### Waits that run out -/

/-- The view with `TIMEOUT_STAGE` written. -/
def View.timedOut (v : View) (stage : WaitStage) : View := { v with c := { v.c with timeoutStage := some stage } }

/-- The transitions of an IRQ wait that runs out. -/
def missTicks (misses : List Xfer) : Nat := (misses.map fun x => x.ticks + 12).sum

/-- An IRQ wait whose last allowed read does not show the bit either (41_command_layer.md R167; 42_radio_controller.md R202). -/
theorem mid_irq_gives_up {v : View} {i : Instr} {rest : List Micro} {bit : Fin 32} {stage : WaitStage} {bs : List Level}
    {ds : List Byte} (ok : v.params.InRange) (calm : v.Calm) (inv : i ≠ .getInventory16Slots) :
    ∀ (misses : List Xfer) (g : Progress) (k : Nat), misses ≠ [] → (∀ x ∈ misses, IrqReads v.params bit false x) →
      (∀ x ∈ misses, x.Fits v.params) → irqLimit v.params stage = some (k + misses.length) →
      g.busy = misses.flatMap Xfer.busy ++ bs → g.data = misses.flatMap Xfer.data ++ ds →
      Reaches (missTicks misses) (v.mid i (.irqPoll bit stage k :: rest) g)
        ((v.timedOut stage).did i .deviceNotResponding (errorResult i) g.fallback (g.count + misses.length) bs ds
          (g.body.append (.concat (misses.map (trailIrqRead v.params v.id)))))
  | [], _, _, ne, _, _, _, _, _ => absurd rfl ne
  | [x], g, k, _, hm, hf, hl, hb, hd => by
    have hx := hm x (by simp)
    have s1 := mid_irq_read (i := i) (rest := rest) (bit := bit) (stage := stage) (k := k) (g := g) (bs := bs) (ds := ds) ok calm
      hx.1 (hf x (by simp)) (by simpa using hb) (by simpa using hd)
    let g1 := g.polled v.params v.id [] x bs ds
    have s2 : Reaches 1 (v.mid i (.irqTest bit stage k :: rest) g1)
        ((v.timedOut stage).did i .deviceNotResponding (errorResult i) g1.fallback g1.count g1.busy g1.data g1.body) :=
      mid_step calm (by
        simp only [microStep, irqTest]
        rw [show (v.mid i rest g1).c.ret = ⟨.ok, some (.word (registerValue x.rx))⟩ from rfl]
        rw [show (v.mid i rest g1).params = v.params from rfl]
        simp only [bitSet, hx.2, hl, limitReached, List.length_singleton, Nat.le_refl, decide_true, if_true]
        rw [← failureResult_eq, ← mid_endOp (v.timedOut stage) i rest g1 inv]
        rfl)
    have h := (s1.trans s2).cast (b := missTicks [x]) (by simp [missTicks])
    simpa [g1, Progress.polled] using h
  | x :: y :: misses, g, k, _, hm, hf, hl, hb, hd => by
    have hx := hm x (by simp)
    have s1 := mid_irq_read (i := i) (rest := rest) (bit := bit) (stage := stage) (k := k) (g := g)
      (bs := (y :: misses).flatMap Xfer.busy ++ bs) (ds := (y :: misses).flatMap Xfer.data ++ ds) ok calm
      hx.1 (hf x (by simp)) (by simpa using hb) (by simpa using hd)
    let g1 := g.polled v.params v.id [] x ((y :: misses).flatMap Xfer.busy ++ bs) ((y :: misses).flatMap Xfer.data ++ ds)
    have hl1 : limitReached (irqLimit v.params stage) (k + 1) = false := by
      rw [hl]; simp [limitReached]
    have s2 : Reaches 1 (v.mid i (.irqTest bit stage k :: rest) g1) (v.mid i (.irqPoll bit stage (k + 1) :: rest) g1) :=
      mid_step calm (by
        simp only [microStep, irqTest]
        rw [show (v.mid i rest g1).c.ret = ⟨.ok, some (.word (registerValue x.rx))⟩ from rfl]
        rw [show (v.mid i rest g1).params = v.params from rfl]
        simp only [bitSet, hx.2, hl1]
        rfl)
    have s3 := mid_irq_gives_up (i := i) (rest := rest) (bs := bs) (ds := ds) ok calm inv (y :: misses) g1 (k + 1) (by simp)
      (fun z hz => hm z (by simp at hz ⊢; tauto)) (fun z hz => hf z (by simp at hz ⊢; tauto))
      (by rw [hl]; simp; omega) rfl rfl
    have h := ((s1.trans s2).trans s3).cast (b := missTicks (x :: y :: misses)) (by simp [missTicks])
    have hn : g.count + 1 + (misses.length + 1) = g.count + (misses.length + 1 + 1) := by omega
    simpa [g1, Progress.polled, hn] using h

theorem missTicks_le (misses : List Xfer) : missTicks misses ≤ (misses.map Xfer.weight).sum + 25 * misses.length := by
  have := sum_ticks_le misses 12
  unfold missTicks; omega

/-- RF_ON whose confirmation bit is never seen within the limit (41_command_layer.md R167). -/
theorem rfOn_gives_up {frame : Xfer} {misses : List Xfer} (v : View) (bs : List Level) (ds : List Byte) (ok : v.params.InRange)
    (calm : v.Calm) (carries : frame.Carries rfOnFrame 0) (ne : misses ≠ [])
    (reads : ∀ x ∈ misses, IrqReads v.params v.params.rfOnConfirmBit false x)
    (limit : v.params.pollLimitIrq = some misses.length) (fits : ∀ x ∈ frame :: misses, x.Fits v.params)
    (busy : v.c.busyIn = (frame :: misses).flatMap Xfer.busy ++ bs) (data : v.c.dataIn = (frame :: misses).flatMap Xfer.data ++ ds) :
    Reaches (frame.ticks + missTicks misses + 2) (v.startOp .rfOn (progRfOn v.params))
      ((v.timedOut .wRfOn).did .rfOn .deviceNotResponding (some (.bool false)) v.c.tsFallback (misses.length + 1) bs ds
        (.concat (trailTxn v.params v.id .rfOn frame :: misses.map (trailIrqRead v.params v.id)))) := by
  rw [startOp_mid]
  let tail : List Micro := [.call (.clearIrqStatus (bitMask v.params.rfOnConfirmBit)), .propagate, .returnTrue]
  have s1 := mid_init (i := .rfOn) (rest := .transact rfOnFrame 0 :: .propagate :: .irqPoll v.params.rfOnConfirmBit .wRfOn 0 :: tail)
    (g := v.begins) calm
  have s2 := mid_transaction (i := .rfOn) (rest := .irqPoll v.params.rfOnConfirmBit .wRfOn 0 :: tail) (g := v.begins) (x := frame)
    (bs := misses.flatMap Xfer.busy ++ bs) (ds := misses.flatMap Xfer.data ++ ds) calm carries (by simp [rfOnFrame])
    (by simpa [View.begins] using busy) (by simpa [View.begins] using data) (fits frame (by simp))
  have s3 := mid_irq_gives_up (i := .rfOn) (rest := tail) (bit := v.params.rfOnConfirmBit) (stage := .wRfOn) (bs := bs) (ds := ds)
    ok calm (by simp) misses (v.begins.exchanged v.params v.id .rfOn frame (misses.flatMap Xfer.busy ++ bs)
      (misses.flatMap Xfer.data ++ ds)) 0 ne reads (fun x hx => fits x (by simp [hx])) (by simpa [irqLimit] using limit) rfl rfl
  have h := ((s1.trans s2).trans s3).cast (b := frame.ticks + missTicks misses + 2) (by omega)
  have hn : 0 + 1 + misses.length = misses.length + 1 := by omega
  simpa [Progress.exchanged, View.begins, progRfOn, tail, errorResult, hn] using h

/-- RESET whose startup bit is never seen within the limit (42_radio_controller.md R202). -/
theorem reset_gives_up {misses : List Xfer} (v : View) (bs : List Level) (ds : List Byte) (ok : v.params.InRange)
    (calm : v.Calm) (ne : misses ≠ []) (reads : ∀ x ∈ misses, IrqReads v.params v.params.irqBitIdle false x)
    (limit : v.params.pollLimitStartup = some misses.length) (fits : ∀ x ∈ misses, x.Fits v.params)
    (busy : v.c.busyIn = misses.flatMap Xfer.busy ++ bs) (data : v.c.dataIn = misses.flatMap Xfer.data ++ ds) :
    Reaches (missTicks misses + 5) (v.startOp .resetChip (progReset v.params))
      (((v.rstAt (!v.params.rstActiveLevel)).timedOut .wStartup).did .resetChip .deviceNotResponding none v.c.tsFallback
        misses.length bs ds (.concat (trailPulse v.params v.id v.c.rst :: misses.map (trailIrqRead v.params v.id)))) := by
  rw [startOp_mid]
  let tail : List Micro := [.call (.clearIrqStatus v.params.allIrqMask.toNat), .propagate]
  have s1 := mid_init (i := .resetChip) (g := v.begins) (rest := [.setRst true, .delay (.us v.params.tRstPulseUs), .setRst false,
    .delay (.ms v.params.tRampMs), .irqPoll v.params.irqBitIdle .wStartup 0] ++ tail) calm
  have s2 := mid_pulse (i := .resetChip) (g := v.begins) (rest := .irqPoll v.params.irqBitIdle .wStartup 0 :: tail) calm
  have s3 := mid_irq_gives_up (v := v.rstAt (!v.params.rstActiveLevel)) (i := .resetChip) (rest := tail)
    (bit := v.params.irqBitIdle) (stage := .wStartup) (bs := bs) (ds := ds) ok (calm.rstAt _) (by simp) misses
    (v.begins.noted (trailPulse v.params v.id v.c.rst)) 0 ne reads fits (by rw [Nat.zero_add]; exact limit)
    (by simpa [Progress.noted, View.begins] using busy) (by simpa [Progress.noted, View.begins] using data)
  have h := ((s1.trans s2).trans s3).cast (b := missTicks misses + 5) (by omega)
  simpa [Progress.noted, View.begins, progReset, tail, errorResult, View.rstAt] using h

/-! ### Busy waits that run out, and busy waits that hang -/

/-- A busy wait that never reads the awaited level runs out with its last allowed sample (40_transaction_engine.md R119). -/
theorem poll_fails {ph : TePhase} {level : Level} {stage : WaitStage} {next : View → Tick} (ne : ph ≠ .idle)
    (hpoll : ∀ v : View, tickEngine v ph = pollBusy v level stage next) :
    ∀ (k : Nat) (v : View) (j : Nat) (bs : List Level), v.c.tePhase = ph →
      v.c.busyIn = List.replicate (k + 1) (!level) ++ bs → v.c.pollCnt = some j →
      v.params.pollLimitBusy = some (j + k + 1) →
      Reaches (k + 1) v (View.timeOut { v with c := { v.c with busyIn := bs, pollCnt := some (j + k + 1) } } stage)
  | 0, v, j, bs, hp, hb, hc, hl => by
    refine Reaches.of_tick ?_
    rw [tick_engine hp ne, hpoll]
    have hb' : v.c.busyIn = (!level) :: bs := by simpa using hb
    have hne : (!level) ≠ level := by cases level <;> decide
    simp only [pollBusy, View.sampleBusy, hb', if_neg hne, hc, hl, limitReached, Nat.add_zero, Nat.le_refl, decide_true, if_true]
  | k + 1, v, j, bs, hp, hb, hc, hl => by
    have hb' : v.c.busyIn = (!level) :: (List.replicate (k + 1) (!level) ++ bs) := by
      rw [hb, List.replicate_succ]; rfl
    have h1 : tick v = .moved { v with c := { v.c with
        busyIn := List.replicate (k + 1) (!level) ++ bs, pollCnt := some (j + 1) } } := by
      rw [tick_engine hp ne, hpoll]
      have hne : (!level) ≠ level := by cases level <;> decide
      have hlt : ¬ (j + (k + 1) + 1 ≤ j + 1) := by omega
      simp only [pollBusy, View.sampleBusy, hb', if_neg hne, hc, hl, limitReached, decide_eq_false hlt]
      rfl
    have h2 := poll_fails ne hpoll k { v with c := { v.c with
      busyIn := List.replicate (k + 1) (!level) ++ bs, pollCnt := some (j + 1) } } (j + 1) bs hp rfl rfl
      (by show v.params.pollLimitBusy = _; rw [hl]; congr 1; omega)
    have e : j + 1 + k + 1 = j + (k + 1) + 1 := by omega
    rw [e] at h2
    exact ((Reaches.of_tick h1).trans h2).cast (by omega)

/-- A busy wait without a limit waits for as long as the awaited level is not read. -/
theorem poll_hangs {ph : TePhase} {level : Level} {stage : WaitStage} {next : View → Tick} (ne : ph ≠ .idle)
    (hpoll : ∀ v : View, tickEngine v ph = pollBusy v level stage next) :
    ∀ (k : Nat) (v : View) (j : Nat) (bs : List Level), v.c.tePhase = ph →
      v.c.busyIn = List.replicate k (!level) ++ bs → v.c.pollCnt = some j → v.params.pollLimitBusy = none →
      Reaches k v { v with c := { v.c with busyIn := bs, pollCnt := some (j + k) } }
  | 0, v, j, bs, hp, hb, hc, hl => by
    have : v = { v with c := { v.c with busyIn := bs, pollCnt := some (j + 0) } } := by
      cases v with | mk i p c b => cases c; simp_all
    rw [← this]; exact Reaches.refl v
  | k + 1, v, j, bs, hp, hb, hc, hl => by
    have hb' : v.c.busyIn = (!level) :: (List.replicate k (!level) ++ bs) := by
      rw [hb, List.replicate_succ]; rfl
    have h1 : tick v = .moved { v with c := { v.c with
        busyIn := List.replicate k (!level) ++ bs, pollCnt := some (j + 1) } } := by
      rw [tick_engine hp ne, hpoll]
      have hne : (!level) ≠ level := by cases level <;> decide
      simp only [pollBusy, View.sampleBusy, hb', if_neg hne, hc, hl, limitReached]
      rfl
    have h2 := poll_hangs ne hpoll k { v with c := { v.c with
      busyIn := List.replicate k (!level) ++ bs, pollCnt := some (j + 1) } } (j + 1) bs hp rfl rfl hl
    have e : j + 1 + k = j + (k + 1) := by omega
    rw [e] at h2
    exact ((Reaches.of_tick h1).trans h2).cast (by omega)

/-- Each busy wait is one `PollBusy` (40_transaction_engine.md R119, R121). -/
theorem awaited_polls {ph : TePhase} {level : Level} {stage : WaitStage} (h : awaited ph = some (level, stage)) :
    ph ≠ .idle ∧ ∃ next, ∀ v : View, tickEngine v ph = pollBusy v level stage next := by
  cases ph <;> simp only [awaited, reduceCtorEq, Option.some.injEq, Prod.mk.injEq] at h <;> obtain ⟨rfl, rfl⟩ := h <;>
    refine ⟨by decide, ?_⟩ <;>
    first
    | exact ⟨fun w => .moved ((w.setNss low).enter .txSetup), fun _ => rfl⟩
    | exact ⟨fun w => .moved ((w.setNss high).enter .txHold), fun _ => rfl⟩
    | exact ⟨doneTx, fun _ => rfl⟩
    | exact ⟨fun w => .moved ((w.setNss high).enter .rxHold), fun _ => rfl⟩
    | exact ⟨doneRx, fun _ => rfl⟩

/-- A transaction whose first busy wait runs out: nothing is sent and the bus is free again (40_transaction_engine.md R129). -/
theorem transaction_stalls (v : View) (op : Instr) (tx : List Byte) (n k : Nat) (rest : List Micro) (fs : List Frame)
    (bs : List Level) (calm : v.Calm) (stack : v.c.stack = ⟨op, .transact tx n :: rest⟩ :: fs) (frame : tx ≠ [])
    (busy : v.c.busyIn = List.replicate (k + 1) high ++ bs) (limit : v.params.pollLimitBusy = some (k + 1)) :
    Reaches (k + 3) v { v with
      c := { v.c with
        stack := ⟨op, rest⟩ :: fs, txnCount := v.c.txnCount + 1, busyIn := bs, ret := ⟨.deviceNotResponding, none⟩
        timeoutStage := some .wReadyTx }
      bus := v.bus.extend (trailStalled v.params v.id op tx n) } := by
  obtain ⟨phase, -, nss, r1, r2, r3, r4, r5, free⟩ := calm
  let x : Xfer := ⟨tx, [], List.replicate n 0#8, 0, 0, 0, 0, 0⟩
  have call := call_granted v op x rest fs phase (by simpa [x] using stack) frame nss free
  have s2 := poll_fails (ph := .wReadyTx) (level := low) (stage := .wReadyTx)
    (next := fun w => .moved ((w.setNss low).enter .txSetup)) (by decide) (fun _ => rfl) k
    ((v.granted op x rest fs).inTxn x .wReadyTx high 0 0 [] v.c.busyIn v.c.dataIn
      (v.bus.log ++ [.txnStart v.id x.tx x.rx.length]) v.bus.slots) 0 bs rfl busy rfl
    (by rw [Nat.zero_add]; exact limit)
  have h := (call.trans s2).cast (b := k + 3) (by omega)
  refine Eq.mp ?_ h
  congr 1
  cases v with | mk i p c b =>
  cases c; cases b
  simp_all [x, View.timeOut, View.inTxn, View.granted, View.finish, View.release, View.record, Shared.extend, trailStalled, low, high]

theorem View.Calm.timedOut {v : View} (calm : v.Calm) (stage : WaitStage) : (v.timedOut stage).Calm := by
  cases calm; constructor <;> assumption

/-- The progress after a transaction whose first busy wait ran out. -/
def Progress.stalled (g : Progress) (p : Params) (h : Nat) (i : Instr) (tx : List Byte) (n : Nat) (bs : List Level) : Progress :=
  ⟨g.status, g.result, ⟨.deviceNotResponding, none⟩, g.fallback, g.count + 1, bs, g.data, g.body.append (trailStalled p h i tx n)⟩

theorem mid_stalls {v : View} {i : Instr} {rest : List Micro} {g : Progress} {tx : List Byte} {n k : Nat} {bs : List Level}
    (calm : v.Calm) (frame : tx ≠ []) (busy : g.busy = List.replicate (k + 1) high ++ bs)
    (limit : v.params.pollLimitBusy = some (k + 1)) :
    Reaches (k + 3) (v.mid i (.transact tx n :: rest) g)
      ((v.timedOut .wReadyTx).mid i rest (g.stalled v.params v.id i tx n bs)) := by
  have h := transaction_stalls (v.mid i (.transact tx n :: rest) g) i tx n k rest v.c.stack bs (calm.mid _ _ _) rfl frame busy limit
  have e : (v.timedOut .wReadyTx).mid i rest (g.stalled v.params v.id i tx n bs) = { v.mid i (.transact tx n :: rest) g with
      c := { (v.mid i (.transact tx n :: rest) g).c with
        stack := ⟨i, rest⟩ :: v.c.stack, txnCount := (v.mid i (.transact tx n :: rest) g).c.txnCount + 1, busyIn := bs
        ret := ⟨.deviceNotResponding, none⟩, timeoutStage := some .wReadyTx }
      bus := (v.mid i (.transact tx n :: rest) g).bus.extend (trailStalled v.params v.id i tx n) } := by
    simp [View.mid, View.timedOut, Progress.stalled, Shared.extend, Trail.append, Nat.add_assoc]
  rw [e]; exact h

/-- READ_REGISTER whose transaction never gets past its first busy wait (41_command_layer.md R158, R159). -/
theorem readRegister_stalls {addr k : Nat} (v : View) (bs : List Level) (calm : v.Calm) (range : addr ≤ v.params.regAddrMax)
    (busy : v.c.busyIn = List.replicate (k + 1) high ++ bs) (limit : v.params.pollLimitBusy = some (k + 1)) :
    Reaches (k + 6) (v.startOp (.readRegister addr) (progReadRegister addr))
      ((v.timedOut .wReadyTx).did (.readRegister addr) .deviceNotResponding none v.c.tsFallback 1 bs v.c.dataIn
        (trailStalled v.params v.id (.readRegister addr) [0x04#8, byteOf addr] 4)) := by
  rw [startOp_mid]
  have s1 := mid_init (i := .readRegister addr) (g := v.begins)
    (rest := [.rangeCheck, .transact (readRegisterFrame (byteOf addr)) 4, .propagate, .returnRegister]) calm
  have s2 := mid_range (i := .readRegister addr) (g := v.begins)
    (rest := [.transact (readRegisterFrame (byteOf addr)) 4, .propagate, .returnRegister]) calm (by simp [rangeOk, range])
  have s3 := mid_stalls (i := .readRegister addr) (g := v.begins) (rest := [.propagate, .returnRegister]) (n := 4)
    (tx := readRegisterFrame (byteOf addr)) calm (by simp [readRegisterFrame]) (by simpa [View.begins] using busy) limit
  have s4 := mid_raise (v := v.timedOut .wReadyTx) (i := .readRegister addr) (m := .propagate) (rest := [.returnRegister])
    (e := .deviceNotResponding)
    (g := v.begins.stalled v.params v.id (.readRegister addr) (readRegisterFrame (byteOf addr)) 4 bs) (calm.timedOut _) (by simp) rfl
  have h := (((s1.trans s2).trans s3).trans s4).cast (b := k + 6) (by omega)
  simpa [Progress.stalled, View.begins, progReadRegister, failureResult, returnsBool, readRegisterFrame] using h

/-- The soft-fail of GET_TRANSCEIVE_STATE (41_command_layer.md R172). -/
theorem getTransceiveState_stalls {k : Nat} (v : View) (bs : List Level) (ok : v.params.InRange) (calm : v.Calm)
    (busy : v.c.busyIn = List.replicate (k + 1) high ++ bs) (limit : v.params.pollLimitBusy = some (k + 1)) :
    Reaches (k + 9) (v.startOp .getTransceiveState (progGetTransceiveState v.params))
      ((v.timedOut .wReadyTx).did .getTransceiveState .ok (some (.transceiver .idle)) true 1 bs v.c.dataIn
        (trailStateFallback v.params v.id)) := by
  rw [startOp_mid]
  let rd : Instr := .readRegister v.params.regRfStatus.toNat
  have s1 := mid_init (i := .getTransceiveState) (g := v.begins) (rest := [.call rd, .returnState]) calm
  have s2 : Reaches 1 (v.mid .getTransceiveState [.call rd, .returnState] v.begins)
      ((v.mid .getTransceiveState [.returnState] v.begins).startOp rd (programOf v.params rd)) := mid_step calm rfl
  have s3 := readRegister_stalls (addr := v.params.regRfStatus.toNat) (k := k)
    (v.mid .getTransceiveState [.returnState] v.begins) bs (calm.mid _ _ _) ok.rfStatus busy limit
  let g : Progress := ⟨some .deviceNotResponding, none, ⟨.deviceNotResponding, none⟩, v.c.tsFallback, 1, bs, v.c.dataIn,
    trailStateFallback v.params v.id⟩
  have e : ((v.mid .getTransceiveState [.returnState] v.begins).timedOut .wReadyTx).did rd .deviceNotResponding none
      v.c.tsFallback 1 bs v.c.dataIn (trailStalled v.params v.id rd [0x04#8, byteOf v.params.regRfStatus.toNat] 4) =
      (v.timedOut .wReadyTx).mid .getTransceiveState [.returnState] g := by
    simp [View.mid, View.timedOut, View.did, View.begins, Shared.extend, trailOp, trailStateFallback, Trail.empty, g, rd]
  have s4 : Reaches 1 ((v.timedOut .wReadyTx).mid .getTransceiveState [.returnState] g) _ :=
    mid_step (v := v.timedOut .wReadyTx) (w := ((v.timedOut .wReadyTx).mid .getTransceiveState [] { g with fallback := true }).endOp
      .ok (some (.transceiver .idle))) (calm.timedOut _) rfl
  rw [mid_endOp _ .getTransceiveState [] { g with fallback := true } (by simp)] at s4
  rw [← e] at s4
  exact ((s1.trans s2).trans (s3.trans s4)).cast (by omega)

/-- SEND_DATA whose state read never gets past its first busy wait: the fallback Idle is a failure (41_command_layer.md R165,
60_exceptions.md R276). -/
theorem sendData_stalls {payload : List Byte} {validBits k : Nat} {idle arm : Xfer} (v : View) (bs : List Level) (ds : List Byte)
    (ok : v.params.InRange) (calm : v.Calm) (range : rangeOk v.params (.sendData payload validBits) = true)
    (carries : RearmCarries v.params idle arm) (fits : idle.Fits v.params ∧ arm.Fits v.params)
    (busy : v.c.busyIn = idle.busy ++ (arm.busy ++ (List.replicate (k + 1) high ++ bs)))
    (data : v.c.dataIn = idle.data ++ (arm.data ++ ds)) (limit : v.params.pollLimitBusy = some (k + 1)) :
    Reaches (idle.ticks + arm.ticks + k + 26) (v.startOp (.sendData payload validBits) (progSendData v.params payload validBits))
      ((v.timedOut .wReadyTx).did (.sendData payload validBits) .deviceNotResponding (some (.bool false)) true 3 bs ds
        (.concat [trailIdle v.params v.id idle, trailArm v.params v.id arm,
          trailOp v.params v.id .getTransceiveState .ok (some (.transceiver .idle)) (trailStateFallback v.params v.id)])) := by
  rw [startOp_mid]
  let i : Instr := .sendData payload validBits
  let tail : List Micro := [.transact (sendDataFrame (byteOf validBits) payload) 0, .propagate, .returnTrue]
  let tail1 : List Micro := .propagate :: .stateCheck :: tail
  have s1 := mid_init (i := i) (g := v.begins) (rest := .rangeCheck :: (rearm v.params ++ .call .getTransceiveState :: tail1)) calm
  have s2 := mid_range (i := i) (g := v.begins) (rest := rearm v.params ++ .call .getTransceiveState :: tail1) calm range
  have s3 := mid_rearm (i := i) (rest := .call .getTransceiveState :: tail1) (g := v.begins)
    (bs := List.replicate (k + 1) high ++ bs) (ds := ds) ok calm carries fits (by simpa [View.begins] using busy)
    (by simpa [View.begins] using data)
  let g1 := v.begins.rearmed v.params v.id idle arm (List.replicate (k + 1) high ++ bs) ds
  have s4 : Reaches 1 (v.mid i (.call .getTransceiveState :: tail1) g1)
      ((v.mid i tail1 g1).startOp .getTransceiveState (progGetTransceiveState v.params)) := mid_step calm rfl
  have s5 := getTransceiveState_stalls (k := k) (v.mid i tail1 g1) bs ok (calm.mid _ _ _) rfl limit
  let w := v.timedOut .wReadyTx
  have cw : w.Calm := calm.timedOut _
  let g2 : Progress := ⟨some .ok, some (.transceiver .idle), ⟨.ok, some (.transceiver .idle)⟩, true, 3, bs, ds,
    .concat [trailIdle v.params v.id idle, trailArm v.params v.id arm,
      trailOp v.params v.id .getTransceiveState .ok (some (.transceiver .idle)) (trailStateFallback v.params v.id)]⟩
  have e : ((v.mid i tail1 g1).timedOut .wReadyTx).did .getTransceiveState .ok (some (.transceiver .idle)) true 1 bs
      (v.mid i tail1 g1).c.dataIn (trailStateFallback (v.mid i tail1 g1).params (v.mid i tail1 g1).id) = w.mid i tail1 g2 := by
    simp [View.mid, View.timedOut, View.did, View.begins, Shared.extend, trailOp, Trail.append, Trail.empty, g1, g2, w,
      Progress.rearmed]
  rw [e] at s5
  have s6 : Reaches 1 (w.mid i tail1 g2) (w.mid i (.stateCheck :: tail) g2) := mid_step cw rfl
  have s7 := mid_raise (v := w) (i := i) (m := .stateCheck) (rest := tail) (g := g2) (e := .deviceNotResponding) cw (by simp [i]) rfl
  exact ((((((s1.trans s2).trans s3).trans s4).trans s5).trans s6).trans s7).cast (by omega)

end Sys2Proof.Machine
end

