-- ==== Sys2Proof/Laws/PerInstr.lean ====
section
/-! SUPPORT. Facts stated per instruction: the code with which the encoding of each row of the opcode table begins
(30_encoding.md R80, R99). -/

namespace Sys2Proof.Laws.TableCode

/-- The code of a row of spec/opcode_table.json, and whether it is the first byte of a frame or a host selector. -/
inductive Code where
  | frame (op : Byte)
  | selector (sel : Byte)
  deriving DecidableEq, Repr

/-- The code with which a request begins. -/
def ofBody : Body → Option Code
  | .wire frame _ => frame.head?.map Code.frame
  | .host sel _ => some (.selector sel)

/-- The code of the instruction's row (30_encoding.md R80, R99). -/
def codeOf : Instr → Code
  | .wireWriteRegister _ _ => .frame 0x00#8
  | .wireWriteRegisterOrMask _ _ => .frame 0x01#8
  | .wireWriteRegisterAndMask _ _ => .frame 0x02#8
  | .wireReadRegister _ => .frame 0x04#8
  | .wireReadEeprom _ _ => .frame 0x07#8
  | .wireSendData _ _ => .frame 0x09#8
  | .wireReadData _ _ => .frame 0x0A#8
  | .wireLoadRfConfig _ _ => .frame 0x11#8
  | .wireRfOn _ => .frame 0x16#8
  | .wireRfOff _ => .frame 0x17#8
  | .transact _ _ => .selector 0x00#8
  | .writeRegister _ _ => .selector 0x01#8
  | .writeRegisterOr _ _ => .selector 0x02#8
  | .writeRegisterAnd _ _ => .selector 0x03#8
  | .readRegister _ => .selector 0x04#8
  | .readEeprom _ _ => .selector 0x05#8
  | .sendData _ _ => .selector 0x06#8
  | .readData _ => .selector 0x07#8
  | .loadRfConfig _ _ => .selector 0x08#8
  | .rfOn => .selector 0x09#8
  | .rfOff => .selector 0x0A#8
  | .getIrqStatus => .selector 0x0B#8
  | .clearIrqStatus _ => .selector 0x0C#8
  | .getTransceiveState => .selector 0x0D#8
  | .beginLines => .selector 0x0E#8
  | .resetChip => .selector 0x0F#8
  | .sendEof => .selector 0x10#8
  | .setupRf => .selector 0x11#8
  | .getInventory16Slots => .selector 0x12#8

/-- The encoding of the instruction begins with the code of its row. -/
def Statement (i : Instr) : Prop := ofBody (encode i) = some (codeOf i)

theorem wireWriteRegister (addr : Byte) (value : Word) : Statement (.wireWriteRegister addr value) := rfl
theorem wireWriteRegisterOrMask (addr : Byte) (mask : Word) : Statement (.wireWriteRegisterOrMask addr mask) := rfl
theorem wireWriteRegisterAndMask (addr : Byte) (mask : Word) : Statement (.wireWriteRegisterAndMask addr mask) := rfl
theorem wireReadRegister (addr : Byte) : Statement (.wireReadRegister addr) := rfl
theorem wireReadEeprom (addr : Byte) (len : Byte) : Statement (.wireReadEeprom addr len) := rfl
theorem wireSendData (validBits : Byte) (payload : List Byte) : Statement (.wireSendData validBits payload) := rfl
theorem wireReadData (len : Nat) (second : Byte) : Statement (.wireReadData len second) := rfl
theorem wireLoadRfConfig (txConf : Byte) (rxConf : Byte) : Statement (.wireLoadRfConfig txConf rxConf) := rfl
theorem wireRfOn (second : Byte) : Statement (.wireRfOn second) := rfl
theorem wireRfOff (second : Byte) : Statement (.wireRfOff second) := rfl
theorem transact (tx : List Byte) (n : Nat) : Statement (.transact tx n) := rfl
theorem writeRegister (addr : Nat) (value : Nat) : Statement (.writeRegister addr value) := rfl
theorem writeRegisterOr (addr : Nat) (mask : Nat) : Statement (.writeRegisterOr addr mask) := rfl
theorem writeRegisterAnd (addr : Nat) (mask : Nat) : Statement (.writeRegisterAnd addr mask) := rfl
theorem readRegister (addr : Nat) : Statement (.readRegister addr) := rfl
theorem readEeprom (addr : Nat) (len : Nat) : Statement (.readEeprom addr len) := rfl
theorem sendData (payload : List Byte) (validBits : Nat) : Statement (.sendData payload validBits) := rfl
theorem readData (len : Nat) : Statement (.readData len) := rfl
theorem loadRfConfig (txConf : Nat) (rxConf : Nat) : Statement (.loadRfConfig txConf rxConf) := rfl
theorem rfOn : Statement .rfOn := rfl
theorem rfOff : Statement .rfOff := rfl
theorem getIrqStatus : Statement .getIrqStatus := rfl
theorem clearIrqStatus (mask : Nat) : Statement (.clearIrqStatus mask) := rfl
theorem getTransceiveState : Statement .getTransceiveState := rfl
theorem beginLines : Statement .beginLines := rfl
theorem resetChip : Statement .resetChip := rfl
theorem sendEof : Statement .sendEof := rfl
theorem setupRf : Statement .setupRf := rfl
theorem getInventory16Slots : Statement .getInventory16Slots := rfl

end Sys2Proof.Laws.TableCode
end

