-- ==== Sys2Proof/Laws/Steps.lean ====
section
/-! SUPPORT. Everything a step can do, said once: no controller moves, or the controller whose turn it is runs, going on with its
operation or starting one. -/

namespace Sys2Proof.Machine

/-- The controller that moves in a step and the view it starts from. -/
structure Moves (s t : State) (c : Handle) (v w : View) : Prop where
  here : s.handles[t.now.handle]? = some c
  run : Machine.run t.now.quantum v = .ok w
  handles : t.handles = s.handles.set t.now.handle w.c
  shared : t.shared = w.bus
  params : t.params = s.params
  /-- It goes on with its operation, or starts one. -/
  start : (c.op ≠ none ∧ v = ⟨t.now.handle, s.params, c, s.shared⟩) ∨
    ∃ i, c.op = none ∧ v = View.startOp ⟨t.now.handle, s.params, { c with op := some i }, s.shared⟩ i (programOf s.params i)

/-- No controller moves. -/
structure Rests (s t : State) : Prop where
  handles : t.handles = s.handles
  shared : t.shared = s.shared
  params : t.params = s.params

theorem takeTurn_fields (s : State) : s.takeTurn.handles = s.handles ∧ s.takeTurn.shared = s.shared ∧
    s.takeTurn.params = s.params ∧ s.takeTurn.inbox = s.inbox := by
  unfold State.takeTurn; split <;> exact ⟨rfl, rfl, rfl, rfl⟩

theorem runTurn_cases {s t : State} {c : Handle} {v : View} (h : s.runTurn v = .next t) (here : s.handles[s.now.handle]? = some c)
    (id : v.id = s.now.handle)
    (start : (c.op ≠ none ∧ v = ⟨s.now.handle, s.params, c, s.shared⟩) ∨
      ∃ i, c.op = none ∧ v = View.startOp ⟨s.now.handle, s.params, { c with op := some i }, s.shared⟩ i (programOf s.params i)) :
    t.now = s.now ∧ ∃ c v w, Moves s t c v w := by
  simp only [State.runTurn] at h
  split at h
  · rename_i w hw
    have hid : w.id = s.now.handle := (run_grows _ _ _ hw).id.trans id
    injection h with h
    subst h
    exact ⟨rfl, c, v, w, ⟨here, hw, by simp only [State.put, hid], rfl, rfl, start⟩⟩
  · cases h

theorem exec_cases {i : Instr} {s t : State} (h : exec i s = .next t) :
    t.now = s.now ∧ (Rests s t ∨ ∃ c v w, Moves s t c v w) := by
  rw [exec_eq_issue] at h
  simp only [issue] at h
  split at h
  · injection h with h; subst h; exact ⟨rfl, .inl ⟨rfl, rfl, rfl⟩⟩
  · rename_i v hv
    simp only [State.view, Option.map_eq_some_iff] at hv
    obtain ⟨c, hc, rfl⟩ := hv
    split at h
    · rename_i ho
      have := runTurn_cases h hc (by simp [View.startOp]) (.inr ⟨_, ho, rfl⟩)
      exact ⟨this.1, .inr this.2⟩
    · injection h with h; subst h; exact ⟨rfl, .inl ⟨rfl, rfl, rfl⟩⟩

/-- The two things a step can do. -/
theorem step_cases {s t : State} (h : step s = .next t) : Rests s t ∨ ∃ c v w, Moves s t c v w := by
  have hf := takeTurn_fields s
  unfold step at h
  generalize s.takeTurn = u at *
  have key : Rests u t ∨ ∃ c v w, Moves u t c v w := by
    have acc : ∀ {u t : State}, acceptRequest exec u = .next t → Rests u t ∨ ∃ c v w, Moves u t c v w := by
      intro u t h
      unfold acceptRequest at h
      split at h
      · injection h with h; subst h; exact .inl ⟨rfl, rfl, rfl⟩
      · split at h
        · rename_i rest _ _ _
          obtain ⟨hn, h⟩ := exec_cases h
          rcases h with ⟨h1, h2, h3⟩ | ⟨c, v, w, h1, h2, h3, h4, h5, h6⟩
          · exact .inl ⟨h1, h2, h3⟩
          · exact .inr ⟨c, v, w, h1, h2, h3, h4, h5, h6⟩
        · injection h with h; subst h; exact .inl ⟨rfl, rfl, rfl⟩
    unfold turnStep at h
    split at h
    · exact acc h
    · rename_i v hv
      simp only [State.view, Option.map_eq_some_iff] at hv
      obtain ⟨c, hc, rfl⟩ := hv
      split at h
      · exact acc h
      · rename_i ho
        exact .inr (runTurn_cases h hc rfl (.inl ⟨ho, rfl⟩)).2
  obtain ⟨f1, f2, f3, -⟩ := hf
  rcases key with ⟨h1, h2, h3⟩ | ⟨c, v, w, h1, h2, h3, h4, h5, h6⟩
  · exact .inl ⟨h1.trans f1, h2.trans f2, h3.trans f3⟩
  · exact .inr ⟨c, v, w, f1 ▸ h1, h2, f1 ▸ h3, h4, f3 ▸ h5, by rw [f2, f3] at h6; exact h6⟩

/-- What a step does to the history of each handle. -/
theorem Moves.grows {s t : State} {c : Handle} {v w : View} (m : Moves s t c v w) :
    Grows ⟨t.now.handle, s.params, c, s.shared⟩ w := by
  have h := run_grows _ _ _ m.run
  rcases m.start with ⟨-, rfl⟩ | ⟨i, -, rfl⟩
  · exact h
  · refine Grows.trans ?_ h
    exact Grows.trans (v := ⟨t.now.handle, s.params, { c with op := some i }, s.shared⟩) (.quiet rfl rfl (fun h => h) rfl rfl)
      (grows_startOp _ _ _)

/-! ### The invariant at the start of a turn -/

theorem State.Inv.sound {s : State} (inv : s.Inv) {h : Nat} {c : Handle} (here : s.handles[h]? = some c) :
    View.Sound ⟨h, s.params, c, s.shared⟩ := ⟨inv.handleOk h c here, inv.busOwned h c here⟩

/-- A sound controller with no operation in progress has no transaction in progress either. -/
theorem Handle.Ok.idle {c : Handle} (ok : c.Ok) (noOp : c.op = none) : c.stack = [] ∧ c.tePhase = .idle := by
  have hs : c.stack = [] := by
    have := ok.opInProgress
    rw [noOp] at this
    cases hst : c.stack with
    | nil => rfl
    | cons f fs => rw [hst] at this; simp [List.getLast?_cons] at this
  refine ⟨hs, ?_⟩
  have := ok.control
  unfold Handle.controlOk at this
  cases hp : c.tePhase <;> rw [hp] at this <;> simp_all

/-- Issuing an operation to a sound controller that has none keeps it sound. -/
theorem View.Sound.issued {v : View} (s : v.Sound) (noOp : v.c.op = none) (i : Instr) :
    (View.startOp { v with c := { v.c with op := some i } } i (programOf v.params i)).Sound := by
  obtain ⟨hst, hph⟩ := s.ok.idle noOp
  obtain ⟨⟨hcs, heng, -, -, hinv, hfr⟩, owns⟩ := s
  have hi := hinv (by simp [noOp])
  refine ⟨⟨?_, ?_, ?_, ?_, ?_, ?_⟩, ?_⟩
  · simpa [View.startOp] using hcs
  · unfold Handle.engineOk at *
    simpa [View.startOp] using heng
  · unfold Handle.controlOk
    simp only [View.startOp, View.debug_c, View.record_c, hph, hst]
    exact ⟨.anything, trivial, by simp [stackOk, programOf_todoOk]⟩
  · simp [View.startOp, hst]
  · intro _; simpa [View.startOp] using hi
  · simpa [View.startOp] using hfr
  · simpa [View.startOp] using owns

/-- The view a moving controller starts from is sound when the state has the invariant. -/
theorem Moves.sound {s t : State} {c : Handle} {v w : View} (m : Moves s t c v w) (inv : s.Inv) : v.Sound ∧ v.id = t.now.handle ∧
    v.bus.busOwner = s.shared.busOwner := by
  have hs := inv.sound m.here
  rcases m.start with ⟨-, rfl⟩ | ⟨i, ho, rfl⟩
  · exact ⟨hs, rfl, rfl⟩
  · exact ⟨hs.issued ho i, by simp [View.startOp], by simp [View.startOp]⟩

end Sys2Proof.Machine
end

