-- ==== Sys2Proof/Tests/Slice0.lean ====
section
/-! SUPPORT. Tests: ill-formed terms, words written out from 30_encoding.md, single steps whose expected results are the vectors
of 95_test_vectors.md, and a witness for every statement with hypotheses. -/

namespace Sys2Proof.Tests

open Sys2Proof Sys2Proof.Machine

/-! ### WellFormed refuses an ill-formed term for each check (30_encoding.md R82) -/

theorem test_wf_wireReadEeprom : (Instr.wireReadEeprom 0xFF#8 1#8).wf .reference = false := by decide
theorem test_wf_wireSendData : (Instr.wireSendData 0#8 (List.replicate 261 0#8)).wf .reference = false := by decide +kernel
theorem test_wf_wireReadData : (Instr.wireReadData 509 0#8).wf .reference = false := by decide
theorem test_wf_second_bytes : (Instr.wireReadData 0 1#8).wf .reference = false ∧ (Instr.wireRfOn 1#8).wf .reference = false ∧
    (Instr.wireRfOff 0xFF#8).wf .reference = false := by decide
theorem test_wf_wire_addresses :
    let p := { Params.reference with regAddrMax := 100 }
    (Instr.wireWriteRegister 101#8 0#32).wf p = false ∧ (Instr.wireWriteRegisterOrMask 101#8 0#32).wf p = false ∧
      (Instr.wireWriteRegisterAndMask 101#8 0#32).wf p = false ∧ (Instr.wireReadRegister 101#8).wf p = false := by decide
theorem test_wf_wire_values :
    let p := { Params.reference with regValueBits := 16 }
    (Instr.wireWriteRegister 0#8 0x10000#32).wf p = false ∧ (Instr.wireWriteRegisterOrMask 0#8 0x10000#32).wf p = false ∧
      (Instr.wireWriteRegisterAndMask 0#8 0x10000#32).wf p = false ∧ (Instr.writeRegister 0 0x10000).wf p = false ∧
      (Instr.writeRegister 0 0xFFFF).wf p = true := by decide
theorem test_wf_transact : (Instr.transact [] 0).wf .reference = false := by decide
theorem test_wf_writeRegister_addr : (Instr.writeRegister 256 0).wf .reference = false := by decide
theorem test_wf_writeRegister_value : (Instr.writeRegister 0 0x100000000).wf .reference = false := by decide
theorem test_wf_writeRegisterOr_addr : (Instr.writeRegisterOr 256 0).wf .reference = false := by decide
theorem test_wf_writeRegisterOr_mask : (Instr.writeRegisterOr 0 0x100000000).wf .reference = false := by decide
theorem test_wf_writeRegisterAnd_addr : (Instr.writeRegisterAnd 256 0).wf .reference = false := by decide
theorem test_wf_writeRegisterAnd_mask : (Instr.writeRegisterAnd 0 0x100000000).wf .reference = false := by decide
theorem test_wf_readRegister : (Instr.readRegister 256).wf .reference = false := by decide
theorem test_wf_readEeprom_addr : (Instr.readEeprom 255 1).wf .reference = false := by decide
theorem test_wf_readEeprom_len : (Instr.readEeprom 0 256).wf .reference = false := by decide
theorem test_wf_sendData_payload : (Instr.sendData (List.replicate 261 0#8) 0).wf .reference = false := by decide +kernel
theorem test_wf_sendData_validBits : (Instr.sendData [] 256).wf .reference = false := by decide
theorem test_wf_readData : (Instr.readData 509).wf .reference = false := by decide
theorem test_wf_loadRfConfig_tx : (Instr.loadRfConfig 256 0).wf .reference = false := by decide
theorem test_wf_loadRfConfig_rx : (Instr.loadRfConfig 0 256).wf .reference = false := by decide
theorem test_wf_clearIrqStatus : (Instr.clearIrqStatus 0x100000000).wf .reference = false := by decide
theorem test_wf_boundary : (Instr.readEeprom 254 255).wf .reference = true ∧ (Instr.readData 508).wf .reference = true ∧
    (Instr.sendData (List.replicate 260 0#8) 255).wf .reference = true ∧ Params.reference.wf = true := by decide +kernel

/-! ### Words written out from the encodings (30_encoding.md R80, R84 to R93; bit 0 of a word is bit 0 of the first byte) -/

theorem test_word_writeRegister : decodeTableWord 48 0x000FFFFF0300 = some (.wireWriteRegister 0x03#8 0x000FFFFF#32) := by decide
theorem test_word_writeRegisterOr :
    decodeTableWord 48 0x000000030001 = some (.wireWriteRegisterOrMask 0x00#8 0x00000003#32) := by decide
theorem test_word_writeRegisterAnd :
    decodeTableWord 48 0x800000011D02 = some (.wireWriteRegisterAndMask 0x1D#8 0x80000001#32) := by decide
theorem test_word_readRegister : decodeTableWord 16 0x1304 = some (.wireReadRegister 0x13#8) := by decide
theorem test_word_readEeprom : decodeTableWord 24 0x021007 = some (.wireReadEeprom 0x10#8 0x02#8) := by decide
theorem test_word_sendData :
    decodeTableWord 40 0x0001060009 = some (.wireSendData 0x00#8 [0x06#8, 0x01#8, 0x00#8]) := by decide
theorem test_word_readData : decodeTableWord 16 0x000A = some (.wireReadData 0 0x00#8) := by decide
theorem test_word_loadRfConfig : decodeTableWord 24 0x8D0D11 = some (.wireLoadRfConfig 0x0D#8 0x8D#8) := by decide
theorem test_word_rfOn : decodeTableWord 16 0x0016 = some (.wireRfOn 0x00#8) ∧ decodeTableWord 8 0x16 = some (.wireRfOn 0x00#8) := by
  decide
theorem test_word_rfOff : decodeTableWord 16 0x0017 = some (.wireRfOff 0x00#8) ∧ decodeTableWord 8 0x17 = some (.wireRfOff 0x00#8) := by
  decide
/-- R102 looks at the opcode and the length alone. -/
theorem test_word_second_byte :
    decodeTableWord 16 0x5516 = some (.wireRfOn 0x55#8) ∧ decodeTableWord 16 0x0117 = some (.wireRfOff 0x01#8) ∧
      decodeTableWord 16 0xFF0A = some (.wireReadData 0 0xFF#8) := by decide
theorem test_word_invalid : decodeTableWord 16 0x0005 = none ∧ decodeTableWord 8 0x13 = none ∧
    (decode (.wire [0x00#8, 0x03#8, 0xFF#8] 0)).toOption = none := by decide

/-- The selectors 0x00 to 0x12, in order, each as a one-byte word. -/
theorem test_word_selectors :
    (List.range 19).map (decodeTableWord 8) =
      [some (.transact [0x00#8] 0), some (.writeRegister 0 0), some (.writeRegisterOr 0 0), some (.writeRegisterAnd 0 0),
        some (.readRegister 0), some (.readEeprom 0 0), some (.sendData [] 0), some (.readData 0), some (.loadRfConfig 0 0),
        some .rfOn, some .rfOff, some .getIrqStatus, some (.clearIrqStatus 0), some .getTransceiveState, some .beginLines,
        some .resetChip, some .sendEof, some .setupRf, some .getInventory16Slots] := by decide

/-- Programs P1 and P2 of 95_test_vectors.md, request by request. -/
theorem test_decode_programs :
    [decode (.host 0x0E#8 []), decode (.host 0x0F#8 []), decode (.host 0x05#8 [.num 0x10, .num 2]),
      decode (.host 0x0C#8 [.num 0xFFFFFFFF]), decode (.host 0x06#8 [.bytes [0x06#8, 0x01#8, 0x00#8]]),
      decode (.host 0x07#8 [.num 509]), decode (.host 0x0D#8 []), decode (.host 0x04#8 [.num 0x13])].map
        (fun r => r.toOption) =
      [some .beginLines, some .resetChip, some (.readEeprom 0x10 2), some (.clearIrqStatus 0xFFFFFFFF),
        some (.sendData [0x06#8, 0x01#8, 0x00#8] 0), some (.readData 509), some .getTransceiveState, some (.readRegister 0x13)] := by
  decide

/-- The frames of W1 and W9, spelled out. -/
theorem test_encode_frames :
    encode (.wireWriteRegister 0x18#8 0x12345678#32) = .wire [0x00#8, 0x18#8, 0x78#8, 0x56#8, 0x34#8, 0x12#8] 0 ∧
      encode (.wireWriteRegisterAndMask 0x18#8 0xFFFFFB3F#32) = .wire [0x02#8, 0x18#8, 0x3F#8, 0xFB#8, 0xFF#8, 0xFF#8] 0 ∧
      encode (.wireSendData 0x00#8 [0x06#8, 0x01#8, 0x00#8]) = .wire [0x09#8, 0x00#8, 0x06#8, 0x01#8, 0x00#8] 0 ∧
      encode (.wireReadEeprom 0xFE#8 0x01#8) = .wire [0x07#8, 0xFE#8, 0x01#8] 1 := by decide

/-! ### Small states -/

/-- A write-only transaction under the ideal busy of 95_test_vectors.md. -/
def oneWay (tx : List Byte) : Xfer := ⟨tx, tx.map fun _ => 0x00#8, [], 0, 0, 0, 0, 0⟩

/-- A transaction with a read phase under the ideal busy. -/
def reading (tx rx : List Byte) : Xfer := ⟨tx, tx.map fun _ => 0x00#8, rx, 0, 0, 0, 0, 0⟩

/-- Handle 0 initialised, its environment about to answer `xs`. -/
def begunHandle (xs : List Xfer) : Handle :=
  { Handle.powerUp with
    nss := some high, rst := some high, begun := true, busyIn := xs.flatMap Xfer.busy, dataIn := xs.flatMap Xfer.data }

/-- The machine with that handle, in a turn of that length. -/
def begunState (p : Params) (xs : List Xfer) : State :=
  { State.powerUp p with handles := [begunHandle xs, Handle.powerUp], now := ⟨0, budget xs⟩ }

/-- The same machine before that turn, HOST having asked handle 0 for `b`. -/
def asked (p : Params) (b : Body) (xs : List Xfer) : State :=
  { begunState p xs with inbox := [⟨0, b⟩], sched := [⟨0, budget xs⟩] }

/-- The frames sent, and the records other than those of one transaction, are read off the log. -/
def sent (log : List LogRec) : List (List Byte) :=
  log.filterMap fun r => match r with | .txnStart _ tx _ => some tx | _ => none

/-- What a test looks at. -/
structure Seen where
  status : Option Status
  result : Option Result
  frames : List (List Byte)
  stage : Option WaitStage
  fallback : Bool
  deriving DecidableEq, Repr

/-- What is seen of handle 0 after a step. -/
def seen : Host.Outcome State Fault Refusal → Option Seen
  | .next s => (s.handles[0]?).map fun c => ⟨c.status, c.result, sent s.shared.log, c.timeoutStage, c.tsFallback⟩
  | _ => none

/-- Expected: status, result and frames sent, with the stage of a timeout and the fallback flag. -/
def sees (t : Status × Option Result × List (List Byte)) (stage : Option WaitStage := none) (fallback : Bool := false) : Option Seen :=
  some ⟨some t.1, t.2.1, t.2.2, stage, fallback⟩

/-- The log after a step. -/
def logSeen : Host.Outcome State Fault Refusal → List LogRec
  | .next s => s.shared.log
  | _ => []

/-- A machine as `asked`, but with the busy samples and data bytes written out. -/
def askedWith (p : Params) (b : Body) (busy : List Level) (data : List Byte) : State :=
  { State.powerUp p with
    handles := [{ begunHandle [] with busyIn := busy, dataIn := data }, Handle.powerUp]
    inbox := [⟨0, b⟩], sched := [⟨0, 400⟩] }

/-! ### Single steps (95_test_vectors.md, Parts 1 and 2) -/

/-- V1. -/
theorem test_transact :
    seen (step (asked .reference (.host 0x00#8 [.bytes [0x04#8, 0x02#8], .num 4])
      [reading [0x04#8, 0x02#8] [0x04#8, 0x00#8, 0x00#8, 0x00#8]])) =
      sees (.ok, some (.bytes [0x04#8, 0x00#8, 0x00#8, 0x00#8]), [[0x04#8, 0x02#8]]) := by decide

/-- V4: three samples, no chip-select record. -/
theorem test_transact_timeout :
    (logSeen (step (askedWith { Params.reference with pollLimitBusy := some 3 }
      (.host 0x00#8 [.bytes [0x04#8, 0x02#8], .num 4]) [high, high, high] []))) =
      [.opStart 0 (.transact [0x04#8, 0x02#8] 4), .txnStart 0 [0x04#8, 0x02#8] 4, .txnEnd 0 .deviceNotResponding [],
        .opEnd 0 .deviceNotResponding none] := by decide

/-- V5: chip-select is de-asserted, without a hold delay. -/
theorem test_wire_rfOff_timeout :
    (logSeen (step (askedWith { Params.reference with pollLimitBusy := some 1 }
      (.wire [0x17#8, 0x00#8] 0) [low, low] [0xAA#8, 0xBB#8]))) =
      [.opStart 0 (.transact [0x17#8, 0x00#8] 0), .txnStart 0 [0x17#8, 0x00#8] 0, .nss 0 low, .delay 0 (.ms 2), .nss 0 high,
        .txnEnd 0 .deviceNotResponding [], .opEnd 0 .deviceNotResponding none] := by decide

/-- V2: six records, one chip-select window. -/
theorem test_wire_rfOff :
    logSeen (step (asked .reference (.wire [0x17#8, 0x00#8] 0) [oneWay [0x17#8, 0x00#8]])) =
      [.opStart 0 (.transact [0x17#8, 0x00#8] 0), .txnStart 0 [0x17#8, 0x00#8] 0, .nss 0 low, .delay 0 (.ms 2), .nss 0 high,
        .delay 0 (.ms 1), .txnEnd 0 .ok [], .opEnd 0 .ok (some (.bytes []))] := by decide

/-- R84 to R86, carried by a transaction each. -/
theorem test_wire_writes :
    seen (step (asked .reference (.wire [0x00#8, 0x18#8, 0x78#8, 0x56#8, 0x34#8, 0x12#8] 0)
      [oneWay [0x00#8, 0x18#8, 0x78#8, 0x56#8, 0x34#8, 0x12#8]])) =
      sees (.ok, some (.bytes []), [[0x00#8, 0x18#8, 0x78#8, 0x56#8, 0x34#8, 0x12#8]]) ∧
    seen (step (asked .reference (.wire [0x01#8, 0x00#8, 0x03#8, 0x00#8, 0x00#8, 0x00#8] 0)
      [oneWay [0x01#8, 0x00#8, 0x03#8, 0x00#8, 0x00#8, 0x00#8]])) =
      sees (.ok, some (.bytes []), [[0x01#8, 0x00#8, 0x03#8, 0x00#8, 0x00#8, 0x00#8]]) ∧
    seen (step (asked .reference (.wire [0x02#8, 0x18#8, 0x3F#8, 0xFB#8, 0xFF#8, 0xFF#8] 0)
      [oneWay [0x02#8, 0x18#8, 0x3F#8, 0xFB#8, 0xFF#8, 0xFF#8]])) =
      sees (.ok, some (.bytes []), [[0x02#8, 0x18#8, 0x3F#8, 0xFB#8, 0xFF#8, 0xFF#8]]) := by decide

/-- R87, R88, R90 with the receive lengths of R99. -/
theorem test_wire_reads :
    seen (step (asked .reference (.wire [0x04#8, 0x13#8] 4) [reading [0x04#8, 0x13#8] [0x0A#8, 0x02#8, 0x00#8, 0x00#8]])) =
      sees (.ok, some (.bytes [0x0A#8, 0x02#8, 0x00#8, 0x00#8]), [[0x04#8, 0x13#8]]) ∧
    seen (step (asked .reference (.wire [0x07#8, 0x10#8, 0x02#8] 2) [reading [0x07#8, 0x10#8, 0x02#8] [0x12#8, 0x34#8]])) =
      sees (.ok, some (.bytes [0x12#8, 0x34#8]), [[0x07#8, 0x10#8, 0x02#8]]) ∧
    seen (step (asked .reference (.wire [0x0A#8, 0x00#8] 3) [reading [0x0A#8, 0x00#8] [0x01#8, 0x02#8, 0x03#8]])) =
      sees (.ok, some (.bytes [0x01#8, 0x02#8, 0x03#8]), [[0x0A#8, 0x00#8]]) := by decide

/-- R89, R91, R92. -/
theorem test_wire_others :
    seen (step (asked .reference (.wire [0x09#8, 0x07#8] 0) [oneWay [0x09#8, 0x07#8]])) =
      sees (.ok, some (.bytes []), [[0x09#8, 0x07#8]]) ∧
    seen (step (asked .reference (.wire [0x11#8, 0x0D#8, 0x8D#8] 0) [oneWay [0x11#8, 0x0D#8, 0x8D#8]])) =
      sees (.ok, some (.bytes []), [[0x11#8, 0x0D#8, 0x8D#8]]) ∧
    seen (step (asked .reference (.wire [0x16#8, 0x00#8] 0) [oneWay [0x16#8, 0x00#8]])) =
      sees (.ok, some (.bytes []), [[0x16#8, 0x00#8]]) := by decide

/-- R102: the second byte travels as it is. -/
theorem test_wire_second_byte :
    seen (step (asked .reference (.wire [0x16#8, 0x55#8] 0) [oneWay [0x16#8, 0x55#8]])) =
      sees (.ok, some (.bytes []), [[0x16#8, 0x55#8]]) := by decide

/-- W1. -/
theorem test_writeRegister :
    seen (step (asked .reference (.host 0x01#8 [.num 0x18, .num 0x12345678])
      [oneWay [0x00#8, 0x18#8, 0x78#8, 0x56#8, 0x34#8, 0x12#8]])) =
      sees (.ok, none, [[0x00#8, 0x18#8, 0x78#8, 0x56#8, 0x34#8, 0x12#8]]) := by decide

/-- V13. -/
theorem test_writeRegister_range :
    seen (step (asked .reference (.host 0x01#8 [.num 0x03, .num 0x100000000]) [])) = sees (.rangeError, none, []) := by decide

/-- V15. -/
theorem test_writeRegisterOr :
    seen (step (asked .reference (.host 0x02#8 [.num 0, .num 0]) [oneWay [0x01#8, 0x00#8, 0x00#8, 0x00#8, 0x00#8, 0x00#8]])) =
      sees (.ok, none, [[0x01#8, 0x00#8, 0x00#8, 0x00#8, 0x00#8, 0x00#8]]) := by decide

/-- V16. -/
theorem test_writeRegisterAnd :
    seen (step (asked .reference (.host 0x03#8 [.num 0, .num 0xFFFFFFFF])
      [oneWay [0x02#8, 0x00#8, 0xFF#8, 0xFF#8, 0xFF#8, 0xFF#8]])) =
      sees (.ok, none, [[0x02#8, 0x00#8, 0xFF#8, 0xFF#8, 0xFF#8, 0xFF#8]]) := by decide

/-- V17. -/
theorem test_readRegister :
    seen (step (asked .reference (.host 0x04#8 [.num 0x13]) [reading [0x04#8, 0x13#8] [0x0A#8, 0x02#8, 0x00#8, 0x00#8]])) =
      sees (.ok, some (.register [0x0A#8, 0x02#8, 0x00#8, 0x00#8] 0x0000020A#32), [[0x04#8, 0x13#8]]) := by decide

/-- R8, R151: a mask of REG_VALUE_BITS bits. -/
theorem test_clearIrqStatus_range :
    seen (step (asked { Params.reference with regValueBits := 20 } (.host 0x0C#8 [.num 0x00100000]) [])) =
      sees (.rangeError, none, []) := by decide

/-- W2. -/
theorem test_readEeprom :
    seen (step (asked .reference (.host 0x05#8 [.num 254, .num 1]) [reading [0x07#8, 0xFE#8, 0x01#8] [0x5A#8]])) =
      sees (.ok, some (.bytes [0x5A#8]), [[0x07#8, 0xFE#8, 0x01#8]]) := by decide

/-- W2. -/
theorem test_readEeprom_range :
    seen (step (asked .reference (.host 0x05#8 [.num 255, .num 1]) [])) = sees (.rangeError, none, []) := by decide

/-- V22: a length of 0 is a write-only transaction. -/
theorem test_readData :
    seen (step (asked .reference (.host 0x07#8 [.num 0]) [oneWay [0x0A#8, 0x00#8]])) =
      sees (.ok, some (.bytes []), [[0x0A#8, 0x00#8]]) := by decide

/-- W4. -/
theorem test_readData_range :
    seen (step (asked .reference (.host 0x07#8 [.num 509]) [])) = sees (.rangeError, none, []) := by decide

/-- V23 and V24. -/
theorem test_loadRfConfig :
    seen (step (asked .reference (.host 0x08#8 [.num 0x0D, .num 0x8D]) [oneWay [0x11#8, 0x0D#8, 0x8D#8]])) =
      sees (.ok, some (.bool true), [[0x11#8, 0x0D#8, 0x8D#8]]) ∧
    seen (step (asked .reference (.host 0x08#8 [.num 0x0D, .num 256]) [])) =
      sees (.rangeError, some (.bool false), []) := by decide

/-- V28. -/
theorem test_rfOff :
    seen (step (asked .reference (.host 0x0A#8 []) [oneWay [0x17#8, 0x00#8]])) =
      sees (.ok, some (.bool true), [[0x17#8, 0x00#8]]) := by decide

/-- V29. -/
theorem test_getIrqStatus :
    seen (step (asked .reference (.host 0x0B#8 []) [reading [0x04#8, 0x02#8] [0x00#8, 0x40#8, 0x00#8, 0x00#8]])) =
      sees (.ok, some (.word 0x00004000#32), [[0x04#8, 0x02#8]]) := by decide

/-- V30. -/
theorem test_clearIrqStatus :
    seen (step (asked .reference (.host 0x0C#8 [.num 0x000FFFFF]) [oneWay [0x00#8, 0x03#8, 0xFF#8, 0xFF#8, 0x0F#8, 0x00#8]])) =
      sees (.ok, none, [[0x00#8, 0x03#8, 0xFF#8, 0xFF#8, 0x0F#8, 0x00#8]]) := by decide

/-- W8: 0xFAFFFFFF has bits 26:24 = 2. -/
theorem test_getTransceiveState :
    seen (step (asked .reference (.host 0x0D#8 []) [reading [0x04#8, 0x1D#8] [0xFF#8, 0xFF#8, 0xFF#8, 0xFA#8]])) =
      sees (.ok, some (.transceiver .transmitting), [[0x04#8, 0x1D#8]]) := by decide

/-- W8: the read times out. -/
theorem test_getTransceiveState_fallback :
    seen (step (askedWith { Params.reference with pollLimitBusy := some 1 } (.host 0x0D#8 []) [high] [])) =
      sees (.ok, some (.transceiver .idle), [[0x04#8, 0x1D#8]]) (some .wReadyTx) true := by decide

/-- V40 and V37. -/
theorem test_begin :
    logSeen (step { State.reset with inbox := [⟨0, .host 0x0E#8 []⟩], sched := [⟨0, 9⟩] }) =
      [.opStart 0 .beginLines, .rst 0 high, .nss 0 high, .opEnd 0 .ok none] ∧
    seen (step { State.reset with inbox := [⟨0, .host 0x01#8 [.num 0x03, .num 1]⟩], sched := [⟨0, 9⟩] }) =
      sees (.notInitialised, none, []) := by decide

/-- The frames of the re-arm sequence and a state read (V32), as transactions. -/
def idleXfer : Xfer := oneWay [0x02#8, 0x00#8, 0xF8#8, 0xFF#8, 0xFF#8, 0xFF#8]
def armXfer : Xfer := oneWay [0x01#8, 0x00#8, 0x03#8, 0x00#8, 0x00#8, 0x00#8]
def stateXfer (code : Byte) : Xfer := reading [0x04#8, 0x1D#8] [0x00#8, 0x00#8, 0x00#8, code]
def irqXfer (b0 b1 : Byte) : Xfer := reading [0x04#8, 0x02#8] [b0, b1, 0x00#8, 0x00#8]
def clearXfer (b0 b1 b2 b3 : Byte) : Xfer := oneWay [0x00#8, 0x03#8, b0, b1, b2, b3]

/-- V32. -/
theorem test_sendData :
    seen (step (asked .reference (.host 0x06#8 [.bytes [0x06#8, 0x01#8, 0x00#8]])
      [idleXfer, armXfer, stateXfer 0x01#8, oneWay [0x09#8, 0x00#8, 0x06#8, 0x01#8, 0x00#8]])) =
      sees (.ok, some (.bool true),
        [[0x02#8, 0x00#8, 0xF8#8, 0xFF#8, 0xFF#8, 0xFF#8], [0x01#8, 0x00#8, 0x03#8, 0x00#8, 0x00#8, 0x00#8], [0x04#8, 0x1D#8],
          [0x09#8, 0x00#8, 0x06#8, 0x01#8, 0x00#8]]) := by decide +kernel

/-- V33. -/
theorem test_sendData_wrong_state :
    seen (step (asked .reference (.host 0x06#8 [.bytes [0xAA#8]]) [idleXfer, armXfer, stateXfer 0x03#8])) =
      sees (.sequenceError, some (.bool false),
        [[0x02#8, 0x00#8, 0xF8#8, 0xFF#8, 0xFF#8, 0xFF#8], [0x01#8, 0x00#8, 0x03#8, 0x00#8, 0x00#8, 0x00#8],
          [0x04#8, 0x1D#8]]) := by decide +kernel

/-- V46. -/
theorem test_sendEof :
    seen (step (asked .reference (.host 0x10#8 []) [idleXfer, armXfer, stateXfer 0x01#8, oneWay [0x09#8, 0x00#8]])) =
      sees (.ok, some (.bool true),
        [[0x02#8, 0x00#8, 0xF8#8, 0xFF#8, 0xFF#8, 0xFF#8], [0x01#8, 0x00#8, 0x03#8, 0x00#8, 0x00#8, 0x00#8], [0x04#8, 0x1D#8],
          [0x09#8, 0x00#8]]) := by decide +kernel

/-- V26: bit 7 is not cleared. -/
theorem test_rfOn :
    seen (step (asked .reference (.host 0x09#8 [])
      [oneWay [0x16#8, 0x00#8], irqXfer 0x80#8 0x02#8, clearXfer 0x00#8 0x02#8 0x00#8 0x00#8])) =
      sees (.ok, some (.bool true),
        [[0x16#8, 0x00#8], [0x04#8, 0x02#8], [0x00#8, 0x03#8, 0x00#8, 0x02#8, 0x00#8, 0x00#8]]) := by decide +kernel

/-- V27: no clear is sent. -/
theorem test_rfOn_timeout :
    seen (step (asked { Params.reference with pollLimitIrq := some 2 } (.host 0x09#8 [])
      [oneWay [0x16#8, 0x00#8], irqXfer 0x00#8 0x00#8, irqXfer 0x00#8 0x00#8])) =
      sees (.deviceNotResponding, some (.bool false), [[0x16#8, 0x00#8], [0x04#8, 0x02#8], [0x04#8, 0x02#8]])
        (some .wRfOn) := by decide +kernel

/-- V42. -/
theorem test_reset :
    seen (step (asked .reference (.host 0x0F#8 [])
      [irqXfer 0x00#8 0x00#8, irqXfer 0x04#8 0x00#8, clearXfer 0xFF#8 0xFF#8 0xFF#8 0xFF#8])) =
      sees (.ok, none, [[0x04#8, 0x02#8], [0x04#8, 0x02#8], [0x00#8, 0x03#8, 0xFF#8, 0xFF#8, 0xFF#8, 0xFF#8]]) := by
  decide +kernel

/-- V44: the pulse and one read, then the timeout. -/
theorem test_reset_timeout :
    let s := step (asked { Params.reference with pollLimitStartup := some 1 } (.host 0x0F#8 []) [irqXfer 0x00#8 0x00#8])
    seen s = sees (.deviceNotResponding, none, [[0x04#8, 0x02#8]]) (some .wStartup) ∧
      (logSeen s).take 5 = [.opStart 0 .resetChip, .rst 0 low, .delay 0 (.us 10), .rst 0 high, .delay 0 (.ms 10)] := by
  decide +kernel

/-- The transactions of SETUP_RF in V50. -/
def setupXfers : List Xfer :=
  [oneWay [0x17#8, 0x00#8], oneWay [0x11#8, 0x0D#8, 0x8D#8], oneWay [0x16#8, 0x00#8], irqXfer 0x00#8 0x02#8,
    clearXfer 0x00#8 0x02#8 0x00#8 0x00#8, idleXfer, armXfer]

/-- V50. -/
theorem test_setupRf :
    seen (step (asked .reference (.host 0x11#8 []) setupXfers)) =
      sees (.ok, some (.bool true),
        [[0x17#8, 0x00#8], [0x11#8, 0x0D#8, 0x8D#8], [0x16#8, 0x00#8], [0x04#8, 0x02#8],
          [0x00#8, 0x03#8, 0x00#8, 0x02#8, 0x00#8, 0x00#8], [0x02#8, 0x00#8, 0xF8#8, 0xFF#8, 0xFF#8, 0xFF#8],
          [0x01#8, 0x00#8, 0x03#8, 0x00#8, 0x00#8, 0x00#8]]) := by decide +kernel

/-- V51. -/
theorem test_inventory_aborted :
    seen (step (asked { Params.reference with pollLimitIrq := some 1 } (.host 0x12#8 [])
      [oneWay [0x17#8, 0x00#8], oneWay [0x11#8, 0x0D#8, 0x8D#8], oneWay [0x16#8, 0x00#8], irqXfer 0x00#8 0x00#8])) =
      sees (.deviceNotResponding, some (.inventory .failed 0 []),
        [[0x17#8, 0x00#8], [0x11#8, 0x0D#8, 0x8D#8], [0x16#8, 0x00#8], [0x04#8, 0x02#8]]) (some .wRfOn) := by decide +kernel

/-- P3 cut down to its slot 5, with `N_SLOTS` 1 and a response of two bytes (upper bits of RX_STATUS set, V57). -/
theorem test_inventory_slot :
    (seen (step (asked { Params.reference with nSlots := 1 } (.host 0x12#8 [])
      (setupXfers ++ [clearXfer 0xFF#8 0xFF#8 0x0F#8 0x00#8, idleXfer, armXfer, stateXfer 0x01#8,
        oneWay [0x09#8, 0x00#8, 0x06#8, 0x01#8, 0x00#8], irqXfer 0x00#8 0x40#8,
        reading [0x04#8, 0x13#8] [0x02#8, 0xFE#8, 0xFF#8, 0xFF#8], reading [0x0A#8, 0x00#8] [0xF0#8, 0xF1#8],
        oneWay [0x02#8, 0x18#8, 0x3F#8, 0xFB#8, 0xFF#8, 0xFF#8], idleXfer, armXfer, clearXfer 0xFF#8 0xFF#8 0x0F#8 0x00#8,
        idleXfer, armXfer, stateXfer 0x01#8, oneWay [0x09#8, 0x00#8]])))).map
          (fun x => (x.status, x.result, x.frames.length)) =
      some (some .ok, some (.inventory .ok 1 [[0xF0#8, 0xF1#8]]), 23) := by decide +kernel

/-- P5: while handle 1 owns the bus, handle 0 waits for it and sends nothing. -/
theorem test_bus_held :
    (fun s => match s with
      | .next (t : State) => (t.shared.busOwner, t.handles[0]?.map Handle.tePhase, sent t.shared.log)
      | _ => (none, none, []))
      (step { asked .reference (.host 0x0A#8 []) [] with shared := ⟨some 1, [], [], []⟩ }) =
      (some 1, some .arb, []) := by decide

/-- The state placed for a table word runs that word's instruction first (95_test_vectors.md V40, V45). -/
theorem test_placed_word :
    logSeen (step (State.reset.withFetchWord 8 0x0E)) = [.opStart 0 .beginLines, .rst 0 high, .nss 0 high, .opEnd 0 .ok none] ∧
      seen (step (State.reset.withFetchWord 16 0x0016)) = sees (.notInitialised, none, []) ∧
      seen (step (State.reset.withFetchWord 8 0x0F)) = sees (.notInitialised, none, []) := by decide

/-! ### Witnesses: for each statement with hypotheses, a concrete state and operands that meet all of them, each clause at a
boundary value -/

theorem begun_ready (p : Params) (xs : List Xfer) : Ready (begunState p xs) (begunHandle xs) := by constructor <;> rfl

/-- `Xfer.Fits` of each, as a check. -/
def fitsAll (p : Params) (xs : List Xfer) : Bool :=
  xs.all fun x => decide (x.junk.length = x.tx.length) &&
    [x.waitReadyTx, x.waitAcceptTx, x.waitDoneTx, x.waitAcceptRx, x.waitDoneRx].all fun w => !limitReached p.pollLimitBusy w

theorem fits_of_check {p : Params} {xs : List Xfer} (h : fitsAll p xs = true) : ∀ x ∈ xs, x.Fits p := by
  intro x hx
  have hx' := List.all_eq_true.mp h x hx
  simp only [Bool.and_eq_true, decide_eq_true_eq, List.all_eq_true, Bool.not_eq_true'] at hx'
  exact ⟨hx'.1, hx'.2⟩

theorem begun_answers {p : Params} {xs : List Xfer} (h : fitsAll p xs = true) :
    Answers (begunState p xs) (begunHandle xs) xs [] [] :=
  ⟨(List.append_nil _).symm, (List.append_nil _).symm, fits_of_check h, Nat.le_refl _⟩

/-- A write of which every busy wait fails twice, under a limit of 3: the last wait the limit allows. -/
def slowWrite : Xfer := ⟨[0x00#8, 0xFF#8, 0xFF#8, 0xFF#8, 0xFF#8, 0xFF#8], List.replicate 6 0xA5#8, [], 2, 2, 2, 2, 2⟩

def limited : Params := { Params.reference with pollLimitBusy := some 3 }

theorem test_witness_DecodedRequestsAreEncodings :
    decode (.host 0x06#8 [.bytes [0xAA#8]]) = .ok (.sendData [0xAA#8] 0) ∧
      decode (.wire [0x0A#8, 0x00#8] 508) = .ok (.wireReadData 508 0x00#8) := ⟨rfl, rfl⟩

/-- The selectors beside the last assigned one; a mistyped first argument, a mistyped second one, one too many, one too few. -/
theorem test_witness_UnassignedAndMistypedRefused :
    0x12 < (0x13#8).toNat ∧ 0x12 < (0xFF#8).toNat ∧ (0x12#8).toNat ≤ 0x12 ∧
      argTypes [.bytes [], .num 0] ∉ hostSignatures 0x01#8 ∧ argTypes [.num 0, .bytes []] ∉ hostSignatures 0x05#8 ∧
      argTypes [.bytes [], .bytes []] ∉ hostSignatures 0x06#8 ∧ argTypes [.num 0] ∉ hostSignatures 0x12#8 ∧
      argTypes [.bytes []] ∉ hostSignatures 0x00#8 ∧ argTypes [.bytes []] ∈ hostSignatures 0x06#8 ∧
      argTypes [.num 300, .num 0] ∈ hostSignatures 0x08#8 := by decide

theorem test_witness_FramesOutsideTheMapAreInvalid :
    0x03#8 ∉ [0x00#8, 0x01#8, 0x02#8, 0x04#8, 0x07#8, 0x09#8, 0x0A#8, 0x11#8, 0x16#8, 0x17#8] ∧
      0x18#8 ∉ [0x00#8, 0x01#8, 0x02#8, 0x04#8, 0x07#8, 0x09#8, 0x0A#8, 0x11#8, 0x16#8, 0x17#8] ∧
      (List.replicate 4 0x00#8).length ≠ 5 ∧ (List.replicate 6 0x00#8).length ≠ 5 ∧ ([] : List Byte).length ≠ 1 ∧
      [0x00#8, 0x00#8].length ≠ 1 ∧ [0x00#8].length ≠ 2 ∧ [0x00#8, 0x00#8, 0x00#8].length ≠ 2 := by decide

theorem test_witness_RegisterValuesAreLittleEndian :
    4294967295 < 2 ^ 32 ∧ ∃ v : View, v.c.ret.result = some (.bytes [0xFF#8, 0x00#8, 0x80#8, 0x01#8]) :=
  ⟨by decide, ⟨0, .reference, { Handle.powerUp with ret := ⟨.ok, some (.bytes [0xFF#8, 0x00#8, 0x80#8, 0x01#8])⟩ },
    ⟨none, [], [], []⟩⟩, rfl⟩

theorem test_witness_TransceiverCodes : Params.reference.tsShift = 24 ∧ Params.reference.tsWidth = 3 := ⟨rfl, rfl⟩

theorem test_witness_ResponseLengthIsLowNineBits :
    Params.reference.rxLenWidth = 9 ∧ (0xFFFFFE0C#32).extractLsb' 0 9 = (0x0000000C#32).extractLsb' 0 9 := by decide

/-- A machine in which both handles have requests waiting. -/
def waiting (b : Body) : State :=
  { begunState .reference [] with inbox := [⟨1, .host 0x0E#8 []⟩, ⟨0, b⟩, ⟨0, .host 0x0A#8 []⟩], sched := [⟨0, 100⟩] }

theorem test_witness_StepRunsDecodedInstruction :
    let u := (waiting (.host 0x12#8 [])).takeTurn
    u.now.handle = 0 ∧ (∀ c, u.handles[u.now.handle]? = some c → c.op = none) ∧
      u.inbox = [⟨1, .host 0x0E#8 []⟩] ++ ⟨0, .host 0x12#8 []⟩ :: [⟨0, .host 0x0A#8 []⟩] ∧
      (∀ q ∈ [(⟨1, .host 0x0E#8 []⟩ : Request)], q.handle ≠ u.now.handle) ∧ decode (.host 0x12#8 []) = .ok .getInventory16Slots :=
  ⟨rfl, fun c h => by cases h; rfl, rfl, by decide, rfl⟩

/-- The turn of an index without a controller, and a free turn: the schedule is empty. -/
theorem test_witness_StepRunsDecodedInstruction_others :
    (let u := ({ State.reset with inbox := [⟨2, .host 0x0E#8 []⟩], sched := [⟨2, 1⟩] } : State).takeTurn;
      u.handles[u.now.handle]? = none ∧ u.inbox = [] ++ ⟨2, .host 0x0E#8 []⟩ :: [] ∧ u.now.handle = 2) ∧
    (let u := ({ State.reset with inbox := [⟨Config.freeTurnHandle 0, .host 0x0E#8 []⟩] } : State).takeTurn;
      u.now.handle = Config.freeTurnHandle 0 ∧ u.inbox = [] ++ ⟨u.now.handle, .host 0x0E#8 []⟩ :: []) :=
  ⟨⟨rfl, rfl, rfl⟩, ⟨rfl, rfl⟩⟩

theorem test_witness_RefusedRequestChangesNothing :
    (waiting (.host 0x13#8 [])).handles[0]? = some (begunHandle []) ∧ (begunHandle []).op = none ∧
      (waiting (.host 0x13#8 [])).inbox = [⟨1, .host 0x0E#8 []⟩] ++ ⟨0, .host 0x13#8 []⟩ :: [⟨0, .host 0x0A#8 []⟩] ∧
      decode (.host 0x13#8 []) = .error (.unassignedSelector 0x13#8) := ⟨rfl, rfl, rfl, rfl⟩

/-- Handle 0 inside RF_OFF, about to return true. -/
def insideRfOff : State :=
  { begunState .reference [] with
    handles := [{ begunHandle [] with op := some .rfOff, stack := [⟨.rfOff, [.returnTrue]⟩] }, Handle.powerUp], sched := [⟨0, 1⟩] }

theorem test_witness_StepGoesOnOrDoesNothing :
    (∃ c w, insideRfOff.handles[0]? = some c ∧ c.op = some .rfOff ∧
      run 1 ⟨0, insideRfOff.params, c, insideRfOff.shared⟩ = .ok w) ∧
    (∀ q ∈ insideRfOff.inbox, q.handle ≠ 1) ∧ insideRfOff.handles[1]? = some Handle.powerUp ∧ Handle.powerUp.op = none :=
  ⟨⟨_, _, rfl, rfl, rfl⟩, (List.forall_mem_nil _), rfl, rfl⟩

/-- A busy controller, and the first index without one. -/
theorem test_witness_BusyControllerRefuses :
    (∃ c, insideRfOff.handles[insideRfOff.now.handle]? = some c ∧ c.op = some .rfOff) ∧
      ({ State.reset with now := ⟨2, 0⟩ } : State).handles[2]? = none := ⟨⟨_, rfl, rfl⟩, rfl⟩

theorem test_witness_NotInitialisedBeforeBegin :
    Instr.getInventory16Slots ≠ .beginLines ∧ ({ State.reset with now := ⟨1, 1⟩ } : State).handles[1]? = some Handle.powerUp ∧
      Handle.powerUp.op = none ∧ Handle.powerUp.stack = [] ∧ Handle.powerUp.tePhase = .idle ∧ Handle.powerUp.begun = false :=
  ⟨by decide, rfl, rfl, rfl, rfl, rfl⟩

/-- One value past each bound of the table of R151; the other handle owns the bus. -/
theorem test_witness_RangeErrorBeforeTraffic :
    (let s := { begunState .reference [] with now := ⟨0, 2⟩, shared := ⟨some 1, [], [], []⟩ };
      s.handles[s.now.handle]? = some (begunHandle []) ∧ s.shared.busOwner = some 1) ∧
    ((begunHandle []).op = none ∧ (begunHandle []).stack = [] ∧ (begunHandle []).tePhase = .idle ∧ (begunHandle []).begun = true) ∧
      ∀ i ∈ [Instr.transact [] 4, .writeRegister 256 0, .writeRegister 0 4294967296, .writeRegisterOr 256 0,
        .writeRegisterOr 0 4294967296, .writeRegisterAnd 256 0, .writeRegisterAnd 0 4294967296, .readRegister 256,
        .readEeprom 255 0, .readEeprom 0 256, .sendData (List.replicate 261 0x00#8) 0, .sendData [] 256, .readData 509,
        .loadRfConfig 256 0, .loadRfConfig 0 256, .clearIrqStatus 4294967296], OutOfRange .reference i := by
  refine ⟨⟨rfl, rfl⟩, ⟨rfl, rfl, rfl, rfl⟩, ?_⟩
  simp only [List.forall_mem_cons]
  exact ⟨.transact, .writeRegister (.inl (by decide)), .writeRegister (.inr (by decide)), .writeRegisterOr (.inl (by decide)),
    .writeRegisterOr (.inr (by decide)), .writeRegisterAnd (.inl (by decide)), .writeRegisterAnd (.inr (by decide)),
    .readRegister (by decide), .readEeprom (.inl (by decide)), .readEeprom (.inr (by decide)),
    .sendData (.inl (by rw [List.length_replicate]; decide)), .sendData (.inr (by decide)), .readData (by decide),
    .loadRfConfig (.inl (by decide)), .loadRfConfig (.inr (by decide)), .clearIrqStatus (by decide), List.forall_mem_nil _⟩

theorem test_witness_RegisterWritesComplete :
    Ready (begunState limited [slowWrite]) (begunHandle [slowWrite]) ∧
      Answers (begunState limited [slowWrite]) (begunHandle [slowWrite]) [slowWrite] [] [] ∧ 255 ≤ limited.regAddrMax ∧
      4294967295 < 2 ^ limited.regValueBits ∧ slowWrite.Carries ([0x00#8, BitVec.ofNat 8 255] ++ le32 (BitVec.ofNat 32 4294967295)) 0 ∧
      idleXfer.Carries ([0x02#8, BitVec.ofNat 8 0] ++ le32 (BitVec.ofNat 32 0xFFFFFFF8)) 0 ∧
      armXfer.Carries ([0x01#8, BitVec.ofNat 8 0] ++ le32 (BitVec.ofNat 32 3)) 0 ∧
      Answers (begunState .reference [idleXfer]) (begunHandle [idleXfer]) [idleXfer] [] [] ∧
      Answers (begunState .reference [armXfer]) (begunHandle [armXfer]) [armXfer] [] [] :=
  ⟨begun_ready _ _, begun_answers (by decide), by decide, by decide, ⟨by decide, rfl⟩, ⟨by decide, rfl⟩, ⟨by decide, rfl⟩,
    begun_answers (by decide), begun_answers (by decide)⟩

theorem test_witness_ReadRegisterCompletes :
    let x := reading [0x04#8, BitVec.ofNat 8 255] [0x0A#8, 0x02#8, 0x00#8, 0x00#8]
    Ready (begunState .reference [x]) (begunHandle [x]) ∧ Answers (begunState .reference [x]) (begunHandle [x]) [x] [] [] ∧
      255 ≤ Params.reference.regAddrMax ∧ x.rx = [0x0A#8, 0x02#8, 0x00#8, 0x00#8] :=
  ⟨begun_ready _ _, begun_answers (by decide), by decide, rfl⟩

theorem test_witness_ByteReadsComplete :
    (let x := reading [0xAB#8] [0x11#8, 0x22#8];
      Answers (begunState .reference [x]) (begunHandle [x]) [x] [] [] ∧ x.Carries [0xAB#8] 2) ∧
    (let x := reading [0x07#8, BitVec.ofNat 8 254, BitVec.ofNat 8 255] (List.replicate 255 0x33#8);
      Answers (begunState .reference [x]) (begunHandle [x]) [x] [] [] ∧ 254 ≤ Params.reference.eepromMaxAddr ∧
        x.Carries [0x07#8, BitVec.ofNat 8 254, BitVec.ofNat 8 255] 255) ∧
    (let x := reading [0x0A#8, 0x00#8] (List.replicate 508 0x44#8);
      Answers (begunState .reference [x]) (begunHandle [x]) [x] [] [] ∧ 508 ≤ Params.reference.maxReadData ∧
        x.Carries [0x0A#8, 0x00#8] 508) :=
  ⟨⟨begun_answers (by decide), rfl, rfl⟩,
    ⟨begun_answers (by decide), by decide, rfl, List.length_replicate⟩, ⟨begun_answers (by decide), by decide, rfl, List.length_replicate⟩⟩

theorem test_witness_ProfileAndFieldOffComplete :
    (let x := oneWay [0x11#8, BitVec.ofNat 8 255, BitVec.ofNat 8 255];
      Answers (begunState .reference [x]) (begunHandle [x]) [x] [] [] ∧
        x.Carries [0x11#8, BitVec.ofNat 8 255, BitVec.ofNat 8 255] 0) ∧
    (let x := oneWay [0x17#8, 0x00#8];
      Answers (begunState .reference [x]) (begunHandle [x]) [x] [] [] ∧ x.Carries [0x17#8, 0x00#8] 0) :=
  ⟨⟨begun_answers (by decide), rfl, rfl⟩, ⟨begun_answers (by decide), rfl, rfl⟩⟩

/-- One transaction for each kind of frame of R99. -/
theorem test_witness_WireFramesComplete :
    ∀ t ∈ [([0x00#8, 0xFF#8] ++ le32 0xFFFFFFFF#32, 0), ([0x01#8, 0x00#8] ++ le32 0x00000003#32, 0),
        ([0x02#8, 0x00#8] ++ le32 0xFFFFFFF8#32, 0), ([0x04#8, 0x13#8], 4), ([0x07#8, 0xFE#8, 0x02#8], (0x02#8).toNat),
        ([0x09#8, 0x07#8] ++ [], 0), ([0x0A#8, 0x00#8], 3), ([0x11#8, 0x0D#8, 0x8D#8], 0), ([0x16#8, 0x00#8], 0),
        ([0x17#8, 0x00#8], 0)],
      let x := reading t.1 (List.replicate t.2 0x5A#8)
      Ready (begunState .reference [x]) (begunHandle [x]) ∧ Answers (begunState .reference [x]) (begunHandle [x]) [x] [] [] ∧
        x.Carries t.1 t.2 := by
  intro t _
  exact ⟨begun_ready _ _, begun_answers (by simp [fitsAll, reading, limitReached, Params.reference]), rfl, by simp [reading]⟩

theorem test_witness_BeginCompletes :
    ({ State.reset with now := ⟨1, 4⟩ } : State).handles[1]? = some Handle.powerUp ∧ Handle.powerUp.op = none ∧
      Handle.powerUp.stack = [] ∧ Handle.powerUp.tePhase = .idle := ⟨rfl, rfl, rfl, rfl⟩

/-- The transactions of V42, with a limit of 2 reads. -/
def resetXfers : ResetXfers := ⟨[irqXfer 0x00#8 0x00#8], irqXfer 0x04#8 0x00#8, clearXfer 0xFF#8 0xFF#8 0xFF#8 0xFF#8⟩

def twoReads : Params := { Params.reference with pollLimitStartup := some 2, pollLimitIrq := some 2 }

theorem test_witness_ResetCompletes :
    twoReads.wf = true ∧ Ready (begunState twoReads resetXfers.all) (begunHandle resetXfers.all) ∧ resetXfers.Starts twoReads ∧
      Answers (begunState twoReads resetXfers.all) (begunHandle resetXfers.all) resetXfers.all [] [] :=
  ⟨by decide, begun_ready _ _, ⟨by simp [resetXfers]; exact ⟨⟨rfl, rfl⟩, by decide⟩, by decide, ⟨⟨rfl, rfl⟩, by decide⟩, by decide, rfl⟩,
    begun_answers (by decide)⟩

theorem test_witness_IrqWaitsGiveUp :
    let misses := [irqXfer 0x00#8 0x00#8, irqXfer 0x80#8 0x01#8]
    twoReads.wf = true ∧ misses ≠ [] ∧ twoReads.pollLimitIrq = some misses.length ∧
      twoReads.pollLimitStartup = some misses.length ∧ (oneWay [0x16#8, 0x00#8]).Carries [0x16#8, 0x00#8] 0 ∧
      (∀ x ∈ misses, IrqReads twoReads twoReads.rfOnConfirmBit false x) ∧
      (∀ x ∈ misses, IrqReads twoReads twoReads.irqBitIdle false x) ∧
      Answers (begunState twoReads (oneWay [0x16#8, 0x00#8] :: misses)) (begunHandle (oneWay [0x16#8, 0x00#8] :: misses))
        (oneWay [0x16#8, 0x00#8] :: misses) [] [] ∧
      Answers (begunState twoReads misses) (begunHandle misses) misses [] [] := by
  refine ⟨by decide, by decide, rfl, rfl, ⟨rfl, rfl⟩, ?_, ?_, begun_answers (by decide), begun_answers (by decide)⟩ <;>
    simp only [List.forall_mem_cons, List.not_mem_nil, false_imp_iff, implies_true, and_true] <;>
    exact ⟨⟨⟨rfl, rfl⟩, by decide⟩, ⟨⟨rfl, rfl⟩, by decide⟩⟩

theorem test_witness_IrqOperationsComplete :
    (let x := irqXfer 0xFF#8 0xFF#8;
      Answers (begunState .reference [x]) (begunHandle [x]) [x] [] [] ∧ x.tx = [0x04#8, Params.reference.regIrqStatus] ∧
        x.rx = [0xFF#8, 0xFF#8, 0x00#8, 0x00#8]) ∧
    (let x := clearXfer 0xFF#8 0xFF#8 0xFF#8 0xFF#8;
      Answers (begunState .reference [x]) (begunHandle [x]) [x] [] [] ∧ 4294967295 < 2 ^ Params.reference.regValueBits ∧
        x.Carries ([0x00#8, Params.reference.regIrqClear] ++ le32 (BitVec.ofNat 32 4294967295)) 0) :=
  ⟨⟨begun_answers (by decide), rfl, rfl⟩, ⟨begun_answers (by decide), by decide, by decide, rfl⟩⟩

theorem test_witness_TransceiveStateCompletes :
    let x := stateXfer 0x07#8
    Params.reference.wf = true ∧ Ready (begunState .reference [x]) (begunHandle [x]) ∧
      Answers (begunState .reference [x]) (begunHandle [x]) [x] [] [] ∧ x.tx = [0x04#8, Params.reference.regRfStatus] ∧
      x.rx = [0x00#8, 0x00#8, 0x00#8, 0x07#8] := ⟨by decide, begun_ready _ _, begun_answers (by decide), rfl, rfl⟩

/-- Handle 0 initialised, busy high for the first three samples under a limit of 3. -/
def stalling (xs : List Xfer) : Handle :=
  { begunHandle [] with busyIn := xs.flatMap Xfer.busy ++ List.replicate 3 high, dataIn := xs.flatMap Xfer.data }

def stallingState (xs : List Xfer) : State :=
  { begunState limited [] with handles := [stalling xs, Handle.powerUp], now := ⟨0, budget xs + 2⟩ }

theorem test_witness_TransceiveStateSoftFails :
    limited.wf = true ∧ Ready (stallingState []) (stalling []) ∧ limited.pollLimitBusy = some (2 + 1) ∧
      (stalling []).busyIn = List.replicate (2 + 1) high ++ [] ∧ 2 + 9 ≤ (stallingState []).now.quantum ∧
      ∃ v : View, v.c.tePhase = .idle ∧ v.c.stack = ⟨.getTransceiveState, .returnState :: []⟩ :: [] ∧
        v.c.ret.status = .deviceNotResponding :=
  ⟨by decide, by constructor <;> rfl, rfl, rfl, by decide,
    ⟨0, limited, { begunHandle [] with
                   op := some .getTransceiveState, stack := [⟨.getTransceiveState, [.returnState]⟩]
                   ret := ⟨.deviceNotResponding, none⟩ }, ⟨none, [], [], []⟩⟩, rfl, rfl, rfl⟩

theorem test_witness_FallbackStateIsDeviceNotResponding :
    limited.wf = true ∧ Ready (stallingState [idleXfer, armXfer]) (stalling [idleXfer, armXfer]) ∧
      (List.replicate 260 0xAA#8).length ≤ limited.maxSendPayload ∧ RearmCarries limited idleXfer armXfer ∧
      idleXfer.Fits limited ∧ armXfer.Fits limited ∧ limited.pollLimitBusy = some (2 + 1) ∧
      (stalling [idleXfer, armXfer]).busyIn = idleXfer.busy ++ (armXfer.busy ++ (List.replicate (2 + 1) high ++ [])) ∧
      (stalling [idleXfer, armXfer]).dataIn = idleXfer.data ++ (armXfer.data ++ []) ∧
      budget [idleXfer, armXfer] + 2 ≤ (stallingState [idleXfer, armXfer]).now.quantum ∧
      ∃ v : View, v.c.tePhase = .idle ∧ v.c.stack = ⟨.sendData [] 0, .stateCheck :: []⟩ :: [] ∧ v.c.tsFallback = true :=
  ⟨by decide, by constructor <;> rfl, by rw [List.length_replicate]; decide, ⟨⟨by decide, rfl⟩, ⟨by decide, rfl⟩⟩,
    fits_of_check (xs := [idleXfer]) (by decide) _ (by simp), fits_of_check (xs := [armXfer]) (by decide) _ (by simp), rfl,
    by decide, by decide, Nat.le_refl _,
    ⟨0, limited, { begunHandle [] with op := some (.sendData [] 0), stack := [⟨.sendData [] 0, [.stateCheck]⟩], tsFallback := true },
      ⟨none, [], [], []⟩⟩, rfl, rfl, rfl⟩

/-- The transactions of a SEND_DATA whose state read gives `code`. -/
def sendXfers (code : Byte) (payload : List Byte) : SendXfers :=
  ⟨idleXfer, armXfer, stateXfer code, oneWay ([0x09#8, 0x00#8] ++ payload)⟩

theorem rearm_carries : RearmCarries .reference idleXfer armXfer := ⟨⟨by decide, rfl⟩, ⟨by decide, rfl⟩⟩

theorem test_witness_SendDataCompletes :
    let t := sendXfers 0x01#8 (List.replicate 260 0x77#8)
    Params.reference.wf = true ∧ Ready (begunState .reference t.all) (begunHandle t.all) ∧
      (List.replicate 260 0x77#8).length ≤ Params.reference.maxSendPayload ∧
      t.Sends .reference (BitVec.ofNat 8 0) (List.replicate 260 0x77#8) ∧
      Answers (begunState .reference t.all) (begunHandle t.all) t.all [] [] :=
  ⟨by decide, begun_ready _ _, by rw [List.length_replicate]; decide, ⟨⟨rearm_carries, ⟨rfl, rfl⟩, by decide⟩, rfl, rfl⟩,
    begun_answers (by decide +kernel)⟩

theorem test_witness_WrongStateIsSequenceError :
    let t := sendXfers 0x03#8 []
    Ready (begunState .reference [t.idle, t.arm, t.state]) (begunHandle [t.idle, t.arm, t.state]) ∧
      t.Arms .reference .waitReceive ∧ TransceiverState.waitReceive ≠ .waitTransmit ∧
      Answers (begunState .reference [t.idle, t.arm, t.state]) (begunHandle [t.idle, t.arm, t.state]) [t.idle, t.arm, t.state]
        [] [] :=
  ⟨begun_ready _ _, ⟨rearm_carries, ⟨rfl, rfl⟩, by decide⟩, by decide, begun_answers (by decide)⟩

theorem test_witness_SendEofCompletes :
    let t := sendXfers 0x01#8 []
    Ready (begunState .reference t.all) (begunHandle t.all) ∧ t.Sends .reference 0x00#8 [] ∧
      Answers (begunState .reference t.all) (begunHandle t.all) t.all [] [] :=
  ⟨begun_ready _ _, ⟨⟨rearm_carries, ⟨rfl, rfl⟩, by decide⟩, rfl, rfl⟩, begun_answers (by decide)⟩

/-- The transactions of V25. -/
def rfOnXfers : RfOnXfers :=
  ⟨oneWay [0x16#8, 0x00#8], [irqXfer 0x00#8 0x00#8], irqXfer 0x00#8 0x02#8, clearXfer 0x00#8 0x02#8 0x00#8 0x00#8⟩

theorem rfOn_confirms (p : Params) (hb : p.rfOnConfirmBit = 9) (hs : p.regIrqStatus = 0x02#8) (hc : p.regIrqClear = 0x03#8)
    (hl : limitReached p.pollLimitIrq 1 = false) : rfOnXfers.Confirms p := by
  unfold RfOnXfers.Confirms IrqReads
  rw [hb, hs, hc]
  exact ⟨⟨rfl, rfl⟩, by simp only [rfOnXfers, List.forall_mem_cons, List.not_mem_nil, false_imp_iff, implies_true, and_true]
                        exact ⟨⟨rfl, rfl⟩, by decide⟩, hl, ⟨⟨rfl, rfl⟩, by decide⟩, by decide, rfl⟩

theorem test_witness_RfOnCompletes :
    twoReads.wf = true ∧ Ready (begunState twoReads rfOnXfers.all) (begunHandle rfOnXfers.all) ∧ rfOnXfers.Confirms twoReads ∧
      Answers (begunState twoReads rfOnXfers.all) (begunHandle rfOnXfers.all) rfOnXfers.all [] [] :=
  ⟨by decide, begun_ready _ _, rfOn_confirms _ rfl rfl rfl rfl, begun_answers (by decide)⟩

/-- The transactions of V50, with one read more. -/
def setupTransactions : SetupXfers := ⟨oneWay [0x17#8, 0x00#8], oneWay [0x11#8, 0x0D#8, 0x8D#8], rfOnXfers, idleXfer, armXfer⟩

theorem setup_sets : setupTransactions.Sets .reference :=
  ⟨⟨rfl, rfl⟩, ⟨rfl, rfl⟩, rfOn_confirms _ rfl rfl rfl rfl, rearm_carries⟩

theorem test_witness_SetupRfCompletes :
    Ready (begunState .reference setupTransactions.all) (begunHandle setupTransactions.all) ∧ setupTransactions.Sets .reference ∧
      Answers (begunState .reference setupTransactions.all) (begunHandle setupTransactions.all) setupTransactions.all [] [] :=
  ⟨begun_ready _ _, setup_sets, begun_answers (by decide)⟩

/-- A slot whose IRQ status has the byte `b1` in bits 15:8, whose RX_STATUS has the bytes `l0`, `l1`, and whose EOF state read
gives `code`. -/
def slotXfers (b1 l0 l1 code : Byte) (rx : List Byte) : SlotXfers :=
  ⟨irqXfer 0x00#8 b1, reading [0x04#8, 0x13#8] [l0, l1, 0x00#8, 0x00#8], reading [0x0A#8, 0x00#8] rx,
    oneWay [0x02#8, 0x18#8, 0x3F#8, 0xFB#8, 0xFF#8, 0xFF#8], idleXfer, armXfer, clearXfer 0xFF#8 0xFF#8 0x0F#8 0x00#8,
    sendXfers code []⟩

/-- A pass with 12 silent slots, a response of 2 bytes, one of 0 bytes (V55), one of 509 (V54), and a slot whose EOF is not
sent (V53). -/
def passXfers : PassXfers :=
  ⟨setupTransactions, clearXfer 0xFF#8 0xFF#8 0x0F#8 0x00#8, sendXfers 0x01#8 [0x06#8, 0x01#8, 0x00#8],
    [slotXfers 0x40#8 0x02#8 0x00#8 0x01#8 [0xF0#8, 0xF1#8], slotXfers 0x40#8 0x00#8 0x00#8 0x01#8 [],
      slotXfers 0x40#8 0xFD#8 0x01#8 0x01#8 [], slotXfers 0x00#8 0x00#8 0x00#8 0x00#8 []] ++
      List.replicate 12 (slotXfers 0x00#8 0x00#8 0x00#8 0x01#8 [])⟩

theorem pass_runs : passXfers.Runs .reference := by
  refine ⟨setup_sets, ⟨by decide, rfl⟩, ⟨⟨rearm_carries, ⟨rfl, rfl⟩, by decide⟩, rfl, rfl⟩, rfl, ?_⟩
  intro sl h
  simp only [passXfers, List.mem_append, List.mem_cons, List.mem_replicate, List.not_mem_nil, or_false] at h
  rcases h with (rfl | rfl | rfl | rfl) | ⟨-, rfl⟩ <;>
    exact ⟨⟨rfl, rfl⟩, fun _ => ⟨rfl, rfl⟩, by unfold Xfer.Carries; decide, ⟨by decide, rfl⟩, rearm_carries, ⟨by decide, rfl⟩,
      rearm_carries, ⟨rfl, rfl⟩, fun _ => ⟨rfl, rfl⟩⟩

theorem test_witness_InventoryPassCompletes :
    Ready (begunState .reference (passXfers.made .reference)) (begunHandle (passXfers.made .reference)) ∧
      passXfers.Runs .reference ∧
      Answers (begunState .reference (passXfers.made .reference)) (begunHandle (passXfers.made .reference))
        (passXfers.made .reference) [] [] :=
  ⟨begun_ready _ _, pass_runs, begun_answers (by decide +kernel)⟩

/-- The same pass with every EOF sent. -/
def eofPass : PassXfers :=
  { passXfers with
    slots := [slotXfers 0x40#8 0x02#8 0x00#8 0x01#8 [0xF0#8, 0xF1#8], slotXfers 0x40#8 0xFD#8 0x01#8 0x01#8 []] ++
      List.replicate 14 (slotXfers 0x00#8 0x00#8 0x00#8 0x01#8 []) }

theorem test_witness_PassTransactionCount :
    Params.reference.wf = true ∧ Params.reference.nSlots = 16 ∧
      Ready (begunState .reference (eofPass.made .reference)) (begunHandle (eofPass.made .reference)) ∧
      Answers (begunState .reference (eofPass.made .reference)) (begunHandle (eofPass.made .reference))
        (eofPass.made .reference) [] [] ∧
      eofPass.Runs .reference ∧ (∀ sl ∈ eofPass.slots, sl.eof.ready .reference = true) := by
  refine ⟨by decide, rfl, begun_ready _ _, begun_answers (by decide +kernel), ⟨setup_sets, ⟨by decide, rfl⟩, ⟨⟨rearm_carries, ⟨rfl, rfl⟩, by decide⟩, rfl, rfl⟩, rfl, ?_⟩, by decide +kernel⟩
  intro sl h
  simp only [eofPass, List.mem_append, List.mem_cons, List.mem_replicate, List.not_mem_nil, or_false] at h
  rcases h with (rfl | rfl) | ⟨-, rfl⟩ <;>
    exact ⟨⟨rfl, rfl⟩, fun _ => ⟨rfl, rfl⟩, by unfold Xfer.Carries; decide, ⟨by decide, rfl⟩, rearm_carries, ⟨by decide, rfl⟩,
      rearm_carries, ⟨rfl, rfl⟩, fun _ => ⟨rfl, rfl⟩⟩

/-- With `test_witness_InventoryPassCompletes`. -/
theorem test_witness_PassShape :
    Params.reference.wf = true ∧ Params.reference.nSlots = 16 ∧
      Params.reference.broadIrqMask ≠ 1#32 <<< Params.reference.rfOnConfirmBit.val ∧ passXfers.Runs .reference :=
  ⟨by decide, rfl, by decide, pass_runs⟩

/-- Handle 0 inside a slot, with `ms` to do and a returned status. -/
def inSlot (st : Status) (ms : List Micro) : View :=
  ⟨0, .reference, { begunHandle [] with op := some .getInventory16Slots, stack := [⟨.getInventory16Slots, ms⟩], ret := ⟨st, none⟩,
                                        invSlot := some 5, invCount := some 1, invFrames := some [[0xF0#8]] }, ⟨none, [], [], []⟩⟩

theorem test_witness_InventorySlotErrors :
    (inSlot .rangeError [.slotFrame]).c.tePhase = .idle ∧
      (inSlot .rangeError [.slotFrame]).c.stack = [⟨.getInventory16Slots, .slotFrame :: []⟩] ∧
      (inSlot .rangeError [.slotFrame]).c.ret.status = .rangeError ∧
      (inSlot .deviceNotResponding [.slotFrame]).c.stack = [⟨.getInventory16Slots, .slotFrame :: []⟩] ∧
      (inSlot .deviceNotResponding [.slotFrame]).c.ret.status = .deviceNotResponding ∧
      (inSlot .sequenceError [.eofCheck]).c.stack = [⟨.getInventory16Slots, .eofCheck :: []⟩] ∧
      (inSlot .sequenceError [.eofCheck]).c.ret.status = .sequenceError ∧
      (inSlot .deviceNotResponding [.eofCheck]).c.ret.status = .deviceNotResponding := ⟨rfl, rfl, rfl, rfl, rfl, rfl, rfl, rfl⟩

/-- Handle 0 in a phase of a TRANSACT of a two-byte frame. -/
def inPhase (p : Params) (ph : TePhase) (cs : Level) (idx n : Nat) (rx : List Byte) (busy : List Level) (data : List Byte) : View :=
  ⟨0, p, { begunHandle [] with
           op := some (.transact [0x17#8, 0x00#8] n), stack := [⟨.transact [0x17#8, 0x00#8] n, [.propagate, .returnBytes]⟩]
           nss := some cs, tePhase := ph, txBuf := some [0x17#8, 0x00#8], txIdx := some idx, rxLen := some n, rxBuf := some rx
           pollCnt := some 2, busyIn := busy, dataIn := data }, ⟨some 0, [], [], []⟩⟩

/-- 10_state.md R44: a working register that holds no value faults when read, in the engine and in the inventory; the next theorem
has the same read after the register is written. -/
theorem test_noValue_faults :
    (let v := inPhase .reference .txBytes low 0 0 [] [] [];
      tick { v with c := { v.c with txBuf := none } } = .fault (.noValue .txBuf)) ∧
    (let v := inSlot .ok [.slotLoop];
      tick { v with c := { v.c with invSlot := none } } = .fault (.noValue .invSlot)) := ⟨rfl, rfl⟩

theorem test_value_read :
    (∃ w, tick (inPhase .reference .txBytes low 0 0 [] [] []) = .moved w) ∧ ∃ w, tick (inSlot .ok [.slotLoop]) = .moved w :=
  ⟨⟨_, rfl⟩, ⟨_, rfl⟩⟩

/-- Each of the five waits at the last sample a limit of 3 allows. -/
theorem test_witness_BusyWaitRunsOut :
    limited.pollLimitBusy = some 3 ∧ 3 ≤ 2 + 1 ∧
      ∀ t ∈ [(TePhase.wReadyTx, high, low, WaitStage.wReadyTx), (.wAcceptTx, low, high, .wAcceptTx),
        (.wDoneTx, high, low, .wDoneTx), (.wAcceptRx, low, high, .wAcceptRx), (.wDoneRx, high, low, .wDoneRx)],
        let v := inPhase limited t.1 low 2 4 [] [t.2.1] []
        awaited v.c.tePhase = some (t.2.2.1, t.2.2.2) ∧ v.c.pollCnt = some 2 ∧ v.sampleBusy.1 ≠ t.2.2.1 := by decide

theorem test_witness_BusyWaitCanHang :
    let v := inPhase .reference .wAcceptTx low 2 0 [] (List.replicate 1000 (!high)) []
    awaited v.c.tePhase = some (high, .wAcceptTx) ∧ v.params.pollLimitBusy = none ∧ v.c.pollCnt = some 2 ∧
      v.c.busyIn = List.replicate 1000 (!high) ++ [] := ⟨rfl, rfl, rfl, (List.append_nil _).symm⟩

/-- A transaction that ends `Ok` (unbounded), and one that times out. -/
theorem test_witness_TransactionsEndOkOrTimedOut :
    (∃ w, tick (inPhase .reference .wDoneTx high 2 0 [] [low] []) = .moved w ∧ w.c.tePhase = .idle ∧
      ownsBus (inPhase .reference .wDoneTx high 2 0 [] [low] []).c.tePhase = true ∧ Params.reference.pollLimitBusy = none) ∧
    (∃ w, tick (inPhase limited .wAcceptRx low 2 1 [0x01#8] [low] []) = .moved w ∧ w.c.tePhase = .idle ∧
      ownsBus (inPhase limited .wAcceptRx low 2 1 [0x01#8] [low] []).c.tePhase = true) :=
  ⟨⟨_, rfl, rfl, rfl, rfl⟩, ⟨_, rfl, rfl, rfl⟩⟩

theorem test_witness_EnginePhasesFollowTheTable :
    (∃ w, tick (inPhase .reference .rxBytes low 2 1 [0x01#8] [] []) = .moved w ∧ w.c.tePhase = .wAcceptRx) ∧
      (inPhase .reference .rxBytes low 2 1 [0x01#8] [] []).c.engineOk :=
  ⟨⟨_, rfl, rfl⟩, ⟨_, _, _, _, _, rfl, rfl, rfl, rfl, rfl, by decide⟩⟩

theorem test_witness_FrameBytesAreWritten :
    let v := inPhase .reference .txBytes low 1 0 [] [] [0xA5#8]
    v.c.tePhase = .txBytes ∧ v.c.txBuf = some [0x17#8, 0x00#8] ∧ v.c.txIdx = some 1 ∧ [0x17#8, 0x00#8][1]? = some 0x00#8 :=
  ⟨rfl, rfl, rfl, rfl⟩

theorem test_witness_ResponseBytesAreRead :
    (let v := inPhase .reference .rxBytes low 2 1 [] [] [0xA5#8];
      v.c.tePhase = .rxBytes ∧ v.c.rxBuf = some [] ∧ v.c.rxLen = some 1 ∧ ([] : List Byte).length < 1) ∧
    (let v := inPhase .reference .rxBytes low 2 1 [0xA5#8] [] [];
      v.c.rxBuf = some [0xA5#8] ∧ v.c.rxLen = some 1 ∧ 1 ≤ [0xA5#8].length) := by
  exact ⟨⟨rfl, rfl, rfl, by decide⟩, ⟨rfl, rfl, by decide⟩⟩

/-- Handle 0 waiting for the bus. -/
def atArbiter (owner : Option Nat) : View :=
  ⟨0, .reference, { begunHandle [] with
                    op := some (.transact [0xAB#8] 2), tePhase := .arb
                    stack := [⟨.transact [0xAB#8] 2, [.transact [0xAB#8] 2, .propagate, .returnBytes]⟩] }, ⟨owner, [], [], []⟩⟩

theorem test_witness_BusIsGrantedWhenFree :
    (atArbiter none).c.tePhase = .arb ∧
      (atArbiter none).c.stack = ⟨.transact [0xAB#8] 2, .transact [0xAB#8] 2 :: [.propagate, .returnBytes]⟩ :: [] ∧
      (atArbiter none).bus.busOwner = none ∧ (atArbiter (some 1)).bus.busOwner = some 1 := ⟨rfl, rfl, rfl, rfl⟩

theorem test_witness_RegistersReturnToNoValue :
    (∃ w, tick (inPhase .reference .wDoneRx high 2 1 [0x01#8] [low] []) = .moved w ∧ w.c.tePhase = .idle ∧
      (inPhase .reference .wDoneRx high 2 1 [0x01#8] [low] []).c.tePhase ≠ .idle) ∧
    (∃ w, tick (inSlot .ok [.invReturn]) = .moved w ∧
      (inSlot .ok [.invReturn]).c.stack = ⟨.getInventory16Slots, [.invReturn]⟩ :: [] ∧ w.c.stack = []) ∧
    Ready { begunState .reference [] with now := ⟨0, 2⟩ } (begunHandle []) :=
  ⟨⟨_, rfl, rfl, by decide⟩, ⟨_, rfl, rfl, rfl⟩, by constructor <;> rfl⟩

/-! Witnesses of the invariant. -/

theorem powerUp_ok : Handle.powerUp.Ok := by
  refine ⟨by decide, ⟨rfl, rfl, rfl, rfl, rfl⟩, ⟨.anything, trivial, rfl⟩, rfl, fun _ => ⟨rfl, rfl, rfl, rfl⟩, ?_⟩
  intro count frames h
  exact absurd h (by simp [Handle.powerUp])

/-- A machine whose handle 0 is sound, whose handle 1 is as at power-up. -/
theorem two_handles_inv {p : Params} {c : Handle} {b : Shared} {t : Turn} {ts : List Turn} (ok : c.Ok)
    (own : ownsBus c.tePhase = true ↔ b.busOwner = some 0) (only : ∀ h, b.busOwner = some h → h = 0) :
    State.Inv { State.powerUp p with handles := [c, Handle.powerUp], shared := b, now := t, sched := ts } := by
  refine ⟨?_, ?_, fun h e => by simp [only h e]⟩
  · intro h c' e
    match h, e with
    | 0, e => cases e; exact ok
    | 1, e => cases e; exact powerUp_ok
  · intro h c' e
    match h, e with
    | 0, e => cases e; exact own
    | 1, e =>
      cases e
      simp only [Handle.powerUp, ownsBus, Bool.false_eq_true, false_iff]
      exact fun e => absurd (only 1 e) (by decide)

theorem insideRfOff_inv : insideRfOff.Inv :=
  two_handles_inv
    ⟨by decide, ⟨rfl, rfl, rfl, rfl, rfl⟩, ⟨.anything, trivial, by decide⟩, rfl, fun _ => ⟨rfl, rfl, rfl, rfl⟩,
      fun _ _ h => nomatch h⟩ (by decide) (fun _ h => nomatch h)

/-- Handle 0 owns the bus and waits for busy to fall before it asserts chip-select. -/
def owning : State :=
  { State.powerUp .reference with
    handles := [(inPhase .reference .wReadyTx high 0 0 [] [low] []).c, Handle.powerUp], shared := ⟨some 0, [], [], []⟩
    now := ⟨0, 0⟩, sched := [⟨0, 1⟩] }

theorem owning_inv (ts : List Turn) : State.Inv { owning with sched := ts } :=
  two_handles_inv
    ⟨by decide, ⟨_, _, _, _, _, rfl, rfl, rfl, rfl, rfl, by decide⟩, ⟨0, rfl, by decide, by decide⟩, rfl,
      fun _ => ⟨rfl, rfl, rfl, rfl⟩, fun _ _ h => nomatch h⟩ (by decide) (fun _ h => by cases h; rfl)

theorem test_witness_BooleanIsTrueExactlyWhenOk :
    insideRfOff.Inv ∧ ∃ v w, insideRfOff.view 0 = some v ∧ v.c.stack = ⟨.rfOff, [.returnTrue]⟩ :: [] ∧ tick v = .moved w ∧
      w.c.stack = [] := ⟨insideRfOff_inv, _, _, rfl, rfl, rfl, rfl⟩

theorem test_witness_EndedOperationsReturnTheirKind :
    insideRfOff.Inv ∧ ∃ v w, insideRfOff.view 0 = some v ∧ v.c.stack = ⟨.rfOff, [.returnTrue]⟩ :: [] ∧ tick v = .moved w ∧
      w.c.stack = [] ∧ w.c.status = some .ok := ⟨insideRfOff_inv, _, _, rfl, rfl, rfl, rfl, rfl⟩

theorem test_witness_ErrorEndsTheOperation :
    let v := inSlot .sequenceError [.propagate]
    v.c.tePhase = .idle ∧ v.c.stack = ⟨.getInventory16Slots, .propagate :: []⟩ :: [] ∧ v.c.ret.status = .sequenceError ∧
      Status.sequenceError ≠ .ok := ⟨rfl, rfl, rfl, by decide⟩

/-- A busy wait and an IRQ wait that run out. -/
theorem test_witness_TimeoutStageNamesTheWait :
    (∃ w, tick (inPhase limited .wReadyTx high 0 0 [] [high] []) = .moved w ∧
      w.c.timeoutStage ≠ (inPhase limited .wReadyTx high 0 0 [] [high] []).c.timeoutStage) ∧
    (∃ v w, v.c.stack = [⟨.resetChip, [.irqTest 2 .wStartup 1]⟩] ∧ tick v = .moved w ∧
      w.c.timeoutStage ≠ v.c.timeoutStage) :=
  ⟨⟨_, rfl, by decide⟩,
    ⟨⟨0, twoReads, { begunHandle [] with op := some .resetChip, stack := [⟨.resetChip, [.irqTest 2 .wStartup 1]⟩]
                                         ret := ⟨.ok, some (.word 0x00000003#32)⟩ }, ⟨none, [], [], []⟩⟩, _, rfl, rfl, by decide⟩⟩

theorem test_witness_TransactionsAreCounted :
    ∃ t c, step (asked .reference (.host 0x0A#8 []) [oneWay [0x17#8, 0x00#8]]) = .next t ∧ t.handles[0]? = some c ∧
      c.txnCount = 1 := ⟨_, _, rfl, rfl, rfl⟩

theorem test_witness_OtherHandlesUntouched : ∃ t, step insideRfOff = .next t ∧ 1 ≠ t.now.handle := ⟨_, rfl, by decide⟩

theorem test_witness_BegunIsNeverCleared :
    ∃ t c, step insideRfOff = .next t ∧ insideRfOff.handles[0]? = some c ∧ c.begun = true := ⟨_, _, rfl, rfl, rfl⟩

theorem test_witness_OwnerIsUndisturbed :
    State.Inv { owning with sched := [⟨1, 50⟩] } ∧ ∃ t, step { owning with sched := [⟨1, 50⟩] } = .next t ∧
      owning.shared.busOwner = some 0 ∧ t.now.handle ≠ 0 := ⟨owning_inv _, _, rfl, rfl, by decide⟩

theorem test_witness_BusIsExclusive :
    owning.Inv ∧ ∃ t c, step owning = .next t ∧ t.handles[0]? = some c ∧ c.nss = some low := ⟨owning_inv _, _, _, rfl, rfl, rfl⟩

theorem test_witness_StepKeepsInvariant : owning.Inv ∧ ∃ t, step owning = .next t := ⟨owning_inv _, _, rfl⟩

/-- A machine whose handle 0 is `c` and has a turn of one transition. -/
def oneTick (p : Params) (c : Handle) : State :=
  { State.powerUp p with handles := [c, Handle.powerUp], sched := [⟨0, 1⟩, ⟨1, 7⟩] }

/-- Each clause; the two waits at the last failure their limits of 3 and 2 allow. -/
theorem test_witness_SuspensionPoints :
    (let c := (inPhase limited .wReadyTx high 0 0 [] [high] []).c;
      let s := oneTick limited { c with pollCnt := some 1 };
      s.sched = ⟨0, 1⟩ :: [⟨1, 7⟩] ∧ s.handles[0]? = some { c with pollCnt := some 1 } ∧ c.op ≠ none ∧
        awaited c.tePhase = some (low, .wReadyTx) ∧ limitReached s.params.pollLimitBusy (1 + 1) = false ∧
        (View.sampleBusy ⟨0, limited, { c with pollCnt := some 1 }, s.shared⟩).1 ≠ low) ∧
    (∀ ph ∈ [TePhase.txSetup, .txHold, .rxSetup, .rxHold],
      ∃ c, (oneTick .reference (inPhase .reference ph low 0 4 [] [] []).c).handles[0]? = some c ∧ c.op ≠ none ∧ c.tePhase = ph) ∧
    (∃ c, (oneTick .reference { begunHandle [] with op := some .resetChip, stack := [⟨.resetChip, [.delay (.us 10)]⟩] }).handles[0]? =
      some c ∧ c.op ≠ none ∧ c.tePhase = .idle ∧ c.stack = ⟨.resetChip, .delay (.us 10) :: []⟩ :: []) ∧
    (∃ c, (oneTick twoReads { begunHandle [] with
        op := some .resetChip, stack := [⟨.resetChip, [.irqTest 2 .wStartup 0]⟩]
        ret := ⟨.ok, some (.word 0x00000003#32)⟩ }).handles[0]? = some c ∧ c.op ≠ none ∧ c.tePhase = .idle ∧
      c.stack = ⟨.resetChip, .irqTest 2 .wStartup 0 :: []⟩ :: [] ∧ c.ret.result = some (.word 0x00000003#32) ∧
      (0x00000003#32).getLsbD 2 = false ∧ limitReached (irqLimit twoReads .wStartup) (0 + 1) = false) := by
  refine ⟨⟨rfl, rfl, by decide, rfl, by decide, by decide⟩, ?_, ⟨_, rfl, by decide, rfl, rfl⟩,
    ⟨_, rfl, by decide, rfl, rfl, rfl, by decide, by decide⟩⟩
  simp only [List.forall_mem_cons]
  exact ⟨⟨_, rfl, by decide, rfl⟩, ⟨_, rfl, by decide, rfl⟩, ⟨_, rfl, by decide, rfl⟩, ⟨_, rfl, by decide, rfl⟩, List.forall_mem_nil _⟩

/-- A pass at its start, and after its first three transitions. -/
def passStart : View :=
  ⟨0, .reference, { begunHandle [] with
                    op := some .getInventory16Slots
                    stack := [⟨.getInventory16Slots, programOf .reference .getInventory16Slots⟩] }, ⟨none, [], [], []⟩⟩

theorem test_witness_InventoryPhasesFollowTheTable :
    0 < Params.reference.nSlots ∧ ∃ v w, InPass .reference v ∧ tick v = .moved w ∧ w.c.invPhase ≠ v.c.invPhase ∧
      v.c.invPhase = .idle ∧ w.c.invPhase = .setup :=
  ⟨by decide, _, _, .moves (.others ⟨some 1, [], [], []⟩ (.moves (.starts rfl rfl rfl rfl : InPass .reference passStart) rfl)) rfl,
    rfl, by decide, rfl, rfl⟩

theorem test_witness_InvariantStatesNeverStop : owning.Inv ∧ insideRfOff.Inv := ⟨owning_inv _, insideRfOff_inv⟩

end Sys2Proof.Tests
end

section
/-! The statements about the state (10_state.md): the invariant over a step and at power-up, exclusive use of the bus, no stop,
what the history records. -/

namespace Sys2Proof.Machine

/-! ### The handles over a step -/

section
variable {s t : State} {c c' : Handle} {v w : View} {h : Nat}

theorem Moves.handle_after (m : Moves s t c v w) : t.handles[t.now.handle]? = some w.c := by
  rw [m.handles, List.getElem?_set_self (List.getElem?_eq_some_iff.mp m.here).1]

theorem Moves.handle_other (m : Moves s t c v w) (ne : h ≠ t.now.handle) : t.handles[h]? = s.handles[h]? := by
  rw [m.handles, List.getElem?_set_ne ne.symm]

/-- A handle after a step is the one that moved, as it is at the end of its turn, or one that did not move. -/
theorem Moves.handle_cases (m : Moves s t c v w) (after : t.handles[h]? = some c') :
    (h = t.now.handle ∧ c' = w.c) ∨ (h ≠ t.now.handle ∧ s.handles[h]? = some c') := by
  by_cases e : h = t.now.handle
  · subst e
    exact .inl ⟨rfl, Option.some.inj (after.symm.trans m.handle_after)⟩
  · exact .inr ⟨e, (m.handle_other e).symm.trans after⟩

/-- What becomes of a handle in a step: the one that moves is as its turn leaves it, the others stay. -/
theorem Moves.handle_next (m : Moves s t c v w) (before : s.handles[h]? = some c') :
    (h = t.now.handle ∧ c' = c ∧ t.handles[h]? = some w.c) ∨ (h ≠ t.now.handle ∧ t.handles[h]? = some c') := by
  by_cases e : h = t.now.handle
  · subst e
    exact .inl ⟨rfl, Option.some.inj (before.symm.trans m.here), m.handle_after⟩
  · exact .inr ⟨e, (m.handle_other e).trans before⟩

/-! ### The invariant over a step -/

theorem Rests.inv (r : Rests s t) (inv : s.Inv) : t.Inv := by
  constructor
  · simpa only [r.handles] using inv.handleOk
  · simpa only [r.handles, r.shared] using inv.busOwned
  · simpa only [r.handles, r.shared] using inv.ownerExists

/-- What the turn of the moving controller keeps, seen from the state before the step. -/
theorem Moves.keeps (m : Moves s t c v w) (inv : s.Inv) :
    w.Sound ∧ w.id = t.now.handle ∧ ∀ h, h ≠ t.now.handle → (w.bus.busOwner = some h ↔ s.shared.busOwner = some h) := by
  obtain ⟨sound, hid, howner⟩ := m.sound inv
  obtain ⟨w', hrun, sound', hid', -, hothers⟩ := run_keeps t.now.quantum sound
  obtain rfl : w = w' := Except.ok.inj (m.run.symm.trans hrun)
  exact ⟨sound', hid'.trans hid, fun h ne => by rw [hothers h (hid ▸ ne), howner]⟩

theorem Moves.inv (m : Moves s t c v w) (inv : s.Inv) : t.Inv := by
  obtain ⟨sound, hid, hothers⟩ := m.keeps inv
  constructor
  case handleOk =>
    intro h c' here
    obtain ⟨rfl, rfl⟩ | ⟨-, before⟩ := m.handle_cases here
    · exact sound.ok
    · exact inv.handleOk h c' before
  case busOwned =>
    intro h c' here
    rw [m.shared]
    obtain ⟨rfl, rfl⟩ | ⟨ne, before⟩ := m.handle_cases here
    · rw [← hid]; exact sound.owns
    · rw [hothers h ne]; exact inv.busOwned h c' before
  case ownerExists =>
    intro h owner
    rw [m.shared] at owner
    rw [m.handles, List.length_set]
    by_cases e : h = t.now.handle
    · exact e ▸ (List.getElem?_eq_some_iff.mp m.here).1
    · exact inv.ownerExists h ((hothers h e).mp owner)

end

/-- Settles O53: a controller that does not move changes nothing of the invariant's, and one that moves keeps its own share of it
in every transition of its turn (`run_keeps`). -/
theorem stepKeepsInvariant : Obligations.StepKeepsInvariant := by
  intro s t inv h
  obtain rests | ⟨c, v, w, moves⟩ := step_cases h
  · exact rests.inv inv
  · exact moves.inv inv

/-! ### Exclusive use of the bus -/

theorem ownsBus_of_assertsNss {ph : TePhase} (h : assertsNss ph = true) : ownsBus ph = true := by
  revert h; cases ph <;> decide

/-- A handle with its chip-select asserted is inside a transaction, so it owns the bus (10_state.md R30). -/
theorem State.Inv.owner_of_selected {s : State} (inv : s.Inv) {h : Nat} {c : Handle} (here : s.handles[h]? = some c)
    (selected : c.nss = some low) : s.shared.busOwner = some h :=
  (inv.busOwned h c here).mp (ownsBus_of_assertsNss ((inv.handleOk h c here).chipSelect.mp selected))

/-- Settles O52: the bus has at most one owner, and after the step every selected handle owns it. -/
theorem busIsExclusive : Obligations.BusIsExclusive := by
  intro s t h1 h2 c1 c2 inv step here1 here2 selected1 selected2
  have inv' : t.Inv := stepKeepsInvariant s t inv step
  have owner1 := inv'.owner_of_selected here1 selected1
  have owner2 := inv'.owner_of_selected here2 selected2
  exact ⟨Option.some.inj (owner1.symm.trans owner2), owner1⟩

/-! ### No stop -/

theorem View.Sound.runTurn_next {v : View} (sound : v.Sound) (s : State) : ∃ t, s.runTurn v = .next t := by
  obtain ⟨w, hrun, -⟩ := run_keeps s.now.quantum sound
  exact ⟨s.put w, by simp only [State.runTurn, hrun]⟩

theorem State.Inv.view_sound {s : State} (inv : s.Inv) {h : Nat} {v : View} (hv : s.view h = some v) :
    v.Sound ∧ v.params = s.params := by
  simp only [State.view, Option.map_eq_some_iff] at hv
  obtain ⟨c, here, rfl⟩ := hv
  exact ⟨inv.sound here, rfl⟩

/-- Every instruction runs, or its controller refuses it. -/
theorem State.Inv.exec_next {s : State} (inv : s.Inv) (i : Instr) : ∃ t, exec i s = .next t := by
  rw [exec_eq_issue]
  unfold issue
  split
  · exact ⟨_, rfl⟩
  · next v hv =>
    obtain ⟨sound, params⟩ := inv.view_sound hv
    split
    · next noOp => exact params ▸ (sound.issued noOp _).runTurn_next s
    · exact ⟨_, rfl⟩

/-- The requests that wait are no part of the invariant. -/
theorem State.Inv.withInbox {s : State} (inv : s.Inv) (inbox : List Request) : State.Inv { s with inbox := inbox } :=
  ⟨inv.handleOk, inv.busOwned, inv.ownerExists⟩

theorem State.Inv.acceptRequest_next {s : State} (inv : s.Inv) : ∃ t, acceptRequest exec s = .next t := by
  unfold acceptRequest
  split
  · exact ⟨_, rfl⟩
  · split
    · exact (inv.withInbox _).exec_next _
    · exact ⟨_, rfl⟩

theorem State.Inv.takeTurn {s : State} (inv : s.Inv) : s.takeTurn.Inv := by
  obtain ⟨handles, shared, params, -⟩ := takeTurn_fields s
  exact Rests.inv ⟨handles, shared, params⟩ inv

/-- Settles O55: the turn is a sound controller's, whose transitions never fault (`run_keeps`), or a request is accepted or
refused. -/
theorem invariantStatesNeverStop : Obligations.InvariantStatesNeverStop := by
  intro s inv
  unfold step turnStep
  split
  · exact inv.takeTurn.acceptRequest_next
  · next v hv =>
    split
    · exact inv.takeTurn.acceptRequest_next
    · exact (inv.takeTurn.view_sound hv).1.runTurn_next _

/-! ### The history -/

/-- Settles O48: the log grows by what the moving controller appends, and that controller alone starts transactions
(`Moves.grows`). -/
theorem transactionsAreCounted : Obligations.TransactionsAreCounted := by
  intro s t step
  obtain rests | ⟨c, v, w, moves⟩ := step_cases step
  · exact ⟨[], by rw [rests.shared, List.append_nil], fun h c here => ⟨c, by rw [rests.handles, here], rfl⟩⟩
  · obtain ⟨new, hlog, hcount, hothers⟩ := moves.grows.log
    refine ⟨new, by rw [moves.shared]; exact hlog, fun h d here => ?_⟩
    change ∃ d', t.handles[h]? = some d' ∧ d'.txnCount = d.txnCount + startsOf h new
    obtain ⟨rfl, rfl, after⟩ | ⟨ne, after⟩ := moves.handle_next here
    · exact ⟨w.c, after, hcount⟩
    · exact ⟨d, after, by rw [hothers h ne, Nat.add_zero]⟩

/-- Settles O50: no transition clears the bit (`Grows.begun`), and the other handles stay as they are. -/
theorem begunIsNeverCleared : Obligations.BegunIsNeverCleared := by
  intro s t h d step here begun
  obtain rests | ⟨c, v, w, moves⟩ := step_cases step
  · exact ⟨d, by rw [rests.handles, here], begun⟩
  · obtain ⟨-, rfl, after⟩ | ⟨-, after⟩ := moves.handle_next here
    · exact ⟨w.c, after, moves.grows.begun begun⟩
    · exact ⟨d, after, begun⟩

/-! ### Power-up -/

/-- A controller at power-up is idle, selects no chip and holds no value (10_state.md R43). -/
theorem Handle.powerUp_ok : Handle.powerUp.Ok where
  chipSelect := by decide
  engine := ⟨rfl, rfl, rfl, rfl, rfl⟩
  control := ⟨.anything, trivial, rfl⟩
  opInProgress := rfl
  inventoryEnded := fun _ => ⟨rfl, rfl, rfl, rfl⟩
  framesCounted := fun _ _ counted => nomatch counted

theorem State.powerUp_handle {p : Params} {h : Nat} {c : Handle} (here : (State.powerUp p).handles[h]? = some c) :
    c = Handle.powerUp :=
  List.eq_of_mem_replicate (List.mem_of_getElem? here)

theorem State.powerUp_inv (p : Params) : (State.powerUp p).Inv where
  handleOk := fun _ _ here => State.powerUp_handle here ▸ Handle.powerUp_ok
  busOwned := fun _ _ here => by rw [State.powerUp_handle here]; exact iff_of_false (by decide) (fun owner => nomatch owner)
  ownerExists := fun _ owner => nomatch owner

/-- Settles O54: neither the requests nor the turns to come are read by the invariant. -/
theorem powerUpMeetsInvariant : Obligations.PowerUpMeetsInvariant :=
  ⟨State.powerUp_inv _, fun p _ _ => Rests.inv (s := State.powerUp p) ⟨rfl, rfl, rfl⟩ (State.powerUp_inv p)⟩

/-- Settles O59: every handle is the power-up column of R43. -/
theorem powerUpValues : Obligations.PowerUpValues := by
  refine ⟨rfl, fun h c here => ?_, rfl, rfl⟩
  rw [State.powerUp_handle here]
  decide

end Sys2Proof.Machine
end

section
/-! A controller reads of the shared state only who owns the bus, and `DEBUG_ENABLE` only to choose what it traces: a change of
the rest is carried along unchanged by every transition (10_state.md R32; 60_exceptions.md R290). -/

namespace Sys2Proof.Machine

/-! ### Changes of what is not read -/

/-- Parameters without `DEBUG_ENABLE`. -/
def silent (p : Params) : Params := { p with debugEnable := false }

/-- A change of what was observed, and of whether a trace is kept, under which records are appended as before. -/
structure Unread where
  params : Params → Params
  log : List LogRec → List LogRec
  slots : List Slot → List Slot
  trace : List TraceRec → List TraceRec
  params_silent : ∀ p, silent (params p) = silent p
  log_append : ∀ l r, log (l ++ r) = log l ++ r
  slots_append : ∀ l r, slots (l ++ r) = slots l ++ r
  trace_append : ∀ p l r, trace (l ++ traced p r) = trace l ++ traced (params p) r

namespace Unread

variable (f : Unread)

/-- The view with the change made. -/
def view (v : View) : View :=
  { v with params := f.params v.params, bus := ⟨v.bus.busOwner, f.log v.bus.log, f.slots v.bus.slots, f.trace v.bus.trace⟩ }

/-- The outcome of a transition with the change made. -/
def outcome : Tick → Tick
  | .moved v => .moved (f.view v)
  | .held => .held
  | .fault e => .fault e

@[simp] theorem view_c (v : View) : (f.view v).c = v.c := rfl

@[simp] theorem view_id (v : View) : (f.view v).id = v.id := rfl

@[simp] theorem view_busOwner (v : View) : (f.view v).bus.busOwner = v.bus.busOwner := rfl

@[simp] theorem outcome_moved (v : View) : f.outcome (.moved v) = .moved (f.view v) := rfl

@[simp] theorem outcome_held : f.outcome .held = .held := rfl

@[simp] theorem outcome_fault (e : Fault) : f.outcome (.fault e) = .fault e := rfl

/-- What reads the parameters without `DEBUG_ENABLE` reads the same after the change. -/
theorem params_read {α : Sort*} (read : Params → α) (ignores : ∀ p, read (silent p) = read p) (p : Params) :
    read (f.params p) = read p := by
  rw [← ignores, f.params_silent, ignores]

/-! ### The named operations -/

theorem record (v : View) (r : LogRec) : (f.view v).record r = f.view (v.record r) := by
  simp only [view, View.record, f.log_append]

theorem debug (v : View) (op : Option Instr) (a : Option Nat) (bs : List Byte) :
    (f.view v).debug op a bs = f.view (v.debug op a bs) := by
  simp only [view, debug_eq, f.trace_append]

theorem setNss (v : View) (l : Level) : (f.view v).setNss l = f.view (v.setNss l) := by
  unfold View.setNss
  rw [apply_ite f.view]
  exact if_congr Iff.rfl rfl (f.record { v with c := { v.c with nss := some l } } _)

theorem setRst (v : View) (l : Level) : (f.view v).setRst l = f.view (v.setRst l) := by
  unfold View.setRst
  rw [apply_ite f.view]
  exact if_congr Iff.rfl rfl (f.record { v with c := { v.c with rst := some l } } _)

theorem wait (v : View) (t : Duration) : (f.view v).wait t = f.view (v.wait t) := f.record v _

theorem sampleBusy (v : View) : (f.view v).sampleBusy = (v.sampleBusy.1, f.view v.sampleBusy.2) := by
  unfold View.sampleBusy
  simp only [view_c]
  split <;> rfl

theorem sampleData (v : View) : (f.view v).sampleData = (v.sampleData.1, f.view v.sampleData.2) := by
  unfold View.sampleData
  simp only [view_c]
  split <;> rfl

theorem exchange (v : View) (o : Byte) : (f.view v).exchange o = ((v.exchange o).1, f.view (v.exchange o).2) := by
  simp only [View.exchange, f.sampleData]
  simp only [view, f.slots_append]

theorem prepend (v : View) (ms : List Micro) : (f.view v).prepend ms = f.view (v.prepend ms) := by
  unfold View.prepend
  simp only [view_c]
  split <;> rfl

theorem startOp (v : View) (op : Instr) (prog : List Micro) : (f.view v).startOp op prog = f.view (v.startOp op prog) := by
  unfold View.startOp
  rw [← f.debug, ← f.record]
  rfl

theorem endOp (v : View) (st : Status) (r : Option Result) : (f.view v).endOp st r = f.view (v.endOp st r) := by
  unfold View.endOp
  simp only [view_c]
  split
  · rfl
  · rw [← f.record]; rfl

theorem raise (v : View) (e : Status) : (f.view v).raise e = f.view (v.raise e) := by
  unfold View.raise
  simp only [view_c]
  split
  · rfl
  · exact f.endOp v e _

theorem finish (v : View) (st : Status) (rx : List Byte) : (f.view v).finish st rx = f.view (v.finish st rx) := by
  simp only [View.finish, f.record]
  rfl

theorem timeOut (v : View) (stage : WaitStage) : (f.view v).timeOut stage = f.view (v.timeOut stage) := by
  have hdeselect : (if (f.view v).c.nss = some low then (f.view v).setNss high else f.view v) =
      f.view (if v.c.nss = some low then v.setNss high else v) := by
    simp only [view_c, f.setNss, apply_ite f.view]
  unfold View.timeOut
  simp only [hdeselect]
  generalize (if v.c.nss = some low then v.setNss high else v) = u
  exact f.finish { u with c := { u.c with timeoutStage := some stage } } _ _

theorem grant (v : View) (op : Instr) (tx : List Byte) (n : Nat) : (f.view v).grant op tx n = f.view (v.grant op tx n) := by
  simp only [View.grant, debug_eq, View.record, View.acquire, View.enterWait, view, f.log_append, f.trace_append]

/-! ### The transitions -/

theorem pollBusy (v : View) (level : Level) (stage : WaitStage) {next : View → Tick}
    (hnext : ∀ u, next (f.view u) = f.outcome (next u)) :
    pollBusy (f.view v) level stage next = f.outcome (pollBusy v level stage next) := by
  unfold Machine.pollBusy
  have hlimit : (f.view v).params.pollLimitBusy = v.params.pollLimitBusy := f.params_read Params.pollLimitBusy (fun _ => rfl) _
  simp only [f.sampleBusy, view_c, hlimit]
  split
  · exact hnext _
  · split
    · rfl
    · next k _ =>
      split
      · exact congrArg Tick.moved
          (f.timeOut { v.sampleBusy.2 with c := { v.sampleBusy.2.c with pollCnt := some (k + 1) } } stage)
      · rfl

theorem tickTxBytes (v : View) : tickTxBytes (f.view v) = f.outcome (tickTxBytes v) := by
  unfold Machine.tickTxBytes
  simp only [view_c, f.exchange]
  split <;> try rfl
  split <;> rfl

theorem tickRxBytes (v : View) : tickRxBytes (f.view v) = f.outcome (tickRxBytes v) := by
  unfold Machine.tickRxBytes
  have hfill : (f.view v).params.readFillByte = v.params.readFillByte := f.params_read Params.readFillByte (fun _ => rfl) _
  simp only [view_c, f.exchange, hfill]
  split <;> try rfl
  split <;> rfl

theorem doneTx (v : View) : doneTx (f.view v) = f.outcome (doneTx v) := by
  unfold Machine.doneTx
  simp only [view_c, f.finish, f.setNss]
  split <;> rfl

theorem doneRx (v : View) : doneRx (f.view v) = f.outcome (doneRx v) := by
  unfold Machine.doneRx
  simp only [view_c, f.finish]
  split <;> rfl

theorem tickArb (v : View) : tickArb (f.view v) = f.outcome (tickArb v) := by
  unfold Machine.tickArb
  simp only [view_c, view_busOwner]
  split
  · next op tx n rest fs _ =>
    rw [apply_ite f.outcome]
    exact if_congr Iff.rfl (congrArg Tick.moved (f.grant { v with c := { v.c with stack := ⟨op, rest⟩ :: fs } } op tx n)) rfl
  · rfl

theorem tickEngine (v : View) (ph : TePhase) : tickEngine (f.view v) ph = f.outcome (tickEngine v ph) := by
  have hsetup : (f.view v).params.tCsSetupMs = v.params.tCsSetupMs := f.params_read Params.tCsSetupMs (fun _ => rfl) _
  have hhold : (f.view v).params.tCsHoldMs = v.params.tCsHoldMs := f.params_read Params.tCsHoldMs (fun _ => rfl) _
  have hselect : ∀ (l : Level) (ph' : TePhase) (u : View),
      Tick.moved (((f.view u).setNss l).enter ph') = f.outcome (.moved ((u.setNss l).enter ph')) :=
    fun l ph' u => by rw [f.setNss]; rfl
  cases ph <;> simp only [Machine.tickEngine, hsetup, hhold, f.wait]
  case idle => rfl
  case arb => exact f.tickArb v
  case wReadyTx => exact f.pollBusy v _ _ (hselect _ _)
  case txSetup => rfl
  case txBytes => exact f.tickTxBytes v
  case wAcceptTx => exact f.pollBusy v _ _ (hselect _ _)
  case txHold => rfl
  case wDoneTx => exact f.pollBusy v _ _ f.doneTx
  case rxSetup => rfl
  case rxBytes => exact f.tickRxBytes v
  case wAcceptRx => exact f.pollBusy v _ _ (hselect _ _)
  case rxHold => rfl
  case wDoneRx => exact f.pollBusy v _ _ f.doneRx

theorem irqTest (v : View) (bit : Fin 32) (stage : WaitStage) (k : Nat) :
    irqTest (f.view v) bit stage k = f.outcome (irqTest v bit stage k) := by
  unfold Machine.irqTest
  have hlimit : irqLimit (f.view v).params stage = irqLimit v.params stage :=
    f.params_read (irqLimit · stage) (fun _ => by cases stage <;> rfl) _
  simp only [view_c, hlimit, f.prepend]
  split
  · split
    · rfl
    · split
      · exact congrArg Tick.moved (f.raise { v with c := { v.c with timeoutStage := some stage } } _)
      · rfl
  · rfl

theorem stateCheck (v : View) : stateCheck (f.view v) = f.outcome (stateCheck v) := by
  unfold Machine.stateCheck
  simp only [view_c, f.raise]
  split
  · rfl
  · split
    · split <;> rfl
    · rfl

theorem returnRegister (v : View) : returnRegister (f.view v) = f.outcome (returnRegister v) := by
  unfold Machine.returnRegister
  simp only [view_c, f.endOp]
  split <;> rfl

theorem returnBytes (v : View) : returnBytes (f.view v) = f.outcome (returnBytes v) := by
  unfold Machine.returnBytes
  simp only [view_c, f.endOp]
  split <;> rfl

theorem returnWord (v : View) : returnWord (f.view v) = f.outcome (returnWord v) := by
  unfold Machine.returnWord
  simp only [view_c, f.endOp]
  split <;> rfl

theorem returnState (v : View) : returnState (f.view v) = f.outcome (returnState v) := by
  unfold Machine.returnState
  have hstate : ∀ value, transceiverOf (f.view v).params value = transceiverOf v.params value :=
    fun value => f.params_read (transceiverOf · value) (fun _ => rfl) _
  simp only [view_c, hstate]
  split
  · split
    · exact congrArg Tick.moved (f.endOp { v with c := { v.c with tsFallback := false } } _ _)
    · rfl
  · exact congrArg Tick.moved (f.endOp { v with c := { v.c with tsFallback := true } } _ _)

theorem slotLoop (v : View) : slotLoop (f.view v) = f.outcome (slotLoop v) := by
  unfold Machine.slotLoop
  have hslots : (f.view v).params.nSlots = v.params.nSlots := f.params_read Params.nSlots (fun _ => rfl) _
  have hbody : slotBody (f.view v).params = slotBody v.params := f.params_read slotBody (fun _ => rfl) _
  simp only [view_c, hslots, hbody, f.prepend]
  split
  · rfl
  · split <;> rfl

theorem sofTest (v : View) : sofTest (f.view v) = f.outcome (sofTest v) := by
  unfold Machine.sofTest
  have hbit : (f.view v).params.irqBitRxSof = v.params.irqBitRxSof := f.params_read Params.irqBitRxSof (fun _ => rfl) _
  have hresponse : slotResponse (f.view v).params = slotResponse v.params := f.params_read slotResponse (fun _ => rfl) _
  simp only [view_c, hbit, hresponse, f.prepend]
  split
  · split <;> rfl
  · rfl

theorem slotRead (v : View) : slotRead (f.view v) = f.outcome (slotRead v) := by
  unfold Machine.slotRead
  have hlength : ∀ value, responseLength (f.view v).params value = responseLength v.params value :=
    fun value => f.params_read (responseLength · value) (fun _ => rfl) _
  simp only [view_c, hlength, f.prepend]
  split <;> rfl

theorem slotFrame (v : View) : slotFrame (f.view v) = f.outcome (slotFrame v) := by
  unfold Machine.slotFrame
  simp only [view_c, f.raise]
  split
  · split <;> rfl
  · split <;> rfl

theorem invReturn (v : View) : invReturn (f.view v) = f.outcome (invReturn v) := by
  unfold Machine.invReturn
  simp only [view_c, f.endOp]
  split <;> rfl

theorem microStep (v0 v : View) (op : Instr) (m : Micro) :
    microStep (f.view v0) (f.view v) op m = f.outcome (microStep v0 v op m) := by
  have hrange : rangeOk (f.view v).params op = rangeOk v.params op :=
    f.params_read (rangeOk · op) (fun _ => by cases op <;> rfl) _
  have hprogram : ∀ i, programOf (f.view v).params i = programOf v.params i :=
    fun i => f.params_read (programOf · i) (fun _ => by cases i <;> rfl) _
  have hlevel : ∀ active, rstLevel (f.view v).params active = rstLevel v.params active :=
    fun active => f.params_read (rstLevel · active) (fun _ => rfl) _
  cases m <;>
    simp only [Machine.microStep, view_c, hrange, hprogram, hlevel, f.raise, f.endOp, f.startOp, f.prepend, f.setRst, f.setNss,
      f.wait, outcome_moved]
  case initCheck => split <;> rfl
  case rangeCheck => split <;> rfl
  case transact => split <;> rfl
  case propagate => split <;> rfl
  case irqTest => exact f.irqTest v _ _ _
  case setBegun => rfl
  case stateCheck => exact f.stateCheck v
  case returnBytes => exact f.returnBytes v
  case returnRegister => exact f.returnRegister v
  case returnWord => exact f.returnWord v
  case returnState => exact f.returnState v
  case invStart => rfl
  case invPhase => rfl
  case invSlotZero => rfl
  case slotLoop => exact f.slotLoop v
  case sofTest => exact f.sofTest v
  case slotRead => exact f.slotRead v
  case slotFrame => exact f.slotFrame v
  case eofCheck => split <;> rfl
  case slotNext => split <;> rfl
  case invReturn => exact f.invReturn v

theorem tickIdle (v : View) : tickIdle (f.view v) = f.outcome (tickIdle v) := by
  unfold Machine.tickIdle
  simp only [view_c, f.endOp]
  split
  · rfl
  · rfl
  · next op m rest fs _ => exact f.microStep v { v with c := { v.c with stack := ⟨op, rest⟩ :: fs } } op m

/-- A transition carries the change along. -/
theorem tick_view (v : View) : tick (f.view v) = f.outcome (tick v) := by
  unfold tick
  simp only [view_c, f.tickIdle, f.tickEngine, apply_ite f.outcome]

/-- A turn carries the change along. -/
theorem run_view : ∀ (q : Nat) (v : View), run q (f.view v) = (run q v).map f.view
  | 0, _ => rfl
  | q + 1, v => by
    simp only [run, f.tick_view]
    cases tick v with
    | moved w => exact run_view q w
    | held => rfl
    | fault e => rfl

end Unread

/-! ### What was observed before -/

/-- More was observed before; whether a trace is kept stays. -/
def Unread.earlier (log : List LogRec) (slots : List Slot) (trace : List TraceRec) : Unread where
  params := id
  log := (log ++ ·)
  slots := (slots ++ ·)
  trace := (trace ++ ·)
  params_silent := fun _ => rfl
  log_append := fun l r => (List.append_assoc log l r).symm
  slots_append := fun l r => (List.append_assoc slots l r).symm
  trace_append := fun p l r => (List.append_assoc trace l (traced p r)).symm

/-- Settles O56: a turn carries along whatever was observed before it (`Unread.run_view`). -/
theorem logIsNeverRead : Obligations.LogIsNeverRead := by
  intro q v log slots trace
  have h : run q ((Unread.earlier log slots trace).view v) = _ := Unread.run_view _ q v
  rw [show ({ v with bus := v.bus.observed log slots trace } : View) = (Unread.earlier log slots trace).view v from rfl, h]
  cases run q v <;> rfl

end Sys2Proof.Machine
end

section
/-! The statements about the wire order of register values and about the turn of a handle that does not own the bus
(20_memory.md). -/

namespace Sys2Proof.Machine

/-! ### Byte order -/

/-- The byte of a value from bit `k` up is that of `value / 2^k` when the 32-bit word holds it whole. -/
theorem extractLsb'_wordOf (value k : Nat) (h : k + 8 ≤ 32) : (wordOf value).extractLsb' k 8 = BitVec.ofNat 8 (value / 2 ^ k) := by
  apply BitVec.eq_of_getLsbD_eq
  intro i hi
  have inWord : k + i < 32 := by omega
  simp only [wordOf, BitVec.getLsbD_extractLsb', BitVec.getLsbD_ofNat, Nat.testBit_div_two_pow, hi, inWord, decide_true,
    Bool.true_and, Nat.add_comm]

/-- The wire bytes of a value are its digits to the base 256, least significant first (20_memory.md R62). -/
theorem le32_wordOf (value : Nat) : le32 (wordOf value) =
    [BitVec.ofNat 8 value, BitVec.ofNat 8 (value / 256), BitVec.ofNat 8 (value / 65536), BitVec.ofNat 8 (value / 16777216)] := by
  simp [le32, extractLsb'_wordOf]

/-- Settles O6: the frame of each write ends with `le32` of the value (`le32_wordOf`), and READ_REGISTER returns `from_le32` of
the bytes received (`fromLe32_toNat`). -/
theorem registerValuesAreLittleEndian : Obligations.RegisterValuesAreLittleEndian := by
  refine ⟨fun addr value _ => ?_, fun v0 v op b0 b1 b2 b3 received => ?_⟩
  · intro bytes p
    have hbytes : le32 (wordOf value) = bytes := le32_wordOf value
    simp [programOf, progWriteRegister, progWriteRegisterOr, progWriteRegisterAnd, writeRegisterFrame, writeRegisterOrFrame,
      writeRegisterAndFrame, byteOf, hbytes]
  · refine ⟨fromLe32 b0 b1 b2 b3, fromLe32_toNat b0 b1 b2 b3, ?_⟩
    simp only [microStep, returnRegister, received]

/-! ### Off the bus -/

/-- A record that asserts no chip-select and starts and ends no transaction. -/
def LogRec.offBus : LogRec → Bool
  | .nss _ l => l == high
  | .txnStart _ _ _ | .txnEnd _ _ _ => false
  | .rst _ _ | .delay _ _ | .opStart _ _ | .opEnd _ _ _ => true

theorem LogRec.ne_of_offBus {r : LogRec} (off : r.offBus = true) (h : Nat) :
    r ≠ .nss h low ∧ (∀ tx n, r ≠ .txnStart h tx n) ∧ ∀ st rx, r ≠ .txnEnd h st rx := by
  refine ⟨?_, fun tx n => ?_, fun st rx => ?_⟩ <;> rintro rfl <;> cases off

/-- From `b` to `b'` nothing was done on the bus: the owner stays, no byte was exchanged, and only records off the bus were
logged. -/
structure Shared.OffBus (b b' : Shared) : Prop where
  owner : b'.busOwner = b.busOwner
  slots : b'.slots = b.slots
  log : ∃ new : List LogRec, b'.log = b.log ++ new ∧ ∀ r ∈ new, r.offBus = true

/-- A transition that moves ends with nothing done on the bus since `b`. -/
def Tick.OffBus (b : Shared) : Tick → Prop
  | .moved w => b.OffBus w.bus
  | .held => True
  | .fault _ => True

namespace Shared.OffBus

theorem refl (b : Shared) : b.OffBus b := ⟨rfl, rfl, [], (List.append_nil _).symm, List.forall_mem_nil _⟩

variable {b : Shared} {v : View}

theorem record (h : b.OffBus v.bus) {r : LogRec} (off : r.offBus = true) : b.OffBus (v.record r).bus := by
  obtain ⟨owner, slots, new, log, hnew⟩ := h
  refine ⟨owner, slots, new ++ [r], by rw [View.record_log, log, List.append_assoc], ?_⟩
  exact List.forall_mem_append.mpr ⟨hnew, List.forall_mem_singleton.mpr off⟩

theorem debug (h : b.OffBus v.bus) (op : Option Instr) (a : Option Nat) (bs : List Byte) : b.OffBus (v.debug op a bs).bus :=
  ⟨(v.debug_busOwner op a bs).trans h.owner, (v.debug_slots op a bs).trans h.slots, by rw [View.debug_log]; exact h.log⟩

theorem deselect (h : b.OffBus v.bus) : b.OffBus (v.setNss high).bus := by
  unfold View.setNss
  split
  · exact h
  · exact record (v := { v with c := { v.c with nss := some high } }) h rfl

theorem setRst (h : b.OffBus v.bus) (l : Level) : b.OffBus (v.setRst l).bus := by
  unfold View.setRst
  split
  · exact h
  · exact record (v := { v with c := { v.c with rst := some l } }) h rfl

theorem prepend (h : b.OffBus v.bus) (ms : List Micro) : b.OffBus (v.prepend ms).bus := by
  unfold View.prepend
  split <;> exact h

theorem startOp (h : b.OffBus v.bus) (op : Instr) (prog : List Micro) : b.OffBus (v.startOp op prog).bus :=
  debug (record (v := { v with c := { v.c with stack := ⟨op, prog⟩ :: v.c.stack } }) h rfl) _ _ _

theorem endOp (h : b.OffBus v.bus) (st : Status) (r : Option Result) : b.OffBus (v.endOp st r).bus := by
  unfold View.endOp
  split
  · exact h
  · exact record (v := { v with c := _ }) h rfl

theorem raise (h : b.OffBus v.bus) (e : Status) : b.OffBus (v.raise e).bus := by
  unfold View.raise
  split
  · exact h
  · exact h.endOp e _

/-! ### The transitions of a controller outside a transaction -/

theorem irqTest (h : b.OffBus v.bus) (bit : Fin 32) (stage : WaitStage) (k : Nat) : (irqTest v bit stage k).OffBus b := by
  unfold Machine.irqTest
  split
  · split
    · exact h
    · split
      · exact raise (v := { v with c := { v.c with timeoutStage := some stage } }) h _
      · exact h.prepend _
  · trivial

theorem stateCheck (h : b.OffBus v.bus) : (stateCheck v).OffBus b := by
  unfold Machine.stateCheck
  split
  · exact h.raise _
  · split
    · split; exacts [h, h.raise _]
    · trivial

theorem returnState (h : b.OffBus v.bus) : (returnState v).OffBus b := by
  unfold Machine.returnState
  split
  · split
    · exact endOp (v := { v with c := { v.c with tsFallback := false } }) h _ _
    · trivial
  · exact endOp (v := { v with c := { v.c with tsFallback := true } }) h _ _

theorem slotFrame (h : b.OffBus v.bus) : (slotFrame v).OffBus b := by
  unfold Machine.slotFrame
  split
  · split; exacts [h, trivial, trivial, trivial]
  · split; exacts [h, h.raise _]

/-- No step of the pseudocode acts on the bus: the call of a transaction only waits for it. -/
theorem microStep {v0 : View} (h0 : b.OffBus v0.bus) (h : b.OffBus v.bus) (op : Instr) (m : Micro) :
    (microStep v0 v op m).OffBus b := by
  cases m <;> simp only [Machine.microStep]
  case initCheck => split; exacts [h, h.raise _]
  case rangeCheck => split; exacts [h, h.raise _]
  case transact => split; exacts [h.raise _, h0]
  case call => exact h.startOp _ _
  case propagate => split; exacts [h, h.raise _]
  case irqPoll => exact h.prepend _
  case irqTest => exact h.irqTest _ _ _
  case setRst => exact h.setRst _
  case deselect => exact h.deselect
  case setBegun => exact h
  case delay => exact h.record rfl
  case stateCheck => exact h.stateCheck
  case returnTrue => exact h.endOp _ _
  case returnBytes => unfold returnBytes; split; exacts [h.endOp _ _, trivial]
  case returnRegister => unfold returnRegister; split; exacts [h.endOp _ _, trivial]
  case returnWord => unfold returnWord; split; exacts [h.endOp _ _, trivial]
  case returnState => exact h.returnState
  case invStart => exact h
  case invPhase => exact h
  case invSlotZero => exact h
  case slotLoop => unfold slotLoop; split; exacts [trivial, by split; exacts [h.prepend _, h]]
  case sofTest => unfold sofTest; split; exacts [by split; exacts [h.prepend _, h], trivial]
  case slotRead => unfold slotRead; split; exacts [h.prepend _, trivial]
  case slotFrame => exact h.slotFrame
  case eofCheck => split; exacts [h.raise _, h]
  case slotNext => split; exacts [trivial, h]
  case invReturn => unfold invReturn; split; exacts [trivial, trivial, h.endOp _ _]

theorem tickIdle (h : b.OffBus v.bus) : (tickIdle v).OffBus b := by
  unfold Machine.tickIdle
  split
  · trivial
  · exact h.endOp _ _
  · next op m rest fs _ => exact microStep (v := v.at op rest fs) h h op m

end Shared.OffBus

/-- While the bus has an owner, a controller waiting for it holds (60_exceptions.md R287). -/
theorem tickArb_offBus {v : View} {owner : Nat} (owned : v.bus.busOwner = some owner) (b : Shared) : (tickArb v).OffBus b := by
  unfold tickArb
  split
  · rw [owned, if_neg (Option.some_ne_none owner)]; trivial
  · trivial

/-- A controller that is not the owner of the bus is outside a transaction or waits to start one. -/
theorem View.Sound.phase_of_not_owner {v : View} (sound : v.Sound) (ne : v.bus.busOwner ≠ some v.id) :
    v.c.tePhase = .idle ∨ v.c.tePhase = .arb := by
  have out : ownsBus v.c.tePhase ≠ true := fun own => ne (sound.owns.mp own)
  revert out
  cases v.c.tePhase <;> decide

section
variable {v w : View} {b : Shared} {owner : Nat}

theorem tick_offBus (sound : v.Sound) (owned : b.busOwner = some owner) (ne : owner ≠ v.id) (h : b.OffBus v.bus) :
    (tick v).OffBus b := by
  have owned' : v.bus.busOwner = some owner := h.owner.trans owned
  obtain idle | arb := sound.phase_of_not_owner (owned' ▸ fun e => ne (Option.some.inj e))
  · rw [tick_idle idle]
    exact h.tickIdle
  · rw [tick_engine arb (by decide)]
    exact tickArb_offBus owned' b

theorem run_offBus (owned : b.busOwner = some owner) : ∀ (q : Nat) {v : View}, v.Sound → owner ≠ v.id → b.OffBus v.bus →
    run q v = .ok w → b.OffBus w.bus
  | 0, _, _, _, h, hrun => by cases hrun; exact h
  | q + 1, v, sound, ne, h, hrun => by
    have off := tick_offBus sound owned ne h
    have keeps := tick_keeps sound
    simp only [run] at hrun
    cases ht : tick v with
    | moved u =>
      rw [ht] at hrun off keeps
      obtain ⟨sound', hid, -, -⟩ := keeps
      exact run_offBus owned q sound' (hid ▸ ne) off hrun
    | held => rw [ht] at hrun; cases hrun; exact h
    | fault f => rw [ht] at hrun; cases hrun

end

/-- The turn of a handle begins, with the operation it goes on with or starts, off the bus. -/
theorem Moves.starts_offBus {s t : State} {c : Handle} {v w : View} (m : Moves s t c v w) : s.shared.OffBus v.bus := by
  obtain ⟨-, rfl⟩ | ⟨i, -, rfl⟩ := m.start
  · exact .refl _
  · exact .startOp (v := ⟨t.now.handle, s.params, { c with op := some i }, s.shared⟩) (.refl _) i _

/-- A step of a handle that is not the owner does nothing on the bus. -/
theorem step_offBus {s t : State} {owner : Nat} (inv : s.Inv) (h : step s = .next t) (owned : s.shared.busOwner = some owner)
    (ne : t.now.handle ≠ owner) : s.shared.OffBus t.shared := by
  obtain rests | ⟨c, v, w, moves⟩ := step_cases h
  · exact rests.shared ▸ .refl _
  · obtain ⟨sound, hid, -⟩ := moves.sound inv
    exact moves.shared ▸ run_offBus owned _ sound (hid ▸ ne.symm) moves.starts_offBus moves.run

/-- Settles O51: the turn never leaves the steps of the pseudocode and the wait for the bus (`step_offBus`). -/
theorem ownerIsUndisturbed : Obligations.OwnerIsUndisturbed := by
  intro s t owner inv h owned ne
  obtain ⟨howner, slots, new, log, off⟩ := step_offBus inv h owned ne
  exact ⟨howner.trans owned, slots, new, log, fun r hr => LogRec.ne_of_offBus (off r hr)⟩

end Sys2Proof.Machine
end

section
/-! The statements about encodings and fields (30_encoding.md): `decode` and `encode` are inverse up to an omitted `valid_bits`, what
they refuse, and the two fields read from registers. -/

namespace Sys2Proof.Machine

/-! ### Byte order -/

/-- `le32(from_le32([b0,b1,b2,b3])) = [b0,b1,b2,b3]`. -/
theorem le32_fromLe32 (b0 b1 b2 b3 : Byte) : le32 (fromLe32 b0 b1 b2 b3) = [b0, b1, b2, b3] := by
  have value := fromLe32_toNat b0 b1 b2 b3
  have h0 := b0.isLt
  have h1 := b1.isLt
  have h2 := b2.isLt
  have h3 := b3.isLt
  have byte (start : Nat) (b : Byte) (h : (fromLe32 b0 b1 b2 b3).toNat / 2 ^ start % 2 ^ 8 = b.toNat) :
      (fromLe32 b0 b1 b2 b3).extractLsb' start 8 = b :=
    BitVec.eq_of_toNat_eq (by rw [BitVec.extractLsb'_toNat, Nat.shiftRight_eq_div_pow, h])
  rw [le32, byte 0 b0 (by omega), byte 8 b1 (by omega), byte 16 b2 (by omega), byte 24 b3 (by omega)]

/-- A byte is known by its value. -/
theorem byte_eq_ofNat {b : Byte} {k : Nat} (h : b.toNat = k) : b = BitVec.ofNat 8 k := by
  rw [← h, BitVec.ofNat_toNat, BitVec.setWidth_eq]

/-! ### What `decode` answers to a frame -/

/-- A frame whose read length is the receive length of the instruction it decodes to is that instruction (R99). -/
theorem decode_wire_ok {frame : List Byte} {n : Nat} {i : Instr} (h : decodeFrame frame n = .ok i) (len : n = receiveLength i) :
    decode (.wire frame n) = .ok i := by
  simp only [decode, h, if_pos len]

theorem decode_wire_error {frame : List Byte} {n : Nat} {e : DecodeError} (h : decodeFrame frame n = .error e) :
    decode (.wire frame n) = .error e := by
  simp only [decode, h]

theorem decode_wire_cases {frame : List Byte} {n : Nat} {i : Instr} (h : decode (.wire frame n) = .ok i) :
    decodeFrame frame n = .ok i ∧ n = receiveLength i := by
  simp only [decode] at h
  split at h
  · next j hj =>
    split at h
    · next len => cases h; exact ⟨hj, len⟩
    · cases h
  · cases h

/-- A frame that decodes is, with the receive length of R99, the encoding of its instruction (R84 to R93). -/
theorem encode_of_decodeFrame {frame : List Byte} {n : Nat} {i : Instr} (h : decodeFrame frame n = .ok i)
    (len : n = receiveLength i) : encode i = .wire frame n := by
  cases frame with
  | nil => cases h
  | cons op rest =>
    simp only [decodeFrame] at h
    split at h
    case h_11 => split at h <;> cases h
    all_goals
      cases h
      rw [byte_eq_ofNat ‹op.toNat = _›, len]
      simp [encode, receiveLength, writeRegisterFrame, writeRegisterOrFrame, writeRegisterAndFrame, readRegisterFrame,
        readEepromFrame, sendDataFrame, readDataFrame, loadRfConfigFrame, rfOnFrame, rfOffFrame, le32_fromLe32]

/-- The opcodes of the map of R99. -/
def frameOpcodes : List Byte := [0x00#8, 0x01#8, 0x02#8, 0x04#8, 0x07#8, 0x09#8, 0x0A#8, 0x11#8, 0x16#8, 0x17#8]

/-- A frame that decodes has an opcode of the map and its length: for SEND_DATA at least that of R99, for the others exactly that. -/
theorem length_of_decodeFrame {op : Byte} {rest : List Byte} {n : Nat} {i : Instr} (h : decodeFrame (op :: rest) n = .ok i) :
    op ∈ frameOpcodes ∧ frameLength op ≤ rest.length + 1 ∧ (op ≠ 0x09#8 → rest.length + 1 = frameLength op) := by
  simp only [decodeFrame] at h
  split at h
  case h_11 => split at h <;> cases h
  all_goals rw [byte_eq_ofNat ‹op.toNat = _›]; simp [frameOpcodes, frameLength]

/-- Why a frame with an opcode byte does not decode (R102). -/
theorem error_of_decodeFrame {op : Byte} {rest : List Byte} {n : Nat} {e : DecodeError}
    (h : decodeFrame (op :: rest) n = .error e) :
    e = if op ∈ frameOpcodes then .wrongFrameLength op (rest.length + 1) else .unknownOpcode op := by
  have opcodes : op.toNat ∈ [0x00, 0x01, 0x02, 0x04, 0x07, 0x09, 0x0A, 0x11, 0x16, 0x17] ↔ op ∈ frameOpcodes := by
    simp [frameOpcodes, ← BitVec.toNat_inj]
  simp only [decodeFrame, List.length_cons] at h
  split at h
  case h_11 =>
    rw [← if_congr opcodes rfl rfl]
    split at h
    · next mapped => cases h; rw [if_pos mapped]
    · next unmapped => cases h; rw [if_neg unmapped]
  all_goals cases h

/-- A frame that decodes to nothing is refused, by its opcode or by its length. -/
theorem decode_wire_invalid {op : Byte} {rest : List Byte} (n : Nat) (no : ∀ i, decodeFrame (op :: rest) n ≠ .ok i) :
    decode (.wire (op :: rest) n) =
      .error (if op ∈ frameOpcodes then .wrongFrameLength op (rest.length + 1) else .unknownOpcode op) := by
  cases h : decodeFrame (op :: rest) n with
  | ok i => exact absurd h (no i)
  | error e => rw [decode_wire_error h, error_of_decodeFrame h]

theorem decode_unknownOpcode {op : Byte} (out : op ∉ frameOpcodes) (rest : List Byte) (n : Nat) :
    decode (.wire (op :: rest) n) = .error (.unknownOpcode op) := by
  rw [decode_wire_invalid n fun i h => out (length_of_decodeFrame h).1, if_neg out]

theorem decode_wrongFrameLength {op : Byte} {rest : List Byte} (mapped : op ∈ frameOpcodes)
    (len : rest.length + 1 < frameLength op ∨ op ≠ 0x09#8 ∧ rest.length + 1 ≠ frameLength op) (n : Nat) :
    decode (.wire (op :: rest) n) = .error (.wrongFrameLength op (rest.length + 1)) := by
  rw [decode_wire_invalid n fun i h => ?_, if_pos mapped]
  obtain ⟨-, least, fixed⟩ := length_of_decodeFrame h
  obtain short | ⟨notSend, other⟩ := len
  · omega
  · exact other (fixed notSend)

/-! ### What `decode` answers to a host operation -/

@[simp] theorem argTypes_eq_nil {args : List Arg} : argTypes args = [] ↔ args = [] := List.map_eq_nil_iff

@[simp] theorem argTypes_eq_num {args : List Arg} {ts : List ArgType} :
    argTypes args = .num :: ts ↔ ∃ n rest, args = .num n :: rest ∧ argTypes rest = ts := by
  rcases args with _ | ⟨n | bs, rest⟩ <;> simp [argTypes]

@[simp] theorem argTypes_eq_bytes {args : List Arg} {ts : List ArgType} :
    argTypes args = .bytes :: ts ↔ ∃ bs rest, args = .bytes bs :: rest ∧ argTypes rest = ts := by
  rcases args with _ | ⟨n | bs, rest⟩ <;> simp [argTypes]

/-- A host operation that decodes is the encoding of its instruction, or a SEND_DATA without `valid_bits` (R80, R81). -/
theorem encode_of_decodeHost {sel : Byte} {args : List Arg} {i : Instr} (h : decodeHost sel args = .ok i) :
    encode i = .host sel args ∨ ∃ payload, sel = 0x06#8 ∧ args = [.bytes payload] ∧ i = .sendData payload 0 := by
  unfold decodeHost at h
  split at h
  case h_8 payload code => cases h; exact .inr ⟨payload, byte_eq_ofNat code, rfl, rfl⟩
  case h_21 => split at h <;> cases h
  all_goals cases h; rw [byte_eq_ofNat ‹sel.toNat = _›]; exact .inl rfl

/-- The arguments of an operation that decodes have its types (R82). -/
theorem argTypes_of_decodeHost {sel : Byte} {args : List Arg} {i : Instr} (h : decodeHost sel args = .ok i) :
    argTypes args ∈ hostSignatures sel := by
  unfold decodeHost at h
  split at h
  case h_21 => split at h <;> cases h
  all_goals rw [byte_eq_ofNat ‹sel.toNat = _›]; simp [hostSignatures]

/-- Arguments of the right number and types decode, whatever their values. -/
theorem decodeHost_of_argTypes {sel : Byte} {args : List Arg} (h : argTypes args ∈ hostSignatures sel) :
    ∃ i, decodeHost sel args = .ok i := by
  unfold hostSignatures at h
  split at h
  case h_1 =>
    obtain ⟨tx, n, rfl⟩ : ∃ tx n, args = [.bytes tx, .num n] := by simpa using h
    rw [byte_eq_ofNat ‹sel.toNat = _›]; exact ⟨_, rfl⟩
  case h_2 | h_3 | h_4 | h_5 | h_6 =>
    obtain ⟨a, b, rfl⟩ : ∃ a b, args = [.num a, .num b] := by simpa using h
    rw [byte_eq_ofNat ‹sel.toNat = _›]; exact ⟨_, rfl⟩
  case h_7 | h_8 | h_9 =>
    obtain ⟨a, rfl⟩ : ∃ a, args = [.num a] := by simpa using h
    rw [byte_eq_ofNat ‹sel.toNat = _›]; exact ⟨_, rfl⟩
  case h_10 =>
    rw [byte_eq_ofNat ‹sel.toNat = _›]
    obtain ⟨payload, n, rfl⟩ | ⟨payload, rfl⟩ :
        (∃ payload n, args = [.bytes payload, .num n]) ∨ ∃ payload, args = [.bytes payload] := by simpa using h
    · exact ⟨_, rfl⟩
    · exact ⟨_, rfl⟩
  case h_20 => cases h
  all_goals
    obtain rfl : args = [] := by simpa using h
    rw [byte_eq_ofNat ‹sel.toNat = _›]; exact ⟨_, rfl⟩

/-- Why a host operation does not decode (R80, R101). -/
theorem error_of_decodeHost {sel : Byte} {args : List Arg} {e : DecodeError} (h : decodeHost sel args = .error e) :
    e = if sel.toNat ≤ 0x12 then .wrongArguments sel else .unassignedSelector sel := by
  unfold decodeHost at h
  split at h
  case h_21 => split at h <;> cases h <;> simp only [*, if_true, if_false]
  all_goals cases h

/-- A host operation whose arguments are of other types than its own is refused. -/
theorem decode_host_refused {sel : Byte} {args : List Arg} (mistyped : argTypes args ∉ hostSignatures sel) :
    decode (.host sel args) = .error (if sel.toNat ≤ 0x12 then .wrongArguments sel else .unassignedSelector sel) := by
  change decodeHost sel args = _
  cases h : decodeHost sel args with
  | ok i => exact absurd (argTypes_of_decodeHost h) mistyped
  | error e => rw [error_of_decodeHost h]

/-- A selector above 0x12 has no operation (R80). -/
theorem hostSignatures_unassigned {sel : Byte} (unassigned : 0x12 < sel.toNat) : hostSignatures sel = [] := by
  unfold hostSignatures
  split
  case h_20 => rfl
  all_goals omega

/-! ### The statements -/

/-- Settles O1: a frame carries its operands as they are, a value or mask as the bytes of `le32` (`fromLe32_bytes`); a host operation
carries them as its arguments. -/
theorem decodeEncodeAgree : Obligations.DecodeEncodeAgree := by
  intro i
  cases i with
  | wireWriteRegister addr value =>
    exact decode_wire_ok (congrArg (Except.ok ∘ Instr.wireWriteRegister addr) (fromLe32_bytes value)) rfl
  | wireWriteRegisterOrMask addr mask =>
    exact decode_wire_ok (congrArg (Except.ok ∘ Instr.wireWriteRegisterOrMask addr) (fromLe32_bytes mask)) rfl
  | wireWriteRegisterAndMask addr mask =>
    exact decode_wire_ok (congrArg (Except.ok ∘ Instr.wireWriteRegisterAndMask addr) (fromLe32_bytes mask)) rfl
  | wireReadRegister | wireReadEeprom | wireSendData | wireReadData | wireLoadRfConfig | wireRfOn | wireRfOff =>
    exact decode_wire_ok rfl rfl
  | _ => rfl

/-- Settles O2: frames by `encode_of_decodeFrame`, host operations by `encode_of_decodeHost`. -/
theorem decodedRequestsAreEncodings : Obligations.DecodedRequestsAreEncodings := by
  intro b i h
  cases b with
  | wire frame n =>
    obtain ⟨hframe, len⟩ := decode_wire_cases h
    exact .inl (encode_of_decodeFrame hframe len).symm
  | host sel args =>
    obtain hi | ⟨payload, rfl, rfl, rfl⟩ := encode_of_decodeHost h
    · exact .inl hi.symm
    · exact .inr ⟨payload, rfl, rfl⟩

/-- Settles O3: `decodeHost` accepts exactly the argument lists of the table and names the reason of every other answer. -/
theorem unassignedAndMistypedRefused : Obligations.UnassignedAndMistypedRefused := by
  refine ⟨fun sel args unassigned => ?_, fun sel args assigned mistyped => ?_, fun sel args typed => decodeHost_of_argTypes typed⟩
  · rw [decode_host_refused (by simp [hostSignatures_unassigned unassigned]), if_neg (by omega)]
  · rw [decode_host_refused mistyped, if_pos assigned]

/-- Settles O4: the opcode is outside the map, or the length is not the one the map gives it. -/
theorem framesOutsideTheMapAreInvalid : Obligations.FramesOutsideTheMapAreInvalid := by
  have fixed {ops : List Byte} {len : Nat}
      (row : ∀ op ∈ ops, op ∈ frameOpcodes ∧ op ≠ 0x09#8 ∧ frameLength op = len + 1) (op : Byte) (rest : List Byte) (n : Nat)
      (hop : op ∈ ops) (other : rest.length ≠ len) :
      decode (.wire (op :: rest) n) = .error (.wrongFrameLength op (rest.length + 1)) := by
    obtain ⟨mapped, notSend, hlen⟩ := row op hop
    exact decode_wrongFrameLength mapped (.inr ⟨notSend, by omega⟩) n
  exact ⟨fun op rest n out => decode_unknownOpcode out rest n, fixed (by decide), fixed (by decide), fixed (by decide),
    decode_wrongFrameLength (by decide) (.inl (by decide))⟩

/-- Settles O5: each sample is the encoding of what it stands for. -/
theorem sampleFramesDecode : Obligations.SampleFramesDecode :=
  ⟨decodeEncodeAgree (.wireWriteRegister 0x03#8 0x000FFFFF#32), decodeEncodeAgree (.wireWriteRegisterOrMask 0x00#8 0x00000003#32),
    decodeEncodeAgree (.wireWriteRegisterAndMask 0x00#8 0xFFFFFFF8#32), decodeEncodeAgree (.wireReadRegister 0x1D#8),
    decodeEncodeAgree (.wireReadEeprom 0x10#8 0x02#8), decodeEncodeAgree (.wireSendData 0x00#8 [0x06#8, 0x01#8, 0x00#8]),
    decodeEncodeAgree (.wireReadData 12 0x00#8), decodeEncodeAgree (.wireLoadRfConfig 0x0D#8 0x8D#8),
    decodeEncodeAgree (.wireRfOn 0x00#8), decodeEncodeAgree (.wireRfOff 0x00#8), decodeEncodeAgree (.readEeprom 0x10 2),
    decodeEncodeAgree .getInventory16Slots⟩

/-! ### The fields read from registers -/

/-- A field is the bits of the register from `shift` up (00_scope.md R11). -/
theorem field_eq (v : Word) (shift width : Nat) : field v shift width = (v.extractLsb' shift width).toNat :=
  (BitVec.extractLsb'_toNat shift width v).symm

/-- Settles O7: the field is a code below 8, and the eight codes are met one by one. -/
theorem transceiverCodes : Obligations.TransceiverCodes := by
  intro p v shift width
  have states : ∀ code < 8, [TransceiverState.idle, .waitTransmit, .transmitting, .waitReceive, .waitForData, .receiving,
      .loopBack, .reserved][code]? = some (transceiverOfCode code) := by decide
  rw [transceiverOf, shift, width, field_eq]
  exact states _ (BitVec.isLt _)

/-- Settles O8: the length is the value of that 9-bit field (`field_eq`). -/
theorem responseLengthIsLowNineBits : Obligations.ResponseLengthIsLowNineBits := by
  intro p v w width
  have low (v : Word) : responseLength p v = (v.extractLsb' 0 9).toNat := by rw [responseLength, width, field_eq]
  refine ⟨low v, ?_, fun same => by rw [low v, low w, same]⟩
  rw [low v]
  exact Nat.le_of_lt_succ (BitVec.isLt _)

end Sys2Proof.Machine
end

section
/-! The statements about a step and about the command frames (30_encoding.md R80, R83, R99, R101): which request a turn takes, when
its controller runs it, refuses it or goes on, and that a frame is one transaction. -/

namespace Sys2Proof.Machine

/-! ### Turns, views and requests -/

theorem State.takeTurn_scheduled {s : State} {t : Turn} {ts : List Turn} (sched : s.sched = t :: ts) :
    s.takeTurn = { s with sched := ts, now := t } := by
  simp only [State.takeTurn, sched]

theorem State.view_eq {s : State} {h : Nat} {c : Handle} (here : s.handles[h]? = some c) :
    s.view h = some ⟨h, s.params, c, s.shared⟩ := by
  simp only [State.view, here, Option.map_some]

theorem State.view_absent {s : State} {h : Nat} (absent : s.handles[h]? = none) : s.view h = none := by
  simp only [State.view, absent, Option.map_none]

/-- The oldest request for a handle is the first one in the inbox that names it. -/
theorem takeRequest_oldest {h : Nat} {before after : List Request} {r : Request} (hr : r.handle = h)
    (others : ∀ q ∈ before, q.handle ≠ h) : takeRequest h (before ++ r :: after) = some (r, before ++ after) := by
  induction before with
  | nil => simp only [List.nil_append, takeRequest, if_pos hr]
  | cons q qs ih =>
    obtain ⟨hq, hqs⟩ := List.forall_mem_cons.mp others
    simp only [List.cons_append, takeRequest, if_neg hq, ih hqs]

theorem takeRequest_none {h : Nat} {inbox : List Request} (others : ∀ q ∈ inbox, q.handle ≠ h) : takeRequest h inbox = none := by
  induction inbox with
  | nil => rfl
  | cons q qs ih =>
    obtain ⟨hq, hqs⟩ := List.forall_mem_cons.mp others
    simp only [takeRequest, if_neg hq, ih hqs]

/-! ### What a turn does -/

section
variable {s : State}

/-- The turn of a controller with no operation in progress, or of an index without one, looks for a request. -/
theorem turnStep_accepts (noOp : ∀ c, s.handles[s.now.handle]? = some c → c.op = none) :
    turnStep exec s = acceptRequest exec s := by
  cases here : s.handles[s.now.handle]? with
  | none => simp only [turnStep, State.view_absent here]
  | some c => simp only [turnStep, State.view_eq here, noOp c here, if_true]

theorem turnStep_accepts_idle {c : Handle} (here : s.handles[s.now.handle]? = some c) (noOp : c.op = none) :
    turnStep exec s = acceptRequest exec s :=
  turnStep_accepts fun _ here' => Option.some.inj (here.symm.trans here') ▸ noOp

/-- The turn of a controller with an operation in progress goes on with it. -/
theorem turnStep_goes_on {c : Handle} {op : Instr} (here : s.handles[s.now.handle]? = some c) (busy : c.op = some op) :
    turnStep exec s = s.runTurn ⟨s.now.handle, s.params, c, s.shared⟩ := by
  simp only [turnStep, State.view_eq here, busy, reduceCtorEq, if_false]

theorem acceptRequest_ok {before after : List Request} {r : Request} {i : Instr} (inbox : s.inbox = before ++ r :: after)
    (hr : r.handle = s.now.handle) (others : ∀ q ∈ before, q.handle ≠ s.now.handle) (dec : decode r.body = .ok i) :
    acceptRequest exec s = exec i { s with inbox := before ++ after } := by
  simp only [acceptRequest, inbox, takeRequest_oldest hr others, dec]

theorem acceptRequest_error {before after : List Request} {r : Request} {e : DecodeError} (inbox : s.inbox = before ++ r :: after)
    (hr : r.handle = s.now.handle) (others : ∀ q ∈ before, q.handle ≠ s.now.handle) (dec : decode r.body = .error e) :
    acceptRequest exec s = .next (State.reject { s with inbox := before ++ after } s.now.handle (.undecodable e)) := by
  simp only [acceptRequest, inbox, takeRequest_oldest hr others, dec]

theorem acceptRequest_none (others : ∀ q ∈ s.inbox, q.handle ≠ s.now.handle) : acceptRequest exec s = .next s := by
  simp only [acceptRequest, takeRequest_none others]

end

/-! ### The statements about a step -/

/-- Settles O9: the turn looks for a request (`turnStep_accepts`) and takes the oldest one (`acceptRequest_ok`). -/
theorem stepRunsDecodedInstruction : Obligations.StepRunsDecodedInstruction := by
  rintro s u before after r i rfl noOp inbox hr others dec
  exact (turnStep_accepts noOp).trans (acceptRequest_ok inbox hr others dec)

/-- Settles O10: with an operation in progress the turn is a run of it (`turnStep_goes_on`); without one it looks for a request and
finds none. -/
theorem stepGoesOnOrDoesNothing : Obligations.StepGoesOnOrDoesNothing := by
  intro s t ts c sched here
  rw [step, State.takeTurn_scheduled sched]
  refine ⟨fun op w busy hrun => ?_, fun noOp others => ?_⟩
  · rw [turnStep_goes_on here busy]
    simp only [State.runTurn, hrun, State.put]
  · exact (turnStep_accepts_idle here noOp).trans (acceptRequest_none others)

/-- Settles O11: the turn takes the oldest request, which does not decode (`acceptRequest_error`). -/
theorem refusedRequestChangesNothing : Obligations.RefusedRequestChangesNothing := by
  intro s t ts c before after r e sched here noOp inbox hr others dec
  rw [step, State.takeTurn_scheduled sched]
  exact (turnStep_accepts_idle here noOp).trans (acceptRequest_error inbox hr others dec)

/-- Settles O12: every instruction is issued (`exec_eq_issue`), and `issue` looks at the controller first. -/
theorem busyControllerRefuses : Obligations.BusyControllerRefuses := by
  refine ⟨fun i op s c here busy => ?_, fun i s absent => ?_⟩
  · simp only [exec_eq_issue, issue, State.view_eq here, busy, reduceCtorEq, if_false, State.reject]
  · simp only [exec_eq_issue, issue, State.view_absent absent, State.reject]

/-! ### Command frames -/

/-- An instruction that is the TRANSACT of a frame, on a ready controller whose environment answers: one transaction, whose received
bytes are the result (40_transaction_engine.md R120). -/
theorem exec_transact {s : State} {c : Handle} {x : Xfer} {bs : List Level} {ds : List Byte} {i : Instr} {tx : List Byte}
    {n : Nat} (op : operationOf i = .transact tx n) (frame : tx ≠ []) (ready : Ready s c) (answers : Answers s c [x] bs ds)
    (carries : x.Carries tx n) :
    exec i s = .next (s.after (c.ended .ok (some (.bytes x.rx)) 1 bs ds)
      (trailOp s.params s.now.handle (.transact tx n) .ok (some (.bytes x.rx))
        (trailTxn s.params s.now.handle (.transact tx n) x))) := by
  have ticks := ticks_le_budget x
  have done := exec_performs (i := i) (op ▸ performs_transact frame carries) ready answers (by omega)
  rwa [op] at done

/-- Settles O19: each of the ten is the TRANSACT of its frame, which has an opcode byte. -/
theorem wireFramesComplete : Obligations.WireFramesComplete := by
  intro s c x bs ds ready answers i tx n frame carries
  have transacts : operationOf i = .transact tx n ∧ tx ≠ [] := by
    rcases frame with ⟨_, _, rfl, rfl, rfl⟩ | ⟨_, _, rfl, rfl, rfl⟩ | ⟨_, _, rfl, rfl, rfl⟩ | ⟨_, rfl, rfl, rfl⟩ |
      ⟨_, _, rfl, rfl, rfl⟩ | ⟨_, _, rfl, rfl, rfl⟩ | ⟨_, rfl, rfl⟩ | ⟨_, _, rfl, rfl, rfl⟩ | ⟨_, rfl, rfl, rfl⟩ |
      ⟨_, rfl, rfl, rfl⟩
    all_goals exact ⟨rfl, List.cons_ne_nil _ _⟩
  obtain ⟨op, ne⟩ := transacts
  exact exec_transact op ne ready answers carries

end Sys2Proof.Machine
end

section
/-! The statement about how operations end (30_encoding.md R80; 60_exceptions.md R271): a transition of a controller either leaves
its innermost operation on the control stack or ends it with a result of its kind, or with the result of its error. -/

namespace Sys2Proof.Machine

/-! ### The engine leaves the control stack -/

@[simp] theorem View.finish_stack (v : View) (st : Status) (rx : List Byte) : (v.finish st rx).c.stack = v.c.stack := rfl

@[simp] theorem View.timeOut_stack (v : View) (stage : WaitStage) : (v.timeOut stage).c.stack = v.c.stack := by
  unfold View.timeOut
  split <;> simp

@[simp] theorem View.sampleBusy_stack (v : View) : v.sampleBusy.2.c.stack = v.c.stack := by
  obtain ⟨bs, k, h⟩ := sampleBusy_keeps v
  rw [h]

@[simp] theorem View.exchange_stack (v : View) (o : Byte) : (v.exchange o).2.c.stack = v.c.stack := by
  obtain ⟨ds, k, sl, h⟩ := exchange_keeps v o
  rw [h]

/-- After a transition that moves, at least as many operations as `n` are in progress. -/
def Tick.Deep (n : Nat) : Tick → Prop
  | .moved w => n ≤ w.c.stack.length
  | .held => True
  | .fault _ => True

theorem pollBusy_deep {v : View} {level : Level} {stage : WaitStage} {next : View → Tick}
    (h : ∀ u : View, u.c.stack = v.c.stack → (next u).Deep v.c.stack.length) :
    (pollBusy v level stage next).Deep v.c.stack.length := by
  simp only [pollBusy]
  split
  · exact h _ v.sampleBusy_stack
  · split
    · trivial
    · split <;> simp [Tick.Deep]

theorem doneTx_deep {n : Nat} {u : View} (h : n ≤ u.c.stack.length) : (doneTx u).Deep n := by
  unfold doneTx
  split
  · trivial
  · exact h
  · simpa [Tick.Deep] using h

theorem doneRx_deep {n : Nat} {u : View} (h : n ≤ u.c.stack.length) : (doneRx u).Deep n := by
  unfold doneRx
  split
  · trivial
  · exact h

/-- A transition of the engine ends no operation (40_transaction_engine.md R120, R121). -/
theorem tickEngine_deep (v : View) (ph : TePhase) : (tickEngine v ph).Deep v.c.stack.length := by
  cases ph with
  | idle => trivial
  | arb =>
    simp only [tickEngine, tickArb]
    split
    · next op tx n rest fs stack =>
      split
      · simp [Tick.Deep, View.grant, stack]
      · trivial
    · trivial
  | wReadyTx | wAcceptTx | wAcceptRx =>
    simp only [tickEngine]
    exact pollBusy_deep fun u h => by simp [Tick.Deep, h]
  | wDoneTx => exact pollBusy_deep (next := doneTx) fun u h => doneTx_deep (h ▸ Nat.le_refl _)
  | wDoneRx => exact pollBusy_deep (next := doneRx) fun u h => doneRx_deep (h ▸ Nat.le_refl _)
  | txSetup | txHold | rxSetup | rxHold => simp [tickEngine, Tick.Deep]
  | txBytes =>
    simp only [tickEngine, tickTxBytes]
    split
    · trivial
    · trivial
    · split <;> simp [Tick.Deep]
  | rxBytes =>
    simp only [tickEngine, tickRxBytes]
    split
    · trivial
    · trivial
    · split <;> simp [Tick.Deep]

/-! ### How an operation ends -/

/-- `st` and `r` are how operation `op` can end: `Ok` with a result of its kind (R80), or an error with the result of R271. -/
def EndsWith (op : Instr) (st : Status) (r : Option Result) : Prop :=
  (st = .ok → (resultKind op).fits r = true) ∧ (st ≠ .ok → r = errorResult op)

theorem endsWith_ok {op : Instr} {r : Option Result} (fits : (resultKind op).fits r = true) : EndsWith op .ok r :=
  ⟨fun _ => fits, fun ne => absurd rfl ne⟩

theorem endsWith_error {op : Instr} {e : Status} (ne : e ≠ .ok) : EndsWith op e (failureResult op) :=
  ⟨fun ok => absurd ok ne, fun _ => failureResult_eq op⟩

/-- From `v` to `w` operation `op` ended: its status and its result are written and logged. -/
def View.Ended (v : View) (op : Instr) (w : View) : Prop :=
  ∃ st r, w.c.status = some st ∧ w.c.result = r ∧ w.bus.log = v.bus.log ++ [.opEnd v.id st r] ∧ EndsWith op st r

/-- A transition from `v` that moves leaves operation `op` in progress, inside of `n` others, or ends it. -/
def Tick.LeavesOrEnds (v : View) (op : Instr) (n : Nat) : Tick → Prop
  | .moved w => n < w.c.stack.length ∨ v.Ended op w
  | .held => True
  | .fault _ => True

theorem Tick.Deep.leaves {v : View} {op : Instr} {n : Nat} {t : Tick} (h : t.Deep (n + 1)) : t.LeavesOrEnds v op n := by
  cases t with
  | moved w => exact .inl h
  | held => trivial
  | fault f => trivial

/-- In `u`, reached from `v` without a record, `op` is the innermost operation, inside of those of `fs`. -/
structure View.Within (v u : View) (op : Instr) (fs : List Frame) : Prop where
  id : u.id = v.id
  log : u.bus.log = v.bus.log
  stack : ∃ todo, u.c.stack = ⟨op, todo⟩ :: fs

namespace View.Within

variable {v u : View} {op : Instr} {fs : List Frame} {k : Know} {iv sl : Bool} {rest : List Micro}

theorem leaves (h : v.Within u op fs) : (Tick.moved u).LeavesOrEnds v op fs.length := by
  obtain ⟨todo, stack⟩ := h.stack
  left
  simp [stack]

theorem leaves_prepend (h : v.Within u op fs) (ms : List Micro) : (Tick.moved (u.prepend ms)).LeavesOrEnds v op fs.length := by
  obtain ⟨todo, stack⟩ := h.stack
  left
  simp [View.prepend, stack]

theorem endOp (h : v.Within u op fs) {st : Status} {r : Option Result} (ends : EndsWith op st r) :
    (Tick.moved (u.endOp st r)).LeavesOrEnds v op fs.length := by
  obtain ⟨todo, stack⟩ := h.stack
  right
  refine ⟨st, r, ?_, ?_, ?_, ends⟩ <;> simp [View.endOp, stack, h.id, h.log]

theorem raise (h : v.Within u op fs) {e : Status} (ne : e ≠ .ok) : (Tick.moved (u.raise e)).LeavesOrEnds v op fs.length := by
  have ends := h.endOp (endsWith_error ne)
  obtain ⟨todo, stack⟩ := h.stack
  simpa only [View.raise, stack] using ends

/-! ### The steps that can end an operation -/

theorem irqTest (h : v.Within u op fs) (bit : Fin 32) (stage : WaitStage) (n : Nat) :
    (irqTest u bit stage n).LeavesOrEnds v op fs.length := by
  unfold Machine.irqTest
  split
  · split
    · exact h.leaves
    · split
      · exact raise (u := { u with c := { u.c with timeoutStage := some stage } }) ⟨h.id, h.log, h.stack⟩ (by decide)
      · exact h.leaves_prepend _
  · trivial

theorem stateCheck (h : v.Within u op fs) : (stateCheck u).LeavesOrEnds v op fs.length := by
  unfold Machine.stateCheck
  split
  · exact h.raise (by decide)
  · split
    · split; exacts [h.leaves, h.raise (by decide)]
    · trivial

theorem slotFrame (h : v.Within u op fs) : (slotFrame u).LeavesOrEnds v op fs.length := by
  unfold Machine.slotFrame
  split
  · split
    · exact leaves (u := { u with c := { u.c with invFrames := _, invCount := _ } }) ⟨h.id, h.log, h.stack⟩
    · trivial
    · trivial
    · trivial
  · next failed => split; exacts [h.leaves, h.raise failed]

/-- TRANSACT, READ_EEPROM and READ_DATA return the bytes of their transaction, which are as many as were asked for. -/
theorem returnBytes (h : v.Within u op fs) (known : k.holds u.c.ret) (remains : todoOk op k iv sl (.returnBytes :: rest) = true) :
    (returnBytes u).LeavesOrEnds v op fs.length := by
  unfold Machine.returnBytes
  split
  · next bs received =>
    simp only [todoOk] at remains
    split at remains
    · next n kind =>
      obtain rfl : k = .valueOf (.bytes n) := of_decide_eq_true remains
      exact h.endOp (endsWith_ok (by rw [kind, ← received]; exact known.2))
    · cases remains
  · trivial

theorem returnRegister (h : v.Within u op fs) (remains : todoOk op k iv sl (.returnRegister :: rest) = true) :
    (returnRegister u).LeavesOrEnds v op fs.length := by
  simp only [todoOk, Bool.and_eq_true, decide_eq_true_eq] at remains
  unfold Machine.returnRegister
  split
  · exact h.endOp (endsWith_ok (by rw [remains.2]; rfl))
  · trivial

theorem returnWord (h : v.Within u op fs) (remains : todoOk op k iv sl (.returnWord :: rest) = true) :
    (returnWord u).LeavesOrEnds v op fs.length := by
  simp only [todoOk, Bool.and_eq_true, decide_eq_true_eq] at remains
  unfold Machine.returnWord
  split
  · exact h.endOp (endsWith_ok (by rw [remains.2]; rfl))
  · trivial

theorem returnState (h : v.Within u op fs) (remains : todoOk op k iv sl (.returnState :: rest) = true) :
    (returnState u).LeavesOrEnds v op fs.length := by
  simp only [todoOk, Bool.and_eq_true, decide_eq_true_eq] at remains
  have ends (fallback : Bool) (st : TransceiverState) : (Tick.moved (View.endOp { u with c := { u.c with tsFallback := fallback } }
      .ok (some (.transceiver st)))).LeavesOrEnds v op fs.length :=
    endOp (u := { u with c := { u.c with tsFallback := fallback } }) ⟨h.id, h.log, h.stack⟩
      (endsWith_ok (by rw [remains.2]; rfl))
  unfold Machine.returnState
  split
  · split
    · exact ends _ _
    · trivial
  · exact ends _ _

/-- The result of a pass counts its frames (43_inventory.md R246, R247). -/
theorem invReturn (h : v.Within u op fs) (remains : todoOk op k iv sl (.invReturn :: rest) = true)
    (counted : ∀ count frames, u.c.invCount = some count → u.c.invFrames = some frames → count = frames.length) :
    (invReturn u).LeavesOrEnds v op fs.length := by
  simp only [todoOk, Bool.and_eq_true, decide_eq_true_eq] at remains
  unfold Machine.invReturn
  split
  · trivial
  · trivial
  · next count frames hcount hframes =>
    obtain rfl := remains.1
    exact h.endOp (endsWith_ok (by simp [resultKind, Kind.fits, counted count frames hcount hframes]))

end View.Within

/-! ### Every transition -/

section
variable {v w : View} {k : Know} {op : Instr} {m : Micro} {todo rest : List Micro} {fs : List Frame}

theorem View.within_at (v : View) (op : Instr) (rest : List Micro) (fs : List Frame) : v.Within (v.at op rest fs) op fs :=
  ⟨rfl, rfl, rest, rfl⟩

theorem microStep_leavesOrEnds (inside : v.Inside k op (m :: rest) fs) :
    (microStep v (v.at op rest fs) op m).LeavesOrEnds v op fs.length := by
  have remains := inside.remains
  have known : k.holds (v.at op rest fs).c.ret := inside.known
  have counted := inside.sound.ok.framesCounted
  have within := v.within_at op rest fs
  have leaves {u : View} (same : u.c.stack = ⟨op, rest⟩ :: fs) : (Tick.moved u).LeavesOrEnds v op fs.length :=
    .inl (by simp [same])
  cases m with
  | initCheck => simp only [microStep]; split; exacts [within.leaves, within.raise (by decide)]
  | rangeCheck => simp only [microStep]; split; exacts [within.leaves, within.raise (by decide)]
  | transact tx n =>
    simp only [microStep]
    split
    · exact within.raise (by decide)
    · exact .inl (by simp [inside.stack])
  | call i => exact .inl (by simp [View.startOp, View.at])
  | propagate => simp only [microStep]; split; exacts [within.leaves, within.raise ‹_›]
  | irqPoll bit stage n => exact within.leaves_prepend _
  | irqTest bit stage n => exact within.irqTest bit stage n
  | setRst active => exact leaves (by simp [View.at])
  | deselect => exact leaves (by simp [View.at])
  | setBegun | delay | invStart | invPhase | invSlotZero => exact leaves rfl
  | stateCheck => exact within.stateCheck
  | returnTrue => exact within.endOp (endsWith_ok (by rw [of_decide_eq_true remains]; rfl))
  | returnBytes => exact within.returnBytes known remains
  | returnRegister => exact within.returnRegister remains
  | returnWord => exact within.returnWord remains
  | returnState => exact within.returnState remains
  | slotLoop =>
    simp only [microStep, slotLoop]
    split
    · trivial
    · split; exacts [within.leaves_prepend _, within.leaves]
  | sofTest =>
    simp only [microStep, sofTest]
    split
    · split; exacts [within.leaves_prepend _, within.leaves]
    · trivial
  | slotRead =>
    simp only [microStep, slotRead]
    split
    · exact within.leaves_prepend _
    · trivial
  | slotFrame => exact within.slotFrame
  | eofCheck => simp only [microStep]; split; exacts [within.raise (by decide), within.leaves]
  | slotNext => simp only [microStep]; split; exacts [trivial, leaves rfl]
  | invReturn => exact within.invReturn remains counted

/-- A transition of a sound controller leaves its innermost operation in progress or ends it. -/
theorem tick_leavesOrEnds (sound : v.Sound) (stack : v.c.stack = ⟨op, todo⟩ :: fs) : (tick v).LeavesOrEnds v op fs.length := by
  by_cases phase : v.c.tePhase = .idle
  · obtain ⟨k, inside⟩ := sound.inside phase stack
    cases todo with
    | nil =>
      rw [tick_end phase stack]
      have kind : resultKind op = .nothing := of_decide_eq_true inside.remains
      exact View.Within.endOp ⟨rfl, rfl, _, stack⟩ (endsWith_ok (by rw [kind]; rfl))
    | cons m rest =>
      rw [tick_step phase stack]
      exact microStep_leavesOrEnds inside
  · rw [tick_engine rfl phase]
    have deep := tickEngine_deep v v.c.tePhase
    rw [stack] at deep
    exact deep.leaves

end

theorem State.view_id {s : State} {h : Nat} {v : View} (hv : s.view h = some v) : v.id = h := by
  obtain ⟨c, -, rfl⟩ := Option.map_eq_some_iff.mp hv
  rfl

/-- Settles O45: the operation is no longer on the stack, so the transition has ended it (`tick_leavesOrEnds`). -/
theorem endedOperationsReturnTheirKind : Obligations.EndedOperationsReturnTheirKind := by
  intro s h v w op todo fs inv hv stack moved gone
  obtain ⟨sound, -⟩ := inv.view_sound hv
  obtain rfl := State.view_id hv
  have outcome := tick_leavesOrEnds sound stack
  rw [moved] at outcome
  obtain left | ended := outcome
  · rw [gone] at left
    exact absurd left (Nat.lt_irrefl _)
  · exact ended

end Sys2Proof.Machine
end

section
/-! The statements about the transaction engine (40_transaction_engine.md): the byte slots of its two phases, its busy waits, how a
transaction ends and what it returns, and the table of its phases. -/

namespace Sys2Proof.Machine

/-! ### Byte slots -/

/-- A byte slot takes one byte from the environment and is observed (00_scope.md R12, log 21). -/
theorem View.exchange_eq (v : View) (o : Byte) : v.exchange o = (v.sampleData.1, { v with
    c := v.sampleData.2.c
    bus := { v.bus with slots := v.bus.slots ++ [⟨v.id, o, v.sampleData.1⟩] } }) := by
  unfold View.exchange View.sampleData
  split <;> rfl

@[simp] theorem View.exchange_tePhase (v : View) (o : Byte) : (v.exchange o).2.c.tePhase = v.c.tePhase := by
  obtain ⟨ds, drawn, slots, h⟩ := exchange_keeps v o
  rw [h]

/-- Settles O40: the transition is one byte slot (`View.exchange_eq`), and of what it returns only the tape is kept. -/
theorem frameBytesAreWritten : Obligations.FrameBytesAreWritten := by
  intro v tx k b phase frame idx next
  rw [tick_engine phase (by decide)]
  simp only [tickEngine, tickTxBytes, frame, idx, next, View.exchange_eq]

/-- Settles O41: while bytes are missing the transition is one byte slot (`View.exchange_eq`); then the wait for busy begins. -/
theorem responseBytesAreRead : Obligations.ResponseBytesAreRead := by
  intro v rx n phase buf len
  rw [tick_engine phase (by decide)]
  refine ⟨fun missing => ?_, fun all => ?_⟩
  · simp only [tickEngine, tickRxBytes, buf, len, if_pos missing, View.exchange_eq]
  · simp only [tickEngine, tickRxBytes, buf, len, if_neg (Nat.not_lt.mpr all), View.enterWait]

/-! ### Operations that return the bytes of their transaction -/

/-- Settles O17: each is one transaction after its checks (`exec_transact`, `performs_readEeprom`, `performs_readData`). -/
theorem byteReadsComplete : Obligations.ByteReadsComplete := by
  intro s c x bs ds ready answers
  have turn : x.ticks + 4 ≤ budget [x] := by have := ticks_le_budget x; omega
  refine ⟨fun tx n frame carries => ?_, fun addr len addrOk lenOk carries => ?_, fun len lenOk carries => ?_⟩
  · exact exec_transact rfl frame ready answers carries
  · have range : rangeOk s.params (.readEeprom addr len) = true := by simp [rangeOk, addrOk, lenOk]
    exact exec_performs (i := .readEeprom addr len) (performs_readEeprom range carries) ready answers turn
  · have range : rangeOk s.params (.readData len) = true := by simp [rangeOk, lenOk]
    exact exec_performs (i := .readData len) (performs_readData range carries) ready answers turn

/-! ### Busy waits -/

/-- Settles O37: none of the samples is the last one allowed (`poll_hangs`). -/
theorem busyWaitCanHang : Obligations.BusyWaitCanHang := by
  intro q v level stage k bs waits unbounded cnt busy
  obtain ⟨ne, next, polls⟩ := awaited_polls waits
  exact poll_hangs ne polls q v k bs rfl busy cnt unbounded 0

/-- What a busy wait that runs out does to the controller and the bus (40_transaction_engine.md R129). -/
theorem View.timeOut_eq (v : View) (stage : WaitStage) : v.timeOut stage = { v with
    c := { v.c with
      nss := if v.c.nss = some low then some high else v.c.nss
      timeoutStage := some stage, ret := ⟨.deviceNotResponding, none⟩, tePhase := .idle
      txBuf := none, txIdx := none, rxLen := none, rxBuf := none, pollCnt := none }
    bus := { v.bus with
      busOwner := none
      log := v.bus.log ++ (if v.c.nss = some low then [.nss v.id high] else []) ++ [.txnEnd v.id .deviceNotResponding []] } } := by
  unfold View.timeOut
  by_cases selected : v.c.nss = some low
  · simp [selected, View.setNss, View.finish, View.release, View.record]
  · simp [selected, View.finish, View.release, View.record]

/-- A sample that is not the awaited level and is the last one allowed: the wait runs out. -/
theorem pollBusy_ranOut {v : View} {level : Level} {stage : WaitStage} {next : View → Tick} {k : Nat}
    (sample : v.sampleBusy.1 ≠ level) (cnt : v.c.pollCnt = some k)
    (last : limitReached v.params.pollLimitBusy (k + 1) = true) :
    pollBusy v level stage next =
      .moved (View.timeOut { v.sampleBusy.2 with c := { v.sampleBusy.2.c with pollCnt := some (k + 1) } } stage) := by
  simp only [pollBusy, if_neg sample, cnt, last, if_true]

/-- Settles O36: the sample is the last one allowed (`pollBusy_ranOut`), and the end of the transaction is R129's
(`View.timeOut_eq`). -/
theorem busyWaitRunsOut : Obligations.BusyWaitRunsOut := by
  intro v level stage limit k waits bounded cnt reached sample
  obtain ⟨ne, next, polls⟩ := awaited_polls waits
  have last : limitReached v.params.pollLimitBusy (k + 1) = true := by rw [bounded]; exact decide_eq_true reached
  rw [tick_engine rfl ne, polls, pollBusy_ranOut sample cnt last, View.timeOut_eq]
  obtain ⟨bs, drawn, taken⟩ := sampleBusy_keeps v
  rw [taken]

/-- What a sample of a busy wait leads to: on the awaited level the wait is over; otherwise the sample is counted and the wait goes
on, or it runs out (40_transaction_engine.md R119). -/
theorem pollBusy_cases {v w : View} {level : Level} {stage : WaitStage} {next : View → Tick}
    (h : pollBusy v level stage next = .moved w) :
    (v.sampleBusy.1 = level ∧ next v.sampleBusy.2 = .moved w) ∨
    (v.sampleBusy.1 = !level ∧ ∃ k, v.c.pollCnt = some k ∧
      ((limitReached v.params.pollLimitBusy (k + 1) = false ∧
          w = { v.sampleBusy.2 with c := { v.sampleBusy.2.c with pollCnt := some (k + 1) } }) ∨
        (limitReached v.params.pollLimitBusy (k + 1) = true ∧
          w = View.timeOut { v.sampleBusy.2 with c := { v.sampleBusy.2.c with pollCnt := some (k + 1) } } stage))) := by
  by_cases sample : v.sampleBusy.1 = level
  · simp only [pollBusy, if_pos sample] at h
    exact .inl ⟨sample, h⟩
  · refine .inr ⟨Bool.eq_not.mpr sample, ?_⟩
    cases cnt : v.c.pollCnt with
    | none => simp only [pollBusy, if_neg sample, cnt, reduceCtorEq] at h
    | some k =>
      refine ⟨k, rfl, ?_⟩
      cases last : limitReached v.params.pollLimitBusy (k + 1) with
      | true =>
        rw [pollBusy_ranOut sample cnt last] at h
        exact .inr ⟨rfl, (Tick.moved.inj h).symm⟩
      | false =>
        simp only [pollBusy, if_neg sample, cnt, last, Bool.false_eq_true, if_false] at h
        exact .inl ⟨rfl, (Tick.moved.inj h).symm⟩

/-! ### How a transaction ends -/

/-- The transaction that was in progress in `v` has ended in `w` as R127 says: `Ok` with the bytes it logs, or, where its busy waits
have a limit, with DeviceNotResponding. -/
def View.TxnEnds (v w : View) : Prop :=
  ((∃ rx, w.c.ret = ⟨.ok, some (.bytes rx)⟩ ∧ w.bus.log = v.bus.log ++ [.txnEnd v.id .ok rx]) ∨
      w.c.ret = ⟨.deviceNotResponding, none⟩) ∧
    (v.params.pollLimitBusy = none → w.c.ret.status = .ok)

/-- A transition from `v` that moves stays in the transaction or ends it. -/
def Tick.InTxnOrEnds (v : View) : Tick → Prop
  | .moved w => w.c.tePhase ≠ .idle ∨ v.TxnEnds w
  | .held => True
  | .fault _ => True

/-- `Finish` with `Ok`, after nothing but a sample. -/
theorem finish_txnEnds {v u : View} (id : u.id = v.id) (bus : u.bus = v.bus) (rx : List Byte) : v.TxnEnds (u.finish .ok rx) := by
  refine ⟨.inl ⟨rx, rfl, ?_⟩, fun _ => rfl⟩
  rw [← id, ← bus]
  rfl

/-- A busy wait stays, goes on as `next` says, or runs out, which an unbounded one never does. -/
theorem pollBusy_inTxnOrEnds {v : View} {level : Level} {stage : WaitStage} {next : View → Tick} (own : v.c.tePhase ≠ .idle)
    (hnext : ∀ u : View, u.id = v.id → u.bus = v.bus → (next u).InTxnOrEnds v) :
    (pollBusy v level stage next).InTxnOrEnds v := by
  obtain ⟨bs, drawn, taken⟩ := sampleBusy_keeps v
  cases h : pollBusy v level stage next with
  | held => trivial
  | fault f => trivial
  | moved w =>
    obtain ⟨-, goesOn⟩ | ⟨-, k, -, ⟨-, rfl⟩ | ⟨last, rfl⟩⟩ := pollBusy_cases h
    · rw [← goesOn]
      exact hnext _ (by rw [taken]) (by rw [taken])
    · left
      rw [taken]
      exact own
    · right
      refine ⟨.inr (by rw [View.timeOut_eq]), fun unbounded => ?_⟩
      rw [unbounded] at last
      cases last

/-- Every transition of the engine inside a transaction. -/
theorem tickEngine_inTxnOrEnds {v : View} {ph : TePhase} (phase : v.c.tePhase = ph) (own : ownsBus ph = true) :
    (tickEngine v ph).InTxnOrEnds v := by
  cases ph with
  | idle | arb => cases own
  | wReadyTx | wAcceptTx | wAcceptRx =>
    simp only [tickEngine]
    exact pollBusy_inTxnOrEnds (by simp [phase]) fun u _ _ => Or.inl (by simp)
  | wDoneTx =>
    refine pollBusy_inTxnOrEnds (next := doneTx) (by simp [phase]) fun u id bus => ?_
    unfold doneTx
    split
    · trivial
    · exact .inr (finish_txnEnds id bus [])
    · exact .inl (by simp)
  | wDoneRx =>
    refine pollBusy_inTxnOrEnds (next := doneRx) (by simp [phase]) fun u id bus => ?_
    unfold doneRx
    split
    · trivial
    · next rx _ => exact .inr (finish_txnEnds id bus rx)
  | txSetup | txHold | rxSetup | rxHold => exact .inl (by simp)
  | txBytes =>
    simp only [tickEngine, tickTxBytes]
    split
    · trivial
    · trivial
    · split
      · exact .inl (by simp)
      · exact .inl (by simp [phase])
  | rxBytes =>
    simp only [tickEngine, tickRxBytes]
    split
    · trivial
    · trivial
    · split
      · exact .inl (by simp [phase])
      · exact .inl (by simp)

/-- Settles O38: every transition inside a transaction stays in it or ends it as R127 says (`tickEngine_inTxnOrEnds`). -/
theorem transactionsEndOkOrTimedOut : Obligations.TransactionsEndOkOrTimedOut := by
  intro v w moved own idle
  have outcome := tickEngine_inTxnOrEnds rfl own
  have busy : v.c.tePhase ≠ .idle := fun e => by rw [e] at own; cases own
  rw [← tick_engine rfl busy, moved] at outcome
  exact outcome.resolve_left (absurd idle)

/-! ### The table of phases -/

@[simp] theorem clearInventory_tePhase (i : Instr) (c : Handle) : (clearInventory i c).tePhase = c.tePhase := by
  unfold clearInventory
  split <;> rfl

@[simp] theorem View.endOp_tePhase (v : View) (st : Status) (r : Option Result) : (v.endOp st r).c.tePhase = v.c.tePhase := by
  unfold View.endOp
  split <;> simp

@[simp] theorem View.raise_tePhase (v : View) (e : Status) : (v.raise e).c.tePhase = v.c.tePhase := by
  unfold View.raise
  split <;> simp

@[simp] theorem View.prepend_tePhase (v : View) (ms : List Micro) : (v.prepend ms).c.tePhase = v.c.tePhase := by
  unfold View.prepend
  split <;> rfl

@[simp] theorem View.startOp_tePhase (v : View) (op : Instr) (prog : List Micro) :
    (v.startOp op prog).c.tePhase = v.c.tePhase := by
  simp [View.startOp]

/-- A transition that moves leaves the engine in `TE_IDLE`. -/
def Tick.EngineRests : Tick → Prop
  | .moved w => w.c.tePhase = .idle
  | .held => True
  | .fault _ => True

@[simp] theorem Tick.engineRests_moved (w : View) : (Tick.moved w).EngineRests ↔ w.c.tePhase = .idle := Iff.rfl

@[simp] theorem Tick.engineRests_fault (f : Fault) : (Tick.fault f).EngineRests := trivial

/-- Of the steps of the pseudocode only the call of `Transact` starts the engine. -/
theorem microStep_engineRests {v0 v : View} {op : Instr} {m : Micro} (idle : v.c.tePhase = .idle)
    (noCall : ∀ tx n, m ≠ .transact tx n) : (microStep v0 v op m).EngineRests := by
  cases m with
  | transact tx n => exact absurd rfl (noCall tx n)
  | call | irqPoll | setRst | deselect | setBegun | delay | returnTrue | invStart | invPhase | invSlotZero => simp [microStep, idle]
  | initCheck | rangeCheck | propagate | eofCheck | slotNext => simp only [microStep]; split <;> simp [idle]
  | returnBytes => simp only [microStep, returnBytes]; split <;> simp [idle]
  | returnRegister => simp only [microStep, returnRegister]; split <;> simp [idle]
  | returnWord => simp only [microStep, returnWord]; split <;> simp [idle]
  | slotRead => simp only [microStep, slotRead]; split <;> simp [idle]
  | invReturn => simp only [microStep, invReturn]; split <;> simp [idle]
  | irqTest bit stage k =>
    simp only [microStep, irqTest]
    split
    · split
      · exact idle
      · split <;> simp [idle]
    · simp
  | stateCheck =>
    simp only [microStep, stateCheck]
    split
    · simp [idle]
    · split
      · split <;> simp [idle]
      · simp
  | returnState =>
    simp only [microStep, returnState]
    split
    · split <;> simp [idle]
    · simp [idle]
  | slotLoop =>
    simp only [microStep, slotLoop]
    split
    · simp
    · split <;> simp [idle]
  | sofTest =>
    simp only [microStep, sofTest]
    split
    · split <;> simp [idle]
    · simp
  | slotFrame =>
    simp only [microStep, slotFrame]
    split
    · split <;> simp [idle]
    · split <;> simp [idle]

/-- A transition from `v` that moves is a row of the table of R121 on its condition, and a wait phase it enters begins with
`POLL_CNT` 0. -/
def Tick.FollowsTable (v : View) : Tick → Prop
  | .moved w => engineRow v v.c.tePhase w.c.tePhase ∧
      ∀ level stage, awaited w.c.tePhase = some (level, stage) → w.c.tePhase ≠ v.c.tePhase → w.c.pollCnt = some 0
  | .held => True
  | .fault _ => True

section
variable {v w : View} {src dst : TePhase} {level : Level} {stage : WaitStage}

/-- A row into a phase that is no wait. -/
theorem followsTable_enter (before : v.c.tePhase = src) (after : w.c.tePhase = dst) (noWait : awaited dst = none)
    (row : engineRow v src dst) : (Tick.moved w).FollowsTable v := by
  subst before after
  exact ⟨row, fun level stage waits => by rw [noWait] at waits; cases waits⟩

/-- A row into a wait. -/
theorem followsTable_enterWait {u : View} (before : v.c.tePhase = src) (row : engineRow v src dst) :
    (Tick.moved (u.enterWait dst)).FollowsTable v := by
  subst before
  exact ⟨row, fun _ _ _ _ => rfl⟩

/-- A row from a phase to itself. -/
theorem followsTable_stay (before : v.c.tePhase = src) (after : w.c.tePhase = src) (row : engineRow v src src) :
    (Tick.moved w).FollowsTable v := by
  subst before
  refine ⟨?_, fun _ _ _ ne => absurd after ne⟩
  rw [after]
  exact row

/-- While the engine rests, `TE_IDLE` stays. -/
theorem followsTable_rests {t : Tick} (idle : v.c.tePhase = .idle) (rests : t.EngineRests) : t.FollowsTable v := by
  cases t with
  | moved w => exact followsTable_stay idle rests trivial
  | held => trivial
  | fault f => trivial

/-- The row of each wait on a sample that fails and is not the last one allowed. -/
theorem engineRow_failed {k : Nat} (waits : awaited src = some (level, stage)) (sample : v.sampleBusy.1 = !level)
    (cnt : v.c.pollCnt = some k) (more : limitReached v.params.pollLimitBusy (k + 1) = false) : engineRow v src src := by
  cases src <;> cases waits <;> exact ⟨sample, k, cnt, more⟩

/-- The row of each wait on a sample that fails and is the last one allowed. -/
theorem engineRow_ranOut {k : Nat} (waits : awaited src = some (level, stage)) (sample : v.sampleBusy.1 = !level)
    (cnt : v.c.pollCnt = some k) (last : limitReached v.params.pollLimitBusy (k + 1) = true) : engineRow v src .idle := by
  have ranOut : v.sampleBusy.1 = (!level) ∧ ∃ k, v.c.pollCnt = some k ∧ limitReached v.params.pollLimitBusy (k + 1) = true :=
    ⟨sample, k, cnt, last⟩
  cases src <;> cases waits
  case wReadyTx | wAcceptTx | wAcceptRx => exact ranOut
  case wDoneTx | wDoneRx => exact .inr ranOut

/-- A busy wait follows the table when it goes on as the table says once it has read the awaited level. -/
theorem pollBusy_followsTable {next : View → Tick} (waits : awaited v.c.tePhase = some (level, stage))
    (hnext : v.sampleBusy.1 = level → ∀ bs drawn, (next { v with c := { v.c with busyIn := bs, busyDrawn := drawn } }).FollowsTable v) :
    (pollBusy v level stage next).FollowsTable v := by
  obtain ⟨bs, drawn, taken⟩ := sampleBusy_keeps v
  cases h : pollBusy v level stage next with
  | held => trivial
  | fault f => trivial
  | moved w =>
    obtain ⟨sample, goesOn⟩ | ⟨sample, k, cnt, ⟨more, rfl⟩ | ⟨last, rfl⟩⟩ := pollBusy_cases h
    · rw [← goesOn, taken]
      exact hnext sample bs drawn
    · exact followsTable_stay rfl (by rw [taken]) (engineRow_failed waits sample cnt more)
    · exact followsTable_enter rfl (by rw [View.timeOut_eq]) rfl (engineRow_ranOut waits sample cnt last)

/-- The pseudocode leaves `TE_IDLE` by the call of `Transact` with a frame. -/
theorem tickIdle_followsTable (idle : v.c.tePhase = .idle) : (tickIdle v).FollowsTable v := by
  unfold tickIdle
  split
  · trivial
  · exact followsTable_rests idle (by simp [idle])
  · next op m rest fs stack =>
    cases m with
    | transact tx n =>
      simp only [microStep]
      split
      · exact followsTable_rests idle (by simp [idle])
      · next frame => exact followsTable_enter idle rfl rfl ⟨op, tx, n, rest, fs, stack, List.length_pos_iff.mpr frame⟩
    | _ => exact followsTable_rests idle (microStep_engineRests idle (by simp))

/-- The write phase goes on while bytes of the frame are left. -/
theorem tickTxBytes_followsTable (phase : v.c.tePhase = .txBytes) (engine : v.c.engineOk) : (tickTxBytes v).FollowsTable v := by
  obtain ⟨tx, idx, n, rx, cnt, regs⟩ := Handle.registers_of_engineOk (by rw [phase]; rfl) engine
  simp only [tickTxBytes, regs.txBuf, regs.txIdx]
  split
  · next atEnd =>
    have written : idx = tx.length := Nat.le_antisymm regs.idxLe (List.getElem?_eq_none_iff.mp atEnd)
    exact followsTable_enterWait phase ⟨tx, regs.txBuf, written ▸ regs.txIdx⟩
  · next b more =>
    have left : idx < tx.length := (List.getElem?_eq_some_iff.mp more).1
    exact followsTable_stay phase (by simp [phase]) ⟨tx, idx, regs.txBuf, regs.txIdx, left⟩

/-- The read phase goes on while bytes are missing. -/
theorem tickRxBytes_followsTable (phase : v.c.tePhase = .rxBytes) (engine : v.c.engineOk) : (tickRxBytes v).FollowsTable v := by
  obtain ⟨tx, idx, n, rx, cnt, regs⟩ := Handle.registers_of_engineOk (by rw [phase]; rfl) engine
  simp only [tickRxBytes, regs.rxBuf, regs.rxLen]
  split
  · next missing => exact followsTable_stay phase (by simp [phase]) ⟨rx, n, regs.rxBuf, regs.rxLen, missing⟩
  · next all =>
    have read : n = rx.length := Nat.le_antisymm (Nat.not_lt.mp all) regs.rxLe
    exact followsTable_enterWait phase ⟨rx, regs.rxBuf, read ▸ regs.rxLen⟩

/-- The end of the write phase: a transaction without a read phase is complete. -/
theorem doneTx_followsTable {u : View} (phase : v.c.tePhase = .wDoneTx) (sample : v.sampleBusy.1 = low)
    (len : u.c.rxLen = v.c.rxLen) : (doneTx u).FollowsTable v := by
  unfold doneTx
  split
  · trivial
  · next writeOnly => exact followsTable_enter phase rfl rfl (.inl ⟨sample, len ▸ writeOnly⟩)
  · next n reads => exact followsTable_enter phase rfl rfl ⟨sample, n + 1, len ▸ reads, n.succ_pos⟩

/-- The end of the read phase. -/
theorem doneRx_followsTable {u : View} (phase : v.c.tePhase = .wDoneRx) (sample : v.sampleBusy.1 = low) :
    (doneRx u).FollowsTable v := by
  unfold doneRx
  split
  · trivial
  · exact followsTable_enter phase rfl rfl (.inl sample)

/-- The bus is granted when it is free. -/
theorem tickArb_followsTable (phase : v.c.tePhase = .arb) : (tickArb v).FollowsTable v := by
  unfold tickArb
  split
  · split
    · next free => exact followsTable_enterWait (dst := .wReadyTx) phase free
    · trivial
  · trivial

/-- Every transition of the engine. -/
theorem tickEngine_followsTable (phase : v.c.tePhase = src) (engine : v.c.engineOk) : (tickEngine v src).FollowsTable v := by
  have waits {level : Level} {stage : WaitStage} (h : awaited src = some (level, stage)) :
      awaited v.c.tePhase = some (level, stage) := phase ▸ h
  cases src with
  | idle => trivial
  | arb => exact tickArb_followsTable phase
  | wReadyTx | wAcceptTx | wAcceptRx =>
    simp only [tickEngine]
    exact pollBusy_followsTable (waits rfl) fun sample _ _ => followsTable_enter phase rfl rfl sample
  | wDoneTx => exact pollBusy_followsTable (next := doneTx) (waits rfl) fun sample _ _ => doneTx_followsTable phase sample rfl
  | wDoneRx => exact pollBusy_followsTable (next := doneRx) (waits rfl) fun sample _ _ => doneRx_followsTable phase sample
  | txSetup | rxSetup => exact followsTable_enter phase rfl rfl trivial
  | txHold | rxHold => exact followsTable_enterWait phase trivial
  | txBytes => exact tickTxBytes_followsTable phase engine
  | rxBytes => exact tickRxBytes_followsTable phase engine

end

/-- Settles O39: the pseudocode rests in `TE_IDLE` or calls a transaction (`tickIdle_followsTable`), and in every other phase the
engine follows its table (`tickEngine_followsTable`). -/
theorem enginePhasesFollowTheTable : Obligations.EnginePhasesFollowTheTable := by
  intro v w moved engine
  have follows : (tick v).FollowsTable v := by
    by_cases idle : v.c.tePhase = .idle
    · rw [tick_idle idle]
      exact tickIdle_followsTable idle
    · rw [tick_engine rfl idle]
      exact tickEngine_followsTable rfl engine
  rwa [moved] at follows

end Sys2Proof.Machine
end

section
/-! The statements about the Chip Command Layer (41_command_layer.md): operations that end before any traffic, operations that
complete on an environment that answers, and operations whose waits run out. -/

namespace Sys2Proof.Machine

/-! ### From the run of a controller to the machine -/

/-- An instruction whose run, within the turn, ends its operation on a controller that is otherwise `c'` has run in one step. Unlike
`exec_performs` it lets other registers of the controller change, and asks nothing of the bus. -/
theorem exec_did {s : State} {c c' : Handle} {i op : Instr} {st : Status} {r : Option Result} {fb : Bool} {n k : Nat}
    {bs : List Level} {ds : List Byte} {body : Trail} (hop : operationOf i = op) (here : s.handles[s.now.handle]? = some c)
    (noOp : c.op = none)
    (run : Reaches k ((s.issued c op).startOp op (programOf s.params op)) ((s.issued c' op).did op st r fb n bs ds body))
    (noOp' : c'.op = none) (noStack : c'.stack = []) (phase : c'.tePhase = .idle) (turn : k ≤ s.now.quantum) :
    exec i s = .next (s.after { c'.ended st r n bs ds with tsFallback := fb } (trailOp s.params s.now.handle op st r body)) := by
  rw [exec_eq_issue, hop, issue_reaches here noOp run phase noStack turn]
  cases c'
  simp_all [State.put, State.after, View.did, State.issued, Handle.ended]

/-- The turn that `Answers` asks for holds, beyond the transitions of the transactions, 47 more for each and 60 more in all. -/
theorem ticks_sum_le_budget (xs : List Xfer) : (xs.map Xfer.ticks).sum + 47 * xs.length + 60 ≤ budget xs := by
  have ticks : (xs.map Xfer.ticks).sum ≤ (xs.map Xfer.weight).sum + 13 * xs.length := sum_ticks_le xs 0
  rw [budget_eq]
  omega

/-! ### Errors before any traffic -/

theorem operationOf_ne_beginLines {i : Instr} (ne : i ≠ .beginLines) : operationOf i ≠ .beginLines := by
  cases i with
  | beginLines => exact absurd rfl ne
  | _ => exact Instr.noConfusion

theorem clearInventory_operationOf (i : Instr) (c : Handle) : clearInventory (operationOf i) c = clearInventory i c := by
  cases i <;> rfl

/-- Settles O13: the initialisation check is the first step of every operation but BEGIN (`programOf_initCheck`), and it fails
(`issue_notInitialised`). -/
theorem notInitialisedBeforeBegin : Obligations.NotInitialisedBeforeBegin := by
  intro i s c ne here noOp noStack phase begun turn
  obtain ⟨rest, prog⟩ := programOf_initCheck s.params (operationOf i) (operationOf_ne_beginLines ne)
  rw [exec_eq_issue, issue_notInitialised prog here noOp noStack phase begun turn, clearInventory_operationOf,
    errorResult_operationOf]

theorem OutOfRange.operationOf_eq {p : Params} {i : Instr} (h : OutOfRange p i) : operationOf i = i := by
  cases h <;> rfl

/-- An initialised controller whose operation fails its range checks ends it with the second step, whoever owns the bus
(41_command_layer.md R151). -/
theorem startOp_rangeError {v : View} {i : Instr} (phase : v.c.tePhase = .idle) (begun : v.c.begun = true)
    (out : OutOfRange v.params i) :
    Reaches 2 (v.startOp i (programOf v.params i))
      (v.did i .rangeError (errorResult i) v.c.tsFallback 0 v.c.busyIn v.c.dataIn .empty) := by
  obtain ⟨inv, range, rest, prog⟩ := out.checked
  rw [startOp_mid, prog]
  have passes : Reaches 1 (v.mid i (.initCheck :: .rangeCheck :: rest) v.begins) (v.mid i (.rangeCheck :: rest) v.begins) :=
    .micro (fs := v.c.stack) phase rfl (by rw [mid_at]; simp only [microStep, View.mid, begun, if_true])
  have fails : Reaches 1 (v.mid i (.rangeCheck :: rest) v.begins) ((v.mid i rest v.begins).endOp .rangeError (errorResult i)) :=
    .micro (fs := v.c.stack) phase rfl (by
      rw [mid_at, ← failureResult_eq]; simp only [microStep, View.mid, range, Bool.false_eq_true, if_false]; rfl)
  rw [mid_endOp v i rest v.begins inv] at fails
  exact passes.trans fails

/-- Settles O14: the range checks are the second step of the operations of R151's table (`startOp_rangeError`). -/
theorem rangeErrorBeforeTraffic : Obligations.RangeErrorBeforeTraffic := by
  intro i s c out here noOp noStack phase begun turn
  have run := startOp_rangeError (v := s.issued c i) phase begun out
  exact exec_did (c' := c) out.operationOf_eq here noOp run noOp noStack phase turn

/-! ### Operations that make one transaction -/

section
variable {s : State} {c : Handle} {x : Xfer} {bs : List Level} {ds : List Byte}

/-- An operation that makes one transaction and few other transitions, on a ready controller whose environment answers. -/
theorem exec_performs_one {i : Instr} {st : Status} {r : Option Result} {fb : Bool → Bool} {body : Nat → Trail} {k : Nat}
    (ready : Ready s c) (answers : Answers s c [x] bs ds) (perf : Performs s.params (operationOf i) [x] st r fb body (x.ticks + k))
    (few : k ≤ 9) :
    exec i s = .next (s.after { c.ended st r 1 bs ds with tsFallback := fb c.tsFallback }
      (trailOp s.params s.now.handle (operationOf i) st r (body s.now.handle))) :=
  exec_performs perf ready answers (by have := ticks_le_budget x; omega)

/-- The four bytes that answer a register read, as the lemmas about reads name them. -/
theorem Xfer.carries_read {addr b0 b1 b2 b3 : Byte} (tx : x.tx = [0x04#8, addr]) (rx : x.rx = [b0, b1, b2, b3]) :
    x.Carries [0x04#8, addr] 4 ∧ fromLe32 b0 b1 b2 b3 = registerValue x.rx := by
  rw [rx]
  exact ⟨⟨tx, by rw [rx]; rfl⟩, rfl⟩

end

/-- Settles O15: each is one transaction after its checks (`performs_write`). -/
theorem registerWritesComplete : Obligations.RegisterWritesComplete := by
  intro s c x bs ds addr value ready answers addrOk valueOk
  refine ⟨fun carries => ?_, fun carries => ?_, fun carries => ?_⟩
  · have range : rangeOk s.params (.writeRegister addr value) = true := by simp [rangeOk, addrOk, valueOk]
    exact exec_performs_one (i := .writeRegister addr value) ready answers (performs_writeRegister range carries) (by decide)
  · have range : rangeOk s.params (.writeRegisterOr addr value) = true := by simp [rangeOk, addrOk, valueOk]
    exact exec_performs_one (i := .writeRegisterOr addr value) ready answers (performs_writeRegisterOr range carries) (by decide)
  · have range : rangeOk s.params (.writeRegisterAnd addr value) = true := by simp [rangeOk, addrOk, valueOk]
    exact exec_performs_one (i := .writeRegisterAnd addr value) ready answers (performs_writeRegisterAnd range carries) (by decide)

/-- Settles O16: one transaction after the checks, whose four bytes are returned with their value (`performs_readRegister`). -/
theorem readRegisterCompletes : Obligations.ReadRegisterCompletes := by
  intro s c x bs ds addr b0 b1 b2 b3 ready answers addrOk tx rx
  obtain ⟨carries, value⟩ := Xfer.carries_read tx rx
  have range : rangeOk s.params (.readRegister addr) = true := by simp [rangeOk, addrOk]
  rw [value, ← rx]
  exact exec_performs_one (i := .readRegister addr) ready answers (performs_readRegister range carries) (by decide)

/-- Settles O18: one transaction, then `return ok true` (`performs_loadRfConfig`, `performs_rfOff`). -/
theorem profileAndFieldOffComplete : Obligations.ProfileAndFieldOffComplete := by
  intro s c x bs ds ready answers
  refine ⟨fun txConf rxConf txOk rxOk carries => ?_, fun carries => ?_⟩
  · have range : rangeOk s.params (.loadRfConfig txConf rxConf) = true := by simp [rangeOk, txOk, rxOk]
    exact exec_performs_one (i := .loadRfConfig txConf rxConf) ready answers (performs_loadRfConfig range carries) (by decide)
  · exact exec_performs_one (i := .rfOff) ready answers (performs_rfOff carries) (by decide)

/-- Settles O23: each is one register operation of the block's own (`performs_getIrqStatus`, `performs_clearIrqStatus`). -/
theorem irqOperationsComplete : Obligations.IrqOperationsComplete := by
  intro s c x bs ds wf ready answers
  have ok := Params.inRange wf
  refine ⟨fun b0 b1 b2 b3 tx rx => ?_, fun mask lt carries => ?_⟩
  · obtain ⟨carries, value⟩ := Xfer.carries_read tx rx
    rw [value]
    exact exec_performs_one (i := .getIrqStatus) ready answers (performs_getIrqStatus ok carries) (by decide)
  · exact exec_performs_one (i := .clearIrqStatus mask) ready answers (performs_clearIrqStatus ok lt carries) (by decide)

/-- Settles O24: the read of RF_STATUS succeeds (`performs_getTransceiveState`). -/
theorem transceiveStateCompletes : Obligations.TransceiveStateCompletes := by
  intro s c x bs ds b0 b1 b2 b3 wf ready answers tx rx
  obtain ⟨carries, value⟩ := Xfer.carries_read tx rx
  rw [value]
  exact exec_performs_one (i := .getTransceiveState) ready answers
    (performs_getTransceiveState (Params.inRange wf) carries) (by decide)

/-! ### Sending data, and the field -/

/-- Settles O26: the state read gives WaitTransmit, so the frame is sent (`performs_sendData`). -/
theorem sendDataCompletes : Obligations.SendDataCompletes := by
  intro s c t payload validBits bs ds wf ready lengthOk bitsOk sends answers
  have range : rangeOk s.params (.sendData payload validBits) = true := by simp [rangeOk, lengthOk, bitsOk]
  have turn := ticks_sum_le_budget t.all
  simp only [SendXfers.all, List.map_cons, List.map_nil, List.sum_cons, List.sum_nil, List.length_cons, List.length_nil] at turn
  exact exec_performs (i := .sendData payload validBits) (performs_sendData (Params.inRange wf) range sends) ready answers
    (by simp only [SendXfers.all]; omega)

/-- Settles O27: the state check refuses (`performs_sendData_sequenceError`), and SEND_EOF passes the error on
(`performs_sendEof_sequenceError`). -/
theorem wrongStateIsSequenceError : Obligations.WrongStateIsSequenceError := by
  intro s c t st bs ds wf ready arms ne answers
  have turn := ticks_sum_le_budget [t.idle, t.arm, t.state]
  simp only [List.map_cons, List.map_nil, List.sum_cons, List.sum_nil, List.length_cons, List.length_nil] at turn
  refine ⟨fun payload validBits lengthOk bitsOk => ?_, ?_⟩
  · have range : rangeOk s.params (.sendData payload validBits) = true := by simp [rangeOk, lengthOk, bitsOk]
    exact exec_performs (i := .sendData payload validBits)
      (performs_sendData_sequenceError (Params.inRange wf) range arms ne) ready answers (by omega)
  · exact exec_performs (i := .sendEof) (performs_sendEof_sequenceError (Params.inRange wf) arms ne) ready answers (by omega)

/-- Settles O30: the frame, the wait and the clear follow one another (`performs_rfOn`). -/
theorem rfOnCompletes : Obligations.RfOnCompletes := by
  intro s c t bs ds wf ready confirms answers
  have turn := t.ticks_le
  exact exec_performs (i := .rfOn) (performs_rfOn (Params.inRange wf) confirms) ready answers (by omega)

/-! ### IRQ waits that run out -/

/-- Settles O22: the last read the limit allows does not show the bit either (`rfOn_gives_up`, `reset_gives_up`). -/
theorem irqWaitsGiveUp : Obligations.IrqWaitsGiveUp := by
  intro s c bs ds misses wf ready ne
  have ok := Params.inRange wf
  have missed := missTicks_le misses
  refine ⟨fun frame carries reads limit answers => ?_, fun reads limit answers => ?_⟩
  · have run := rfOn_gives_up (s.issued c .rfOn) bs ds ok (ready.calm _) carries ne reads limit answers.fits answers.busy
      answers.data
    have sent := frame.ticks_le
    have turn := answers.turn
    simp only [budget_eq, List.map_cons, List.sum_cons, List.length_cons] at turn
    exact exec_did (c' := { c with timeoutStage := some .wRfOn }) rfl ready.here ready.noOp run ready.noOp ready.noStack
      ready.phase (by omega)
  · have run := reset_gives_up (s.issued c .resetChip) bs ds ok (ready.calm _) ne reads limit answers.fits answers.busy
      answers.data
    have turn := answers.turn
    rw [budget_eq] at turn
    exact exec_did (c' := { c with rst := some (!s.params.rstActiveLevel), timeoutStage := some .wStartup }) rfl
      ready.here ready.noOp run ready.noOp ready.noStack ready.phase (by omega)

/-! ### State reads that are not answered -/

/-- A step that ends its operation, GET_INVENTORY_16_SLOTS apart, on a controller that is otherwise `u` (60_exceptions.md R271). -/
theorem tick_ends {v u : View} {op : Instr} {m : Micro} {rest : List Micro} {fs : List Frame} {st : Status} {r : Option Result}
    (phase : v.c.tePhase = .idle) (stack : v.c.stack = ⟨op, m :: rest⟩ :: fs) (inv : op ≠ .getInventory16Slots)
    (ends : microStep v (v.at op rest fs) op m = .moved ((u.at op rest fs).endOp st r)) :
    tick v = .moved { u with
      c := { u.c with status := some st, result := r, ret := ⟨st, r⟩, stack := fs, op := if fs = [] then none else u.c.op }
      bus := { u.bus with log := u.bus.log ++ [.opEnd u.id st r] } } := by
  rw [tick_step phase stack, ends, endOp_eq (v := u.at op rest fs) rfl inv]
  rfl

/-- Settles O25: the read ends with an error (`getTransceiveState_stalls` for the whole operation), which the last step catches. -/
theorem transceiveStateSoftFails : Obligations.TransceiveStateSoftFails := by
  refine ⟨fun s c k bs wf ready limit busy turn => ?_, fun v rest fs phase stack failed => ?_⟩
  · have run := getTransceiveState_stalls (s.issued c .getTransceiveState) bs (Params.inRange wf) (ready.calm _) busy limit
    exact exec_did (c' := { c with timeoutStage := some .wReadyTx }) rfl ready.here ready.noOp run ready.noOp ready.noStack
      ready.phase turn
  · refine tick_ends (u := { v with c := { v.c with tsFallback := true } }) phase stack (by decide) ?_
    exact if_neg failed

/-- What a SEND_DATA adds whose state read never gets past its first busy wait. -/
def trailSendFallback (p : Params) (h : Nat) (idle arm : Xfer) (payload : List Byte) (validBits : Nat) : Trail :=
  trailOp p h (.sendData payload validBits) .deviceNotResponding (some (.bool false))
    (.concat [trailIdle p h idle, trailArm p h arm,
      trailOp p h .getTransceiveState .ok (some (.transceiver .idle)) (trailStateFallback p h)])

/-- A sub-operation in which a busy wait ran out, seen from the operation that called it. -/
theorem mid_timedOut_did (v : View) (stage : WaitStage) (i : Instr) (rest : List Micro) (g : Progress) (j : Instr) (st : Status)
    (r : Option Result) (fb : Bool) (n : Nat) (bs : List Level) (ds : List Byte) (body : Trail) :
    ((v.mid i rest g).timedOut stage).did j st r fb n bs ds body =
      (v.timedOut stage).mid i rest (g.called v.params v.id j st r (fun _ => fb) n bs ds body) :=
  mid_did (v.timedOut stage) i rest g j st r (fun _ => fb) n bs ds body

/-- SEND_EOF whose state read never gets past its first busy wait: the error of its SEND_DATA is passed on (42_radio_controller.md
R204; 60_exceptions.md R276). -/
theorem sendEof_stalls {k : Nat} {idle arm : Xfer} (v : View) (bs : List Level) (ds : List Byte) (ok : v.params.InRange)
    (calm : v.Calm) (carries : RearmCarries v.params idle arm) (fits : idle.Fits v.params ∧ arm.Fits v.params)
    (busy : v.c.busyIn = idle.busy ++ (arm.busy ++ (List.replicate (k + 1) high ++ bs)))
    (data : v.c.dataIn = idle.data ++ (arm.data ++ ds)) (limit : v.params.pollLimitBusy = some (k + 1)) :
    Reaches (idle.ticks + arm.ticks + k + 29) (v.startOp .sendEof progSendEof)
      ((v.timedOut .wReadyTx).did .sendEof .deviceNotResponding (some (.bool false)) true 3 bs ds
        (trailSendFallback v.params v.id idle arm [] 0)) := by
  rw [startOp_mid]
  let send : Instr := .sendData [] 0
  let rest : List Micro := [.propagate, .returnTrue]
  have checks : Reaches 1 (v.mid .sendEof progSendEof v.begins) (v.mid .sendEof (.call send :: rest) v.begins) := mid_init calm
  have calls : Reaches 1 (v.mid .sendEof (.call send :: rest) v.begins)
      ((v.mid .sendEof rest v.begins).startOp send (programOf v.params send)) := mid_step calm rfl
  have sends := sendData_stalls (payload := []) (validBits := 0) (v.mid .sendEof rest v.begins) bs ds ok (calm.mid _ _ _)
    (by simp [rangeOk]) carries fits busy data limit
  rw [mid_timedOut_did] at sends
  exact (((checks.trans calls).trans sends).trans
    (mid_raise (e := .deviceNotResponding) (calm.timedOut _) (by decide) rfl)).cast (by omega)

/-- Settles O28: the fallback fails SEND_DATA's check, even though it reads as a state (`sendData_stalls`), and SEND_EOF passes the
error on (`sendEof_stalls`). -/
theorem fallbackStateIsDeviceNotResponding : Obligations.FallbackStateIsDeviceNotResponding := by
  refine ⟨fun s c idle arm k bs ds wf ready carries idleFits armFits limit busy data turn => ?_,
    fun v payload validBits rest fs phase stack fallback => ?_⟩
  · intro after send
    have ok := Params.inRange wf
    have ticks := ticks_sum_le_budget [idle, arm]
    simp only [List.map_cons, List.map_nil, List.sum_cons, List.sum_nil, List.length_cons, List.length_nil] at ticks
    refine ⟨fun payload validBits lengthOk bitsOk => ?_, ?_⟩
    · have range : rangeOk s.params (.sendData payload validBits) = true := by simp [rangeOk, lengthOk, bitsOk]
      have run := sendData_stalls (s.issued c (.sendData payload validBits)) bs ds ok (ready.calm _) range carries
        ⟨idleFits, armFits⟩ busy data limit
      exact exec_did (c' := { c with timeoutStage := some .wReadyTx }) rfl ready.here ready.noOp run ready.noOp ready.noStack
        ready.phase (by omega)
    · have run := sendEof_stalls (s.issued c .sendEof) bs ds ok (ready.calm _) carries ⟨idleFits, armFits⟩ busy data limit
      exact exec_did (c' := { c with timeoutStage := some .wReadyTx }) rfl ready.here ready.noOp run ready.noOp ready.noStack
        ready.phase (by omega)
  · exact tick_ends (u := v) phase stack Instr.noConfusion (if_pos fallback)

end Sys2Proof.Machine
end

section
/-! The statements about the Radio/Transceiver Controller (42_radio_controller.md): BEGIN, RESET and SEND_EOF as whole operations. -/

namespace Sys2Proof.Machine

/-- Settles O20: BEGIN runs its two line settings, the write of `BEGUN` and its end, without an initialisation check
(`issue_begin`). -/
theorem beginCompletes : Obligations.BeginCompletes := by
  intro s c here noOp noStack phase turn
  rw [exec_eq_issue]
  exact issue_begin here noOp noStack phase turn

/-- Settles O21: the pulse, the wait and the clear follow one another (`reset_completes`) on a controller that keeps its registers
but for the reset line. -/
theorem resetCompletes : Obligations.ResetCompletes := by
  intro s c t bs ds wf ready starts answers
  have run := reset_completes (s.issued c .resetChip) bs ds (Params.inRange wf) (ready.calm _) starts answers.fits answers.busy
    answers.data
  exact exec_did (c' := { c with rst := some (!s.params.rstActiveLevel) }) rfl ready.here ready.noOp run ready.noOp
    ready.noStack ready.phase (t.ticks_le.trans answers.turn)

/-- The turn that `Answers` asks for holds the transitions of a SEND_EOF that sends its frame. -/
theorem SendXfers.ticks_le_budget (t : SendXfers) :
    t.idle.ticks + t.arm.ticks + t.state.ticks + t.frame.ticks + 30 ≤ budget t.all := by
  have turn := ticks_sum_le_budget t.all
  simp only [SendXfers.all, List.map_cons, List.map_nil, List.sum_cons, List.sum_nil] at turn ⊢
  omega

/-- Settles O29: the SEND_DATA of the empty payload that SEND_EOF calls sends its frame (`performs_sendEof`). -/
theorem sendEofCompletes : Obligations.SendEofCompletes := by
  intro s c t bs ds wf ready sends answers
  exact exec_performs (i := .sendEof) (performs_sendEof (Params.inRange wf) sends) ready answers t.ticks_le_budget

end Sys2Proof.Machine
end

section
/-! The statements about the inventory as whole operations (43_inventory.md R230, R240, R246 to R248, R253): SETUP_RF, a pass that
is not aborted, what it counts and what it logs. -/

namespace Sys2Proof.Machine

/-! ### SETUP_RF and a pass -/

/-- Settles O31: the field off, the profiles, the field on and the re-arm sequence follow one another (`performs_setupRf`). -/
theorem setupRfCompletes : Obligations.SetupRfCompletes := by
  intro s c t bs ds wf ready sets answers
  have turn := t.ticks_le
  exact exec_performs (i := .setupRf) (performs_setupRf (Params.inRange wf) sets) ready answers (by omega)

/-- Settles O32: the three steps before the slots, the slots and the return follow one another (`pass_completes`) on a controller
that keeps its registers but for those of the inventory. -/
theorem inventoryPassCompletes : Obligations.InventoryPassCompletes := by
  intro s c t bs ds wf ready runs answers
  have run := pass_completes (Params.inRange wf) runs (s.issued c pass) bs ds rfl (ready.calm _) answers.fits answers.busy
    answers.data
  exact exec_did (c' := { c with invPhase := .idle, invSlot := none, invCount := none, invFrames := none }) rfl ready.here
    ready.noOp run ready.noOp ready.noStack ready.phase ((t.ticks_le _).trans answers.turn)

/-- The controller whose turn it was, after it has become `c'`. -/
theorem State.after_handle {s : State} {c c' : Handle} (here : s.handles[s.now.handle]? = some c) (t : Trail) :
    (s.after c' t).handles[s.now.handle]? = some c' := by
  obtain ⟨lt, -⟩ := List.getElem?_eq_some_iff.mp here
  exact List.getElem?_set_self lt

/-! ### How many transactions a pass makes -/

theorem SetupXfers.length_all (t : SetupXfers) : t.all.length = 6 + (t.on.misses.length + 1) := by
  simp [SetupXfers.all, RfOnXfers.all]
  omega

/-- A slot whose EOF is sent makes nine transactions, one more where its response length is read, and one more where the response
is read too (43_inventory.md R253). -/
theorem SlotXfers.length_made {p : Params} {t : SlotXfers} (sent : t.eof.ready p = true) :
    (t.made p).length = 9 + 2 * (t.collects p).toNat + (t.responds p && !t.collects p).toNat := by
  have reads : t.collects p = true → t.responds p = true := fun h => (Bool.and_eq_true_iff.mp h).1
  cases collects : t.collects p <;> cases responds : t.responds p <;>
    simp_all [SlotXfers.made, SendXfers.made]

theorem slots_length_made {p : Params} : ∀ {ts : List SlotXfers}, (∀ sl ∈ ts, sl.eof.ready p = true) →
    (ts.flatMap (SlotXfers.made p)).length = 9 * ts.length + 2 * (ts.filter (SlotXfers.collects p)).length +
      (ts.filter fun sl => sl.responds p && !sl.collects p).length
  | [], _ => rfl
  | t :: ts, sent => by
    have ih := slots_length_made fun sl h => sent sl (List.mem_cons_of_mem t h)
    rw [List.flatMap_cons, List.length_append, ih, SlotXfers.length_made (sent t List.mem_cons_self)]
    simp only [← List.countP_eq_length_filter, List.countP_cons, List.length_cons, Bool.toNat, Bool.cond_eq_ite]
    omega

/-- Settles O33: the transactions of SETUP_RF, of the broad clear, of the request and of the slots are counted one by one
(`SetupXfers.length_all`, `slots_length_made`). -/
theorem passTransactionCount : Obligations.PassTransactionCount := by
  intro s c t bs ds wf slots16 ready runs sent answers
  refine ⟨_, _, inventoryPassCompletes s c t bs ds wf ready runs answers, State.after_handle ready.here _, ?_⟩
  obtain ⟨-, -, -, slots, -⟩ := runs
  have made : (t.made s.params).length = 6 + (t.setup.on.misses.length + 1) + 1 + 4 +
      (t.slots.flatMap (SlotXfers.made s.params)).length := by
    simp [PassXfers.made, SetupXfers.length_all, SendXfers.all]
    omega
  show c.txnCount + (t.made s.params).length = _
  rw [made, slots_length_made sent]
  omega

end Sys2Proof.Machine
end

section
/-! What a pass that is not aborted leaves in the log and in RESULT (43_inventory.md R246 to R248). -/

namespace Sys2Proof.Machine

/-! ### Records in a trail -/

/-- How often a trail logs the record. -/
def Trail.logs (r : LogRec) (t : Trail) : Nat := t.log.count r

section
variable {r : LogRec}

@[simp] theorem Trail.logs_empty : Trail.empty.logs r = 0 := rfl

@[simp] theorem Trail.logs_append (a b : Trail) : (a.append b).logs r = a.logs r + b.logs r := List.count_append

theorem Trail.logs_concat (ts : List Trail) : (Trail.concat ts).logs r = (ts.map (Trail.logs r)).sum := by
  induction ts with
  | nil => rfl
  | cons t ts ih => simp [ih]

theorem Trail.logs_concat_map {α : Type} {f : α → Trail} {k : α → Nat} {xs : List α} (each : ∀ x ∈ xs, (f x).logs r = k x) :
    (Trail.concat (xs.map f)).logs r = (xs.map k).sum := by
  rw [Trail.logs_concat, List.map_map]
  exact congrArg List.sum (List.map_congr_left each)

end

theorem sum_map_ite {α : Type} (q : α → Bool) (xs : List α) : (xs.map fun x => if q x then 1 else 0).sum = xs.countP q := by
  induction xs with
  | nil => rfl
  | cons x xs ih => rw [List.map_cons, List.sum_cons, ih, List.countP_cons, Nat.add_comm]

/-! ### The operations that a pass starts -/

/-- The operations whose number R248 fixes: SEND_EOF and CLEAR_IRQ_STATUS. -/
def Counted (i : Instr) : Prop := i = .sendEof ∨ ∃ mask, i = .clearIrqStatus mask

section
variable {p : Params} {h : Nat} {i : Instr}

@[simp] theorem logs_opStart_op (op : Instr) (st : Status) (res : Option Result) (body : Trail) :
    (trailOp p h op st res body).logs (.opStart h i) = (if op = i then 1 else 0) + body.logs (.opStart h i) := by
  simp [Trail.logs, trailOp, List.count_append, List.count_cons, Nat.add_comm]

@[simp] theorem logs_opStart_txn (op : Instr) (x : Xfer) : (trailTxn p h op x).logs (.opStart h i) = 0 := by
  simp only [Trail.logs, trailTxn, Xfer.log, List.count_eq_zero]
  split <;> simp

@[simp] theorem logs_opStart_delay (d : Duration) : (trailDelay h d).logs (.opStart h i) = 0 := by
  simp [Trail.logs, trailDelay]

/-- A SEND_DATA starts neither a SEND_EOF nor a CLEAR_IRQ_STATUS (41_command_layer.md R165). -/
theorem SendXfers.logs_opStart (t : SendXfers) (payload : List Byte) (validBits : Nat)
    (counted : Counted i) :
    (t.trail p h payload validBits).logs (.opStart h i) = 0 ∧
      (t.refusedTrail p h payload validBits).logs (.opStart h i) = 0 := by
  obtain rfl | ⟨mask, rfl⟩ := counted <;>
    simp [SendXfers.trail, SendXfers.refusedTrail, SendXfers.armed, trailTrue, trailIdle, trailArm, trailWrite, trailStateRead,
      trailRead]

/-- What a slot does before its SEND_EOF starts no SEND_EOF, and it starts a CLEAR_IRQ_STATUS only as its broad clear. -/
theorem SlotXfers.logs_opStart (t : SlotXfers) (counted : Counted i) :
    (t.trail p h).logs (.opStart h i) =
      (if .clearIrqStatus p.broadIrqMask.toNat = i then 1 else 0) + (if .sendEof = i then 1 else 0) := by
  have eof : (t.eofTrail p h).logs (.opStart h i) = if .sendEof = i then 1 else 0 := by
    obtain ⟨sent, refused⟩ := SendXfers.logs_opStart (p := p) (h := h) t.eof [] 0 counted
    unfold SlotXfers.eofTrail
    split <;> simp [SendXfers.eof, trailTrue, sent, refused]
  have response : (Trail.concat (t.responseTrail p h)).logs (.opStart h i) = 0 := by
    unfold SlotXfers.responseTrail
    obtain rfl | ⟨mask, rfl⟩ := counted <;> split <;> split <;> simp [trailRead]
  have delay : (Trail.concat (if 0 < p.tSlotMs then [trailDelay h (.ms p.tSlotMs)] else [])).logs (.opStart h i) = 0 := by
    split <;> simp
  obtain rfl | ⟨mask, rfl⟩ := counted <;>
    simp [SlotXfers.trail, eof, response, delay, trailIdle, trailArm, trailWrite, trailRead, trailIrqRead, trailClear]

/-- SETUP_RF starts no SEND_EOF, and it clears one mask alone, that of RF_ON's confirmation bit (41_command_layer.md R167). -/
theorem SetupXfers.logs_opStart (t : SetupXfers) (counted : Counted i) :
    (t.trail p h).logs (.opStart h i) = if .clearIrqStatus (2 ^ p.rfOnConfirmBit.val) = i then 1 else 0 := by
  have misses : (Trail.concat (t.on.misses.map (trailIrqRead p h))).logs (.opStart h i) = 0 := by
    rw [Trail.logs_concat_map (k := fun _ => 0) fun x _ => by
      obtain rfl | ⟨mask, rfl⟩ := counted <;> simp [trailIrqRead, trailRead]]
    simp
  obtain rfl | ⟨mask, rfl⟩ := counted <;>
    simp [SetupXfers.trail, RfOnXfers.trail, misses, trailTrue, trailIdle, trailArm, trailWrite, trailIrqRead, trailRead,
      trailClear]

/-- A pass starts a broad clear before its request, and in each slot one more and a SEND_EOF (43_inventory.md R248). -/
theorem PassXfers.logs_opStart (t : PassXfers) (counted : Counted i) :
    (t.trail p h).logs (.opStart h i) = (if .clearIrqStatus (2 ^ p.rfOnConfirmBit.val) = i then 1 else 0) +
      (if .clearIrqStatus p.broadIrqMask.toNat = i then 1 else 0) +
      t.slots.length * ((if .clearIrqStatus p.broadIrqMask.toNat = i then 1 else 0) + (if .sendEof = i then 1 else 0)) := by
  have setup := SetupXfers.logs_opStart (p := p) (h := h) t.setup counted
  have request := (SendXfers.logs_opStart (p := p) (h := h) t.request [p.invFlags, p.invCmd, p.invMaskLen] 0 counted).1
  have slots := Trail.logs_concat_map fun sl (_ : sl ∈ t.slots) => SlotXfers.logs_opStart (p := p) (h := h) sl counted
  have clear (x : Xfer) : (trailClear p h p.broadIrqMask.toNat x).logs (.opStart h i) =
      if .clearIrqStatus p.broadIrqMask.toNat = i then 1 else 0 := by
    obtain rfl | ⟨mask, rfl⟩ := counted <;> simp [trailClear, trailWrite]
  rw [List.map_const', List.sum_replicate, smul_eq_mul] at slots
  simp only [PassXfers.trail, Trail.concat_append, Trail.concat_cons, Trail.concat_nil, Trail.append_empty, Trail.logs_append,
    setup, clear, request, logs_opStart_delay, slots, Nat.add_zero]

theorem PassXfers.logs_sendEof (t : PassXfers) : (t.trail p h).logs (.opStart h .sendEof) = t.slots.length := by
  simp [t.logs_opStart (.inl rfl)]

/-- The broad clears are told from RF_ON's clear by their mask. -/
theorem PassXfers.logs_broadClear (t : PassXfers) (ne : p.broadIrqMask ≠ 1#32 <<< p.rfOnConfirmBit.val) :
    (t.trail p h).logs (.opStart h (.clearIrqStatus p.broadIrqMask.toNat)) = t.slots.length + 1 := by
  have masks : 2 ^ p.rfOnConfirmBit.val ≠ p.broadIrqMask.toNat := fun e => ne (by
    rw [← wordOf_toNat p.broadIrqMask, ← e]
    exact wordOf_bitMask p.rfOnConfirmBit)
  simp [t.logs_opStart (.inr ⟨_, rfl⟩), masks, Nat.add_comm]

end

/-! ### The transactions that a pass starts -/

/-- The transaction has this frame and this receive length. -/
def Xfer.starts (tx : List Byte) (n : Nat) (x : Xfer) : Bool := decide (x.tx = tx) && decide (x.rx.length = n)

theorem Xfer.Carries.starts {x : Xfer} {tx : List Byte} {n : Nat} (carries : x.Carries tx n) (tx' : List Byte) (n' : Nat) :
    x.starts tx' n' = (decide (tx = tx') && decide (n = n')) := by
  obtain ⟨rfl, rfl⟩ := carries
  rfl

section
variable {p : Params} {h : Nat} {tx : List Byte} {n : Nat}

@[simp] theorem logs_txnStart_op (op : Instr) (st : Status) (res : Option Result) (body : Trail) :
    (trailOp p h op st res body).logs (.txnStart h tx n) = body.logs (.txnStart h tx n) := by
  simp [Trail.logs, trailOp, List.count_append]

@[simp] theorem logs_txnStart_txn (op : Instr) (x : Xfer) :
    (trailTxn p h op x).logs (.txnStart h tx n) = if x.starts tx n then 1 else 0 := by
  by_cases silent : x.rx = [] <;>
    simp [Trail.logs, trailTxn, Xfer.log, silent, List.count_cons, Xfer.starts]

@[simp] theorem logs_txnStart_delay (d : Duration) : (trailDelay h d).logs (.txnStart h tx n) = 0 := by
  simp [Trail.logs, trailDelay]

theorem SendXfers.logs_txnStart_armed (t : SendXfers) :
    (t.armed p h).logs (.txnStart h tx n) = [t.idle, t.arm, t.state].countP (Xfer.starts tx n) := by
  simp [SendXfers.armed, trailIdle, trailArm, trailWrite, trailStateRead, trailRead, List.countP_cons]
  omega

theorem SendXfers.logs_txnStart (t : SendXfers) (payload : List Byte) (validBits : Nat) :
    (t.trail p h payload validBits).logs (.txnStart h tx n) = t.all.countP (Xfer.starts tx n) := by
  simp [SendXfers.trail, trailTrue, t.logs_txnStart_armed, SendXfers.all, List.countP_cons]
  omega

theorem SlotXfers.logs_txnStart_eof (t : SlotXfers) :
    (t.eofTrail p h).logs (.txnStart h tx n) = (t.eof.made p).countP (Xfer.starts tx n) := by
  cases ready : t.eof.ready p with
  | true => simp [SlotXfers.eofTrail, SendXfers.made, ready, SendXfers.eof, trailTrue, SendXfers.logs_txnStart, SendXfers.all]
  | false => simp [SlotXfers.eofTrail, SendXfers.made, ready, SendXfers.refusedTrail, SendXfers.logs_txnStart_armed]

theorem SlotXfers.logs_txnStart_response (t : SlotXfers) : (Trail.concat (t.responseTrail p h)).logs (.txnStart h tx n) =
    ((if t.responds p then [t.length] else []) ++ (if t.collects p then [t.read] else [])).countP (Xfer.starts tx n) := by
  cases responds : t.responds p <;> cases collects : t.collects p <;>
    simp [SlotXfers.responseTrail, responds, collects, trailRead, List.countP_cons, Nat.add_comm]

theorem SlotXfers.logs_txnStart (t : SlotXfers) :
    (t.trail p h).logs (.txnStart h tx n) = (t.made p).countP (Xfer.starts tx n) := by
  have delay : (Trail.concat (if 0 < p.tSlotMs then [trailDelay h (.ms p.tSlotMs)] else [])).logs (.txnStart h tx n) = 0 := by
    split <;> simp
  simp [SlotXfers.trail, SlotXfers.made, t.logs_txnStart_eof, t.logs_txnStart_response, delay, trailIdle, trailArm,
    trailWrite, trailIrqRead, trailRead, trailClear, List.countP_cons]
  omega

theorem SetupXfers.logs_txnStart (t : SetupXfers) :
    (t.trail p h).logs (.txnStart h tx n) = t.all.countP (Xfer.starts tx n) := by
  have misses : (Trail.concat (t.on.misses.map (trailIrqRead p h))).logs (.txnStart h tx n) =
      t.on.misses.countP (Xfer.starts tx n) := by
    rw [← sum_map_ite]
    exact Trail.logs_concat_map fun x _ => by simp [trailIrqRead, trailRead]
  simp [SetupXfers.trail, SetupXfers.all, RfOnXfers.trail, RfOnXfers.all, misses, trailTrue, trailIdle, trailArm, trailWrite,
    trailIrqRead, trailRead, trailClear, List.countP_cons]
  omega

/-- A pass logs the start of each transaction it makes, once (10_state.md R27, R32). -/
theorem PassXfers.logs_txnStart (t : PassXfers) :
    (t.trail p h).logs (.txnStart h tx n) = (t.made p).countP (Xfer.starts tx n) := by
  have slots : (Trail.concat (t.slots.map (SlotXfers.trail p h))).logs (.txnStart h tx n) =
      (t.slots.flatMap (SlotXfers.made p)).countP (Xfer.starts tx n) := by
    rw [List.countP_flatMap]
    exact Trail.logs_concat_map fun sl _ => sl.logs_txnStart
  simp [PassXfers.trail, PassXfers.made, t.setup.logs_txnStart, t.request.logs_txnStart, slots, trailClear, trailWrite,
    List.countP_cons]
  omega

end

/-! ### The EOF frames of a pass -/

section
variable {p : Params}

/-- Of the transactions of a slot the EOF frame of its SEND_EOF alone is an EOF frame. -/
theorem SlotXfers.Runs.eofs {t : SlotXfers} (runs : t.Runs p) :
    (t.made p).countP (Xfer.starts [0x09#8, 0x00#8] 0) = if t.eof.ready p then 1 else 0 := by
  obtain ⟨check, length, read, txConfig, ⟨idle, arm⟩, clear, ⟨eofIdle, eofArm⟩, state, frame⟩ := runs
  have noLength : (if t.responds p then [t.length] else []).countP (Xfer.starts [0x09#8, 0x00#8] 0) = 0 := by
    split
    · next responds => simp [(length responds).starts]
    · rfl
  have noRead : (if t.collects p then [t.read] else []).countP (Xfer.starts [0x09#8, 0x00#8] 0) = 0 := by
    split
    · next collects => simp [(read collects).starts]
    · rfl
  have eof : (t.eof.made p).countP (Xfer.starts [0x09#8, 0x00#8] 0) = if t.eof.ready p then 1 else 0 := by
    cases ready : t.eof.ready p with
    | true => simp [SendXfers.made, ready, eofIdle.starts, eofArm.starts, state.starts, (frame ready).starts]
    | false => simp [SendXfers.made, ready, eofIdle.starts, eofArm.starts, state.starts]
  simp [SlotXfers.made, noLength, noRead, eof, check.starts, txConfig.starts, idle.starts, arm.starts, clear.starts]

theorem RfOnXfers.Confirms.no_eof {t : RfOnXfers} (confirms : t.Confirms p) :
    t.all.countP (Xfer.starts [0x09#8, 0x00#8] 0) = 0 := by
  obtain ⟨frame, misses, -, ⟨hit, -⟩, clear⟩ := confirms
  have missed : ∀ x ∈ t.misses, x.starts [0x09#8, 0x00#8] 0 = false := fun x hx => by simp [(misses x hx).1.starts]
  simpa [RfOnXfers.all, frame.starts, hit.starts, clear.starts, List.countP_eq_zero] using missed

theorem SetupXfers.Sets.no_eof {t : SetupXfers} (sets : t.Sets p) : t.all.countP (Xfer.starts [0x09#8, 0x00#8] 0) = 0 := by
  obtain ⟨off, load, on, idle, arm⟩ := sets
  simp [SetupXfers.all, on.no_eof, off.starts, load.starts, idle.starts, arm.starts]

/-- The request is longer than an EOF frame (30_encoding.md R96, R97). -/
theorem PassXfers.Runs.eofs {t : PassXfers} (runs : t.Runs p) :
    (t.made p).countP (Xfer.starts [0x09#8, 0x00#8] 0) = (t.slots.filter fun sl => sl.eof.ready p).length := by
  obtain ⟨setup, clear, ⟨⟨⟨idle, arm⟩, state, -⟩, frame⟩, -, slots⟩ := runs
  have each : (t.slots.flatMap (SlotXfers.made p)).countP (Xfer.starts [0x09#8, 0x00#8] 0) =
      (t.slots.filter fun sl => sl.eof.ready p).length := by
    rw [List.countP_flatMap, ← List.countP_eq_length_filter, ← sum_map_ite]
    exact congrArg List.sum (List.map_congr_left fun sl h => (slots sl h).eofs)
  simp [PassXfers.made, SendXfers.all, setup.no_eof, each, clear.starts, idle.starts, arm.starts, state.starts, frame.starts]

/-- A slot gives one frame at most (43_inventory.md R247). -/
theorem PassXfers.length_frames_le (t : PassXfers) : (t.frames p).length ≤ t.slots.length := by
  rw [PassXfers.frames, List.length_flatMap]
  refine (List.sum_le_card_nsmul _ 1 fun k hk => ?_).trans (by simp)
  obtain ⟨sl, -, rfl⟩ := List.mem_map.mp hk
  unfold SlotXfers.frames
  split <;> simp

end

/-- Settles O34: the log of the pass of O32 is that of its parts, whose records are counted (`PassXfers.logs_sendEof`,
`PassXfers.logs_broadClear`, `PassXfers.logs_txnStart`). -/
theorem passShape : Obligations.PassShape := by
  intro s c t bs ds wf slots16 ne ready runs answers
  obtain ⟨-, -, -, slots, -⟩ := id runs
  rw [slots16] at slots
  have frames := t.length_frames_le (p := s.params)
  refine ⟨_, _, _, t.frames s.params, inventoryPassCompletes s c t bs ds wf ready runs answers,
    State.after_handle ready.here _, rfl, ?_, ?_, ?_, rfl, slots ▸ frames, rfl⟩
  all_goals show Trail.logs _ _ = _
  · simp [PassXfers.logs_sendEof, slots]
  · simp [PassXfers.logs_broadClear t ne, slots]
  · rw [logs_txnStart_op, t.logs_txnStart, runs.eofs]

end Sys2Proof.Machine
end

section
/-! A pass of GET_INVENTORY_16_SLOTS step by step, whatever the environment answers: what ends it, and that INV_PHASE changes only
along the rows of its table (43_inventory.md R241, R243 to R245). -/

namespace Sys2Proof.Machine

/-! ### Errors inside a pass -/

/-- The view after the pass in progress has ended with the error `e`: the frames collected are gone (43_inventory.md R245). -/
def View.aborted (v : View) (e : Status) : View :=
  { v with
    c := { v.c with
      status := some e, result := some (.inventory .failed 0 []), ret := ⟨e, some (.inventory .failed 0 [])⟩, op := none
      stack := [], invPhase := .idle, invSlot := none, invCount := none, invFrames := none }
    bus := { v.bus with log := v.bus.log ++ [.opEnd v.id e (some (.inventory .failed 0 []))] } }

theorem raise_pass (v : View) (rest : List Micro) (e : Status) : (v.at pass rest []).raise e = v.aborted e := rfl

/-- Settles O35: the two steps of a slot that see an error are `slotFrame` and `eofCheck`, and what they pass on aborts the pass
(`raise_pass`). -/
theorem inventorySlotErrors : Obligations.InventorySlotErrors := by
  intro v rest phase aborted
  refine ⟨fun stack => ?_, fun stack => ?_⟩
  · rw [tick_step phase stack]
    refine ⟨fun status => ?_, fun status => ?_⟩
    · simp only [microStep, slotFrame, View.at, status, reduceCtorEq, if_false, if_true]
    · simp only [microStep, slotFrame, View.at, status, reduceCtorEq, if_false]
      exact congrArg Tick.moved (raise_pass v rest _)
  · rw [tick_step phase stack]
    refine ⟨?_, fun status => ?_⟩
    · rintro (status | status) <;> simp only [microStep, View.at, status, reduceCtorEq, if_false]
    · simp only [microStep, View.at, status, if_true]
      exact congrArg Tick.moved (raise_pass v rest _)

/-! ### Where a pass is -/

/-- What the rows of R241 read of a controller. -/
structure Spot where
  params : Params
  begun : Bool
  ret : Ret
  phase : InvPhase
  slot : Option Nat

/-- The spot of a controller. -/
def View.spot (v : View) : Spot := ⟨v.params, v.c.begun, v.c.ret, v.c.invPhase, v.c.invSlot⟩

namespace Spot

/-- A transition from the spot to phase `dst` is a row of R241 on its condition. -/
def Row (g : Spot) (dst : InvPhase) : Prop := ∀ v w : View, v.spot = g → inventoryRow v w g.phase dst

/-- The spot is in a phase with a row for an aborting failure, or before the first phase. -/
def MayAbort (g : Spot) : Prop := g.phase ≠ .settle ∧ g.phase ≠ .classify

/-- READ_DATA of a slot ended `Ok` or with a RangeError (43_inventory.md R243). -/
def Accepts (g : Spot) : Prop := g.ret.status = .ok ∨ g.ret.status = .rangeError

/-- At the head of the slot loop: before the first slot, or after a slot. -/
def AtLoop (g : Spot) : Prop :=
  (g.phase = .settle ∧ g.slot = some 0 ∧ 0 < g.params.nSlots) ∨
    (g.phase = .slotAdvance ∧ ∃ k, g.slot = some (k + 1) ∧ k + 1 ≤ g.params.nSlots)

/-- The pass goes on from the spot, with this much left of its pseudocode, along the rows of R241 only, whatever its
sub-operations return. The slot loop is cut at its head, where `AtLoop` says what holds of every slot. -/
def Follows : List Micro → Spot → Prop
  | [], _ => False
  | m :: rest, g =>
    match m with
    | .initCheck => g.MayAbort ∧ (g.begun = true → Follows rest g)
    | .invStart => Follows rest g
    | .delay _ => Follows rest g
    | .invPhase ph => g.Row ph ∧ Follows rest { g with phase := ph }
    | .call i => i ≠ pass ∧ ∀ begun ret, Follows rest { g with begun := begun, ret := ret }
    | .propagate => g.MayAbort ∧ (g.ret.status = .ok → Follows rest g)
    | .invSlotZero => Follows rest { g with slot := some 0 }
    | .slotLoop => g.AtLoop ∧ rest = [.invPhase .classify, .invReturn]
    | .sofTest => ∀ s, g.ret.result = some (.word s) →
      (bitSet s g.params.irqBitRxSof = true → g.Row .slotRead ∧
        ∀ begun ret, let g' : Spot := { g with phase := .slotRead, begun := begun, ret := ret }
          g'.Accepts → Follows rest g') ∧
      (¬ bitSet s g.params.irqBitRxSof = true → Follows rest g)
    | .slotRead => g.MayAbort ∧ ∀ begun ret, let g' : Spot := { g with begun := begun, ret := ret }
        g'.Accepts → Follows rest g'
    | .slotFrame => g.MayAbort ∧ (g.Accepts → Follows rest g)
    | .eofCheck => g.MayAbort ∧ Follows rest g
    | .slotNext => ∀ k, g.slot = some k → Follows rest { g with slot := some (k + 1) }
    | .invReturn => g.phase = .classify
    | _ => False

/-! The rows that no error ends, at a spot -/

section
variable {g : Spot}

theorem row_starts (phase : g.phase = .idle) (begun : g.begun = true) : g.Row .setup := by
  rintro v w rfl
  rw [phase]
  exact begun

theorem row_prepared {dst : InvPhase} (ok : g.ret.status = .ok)
    (phases : (g.phase, dst) ∈ [(.setup, .clear0), (.clear0, .request), (.request, .settle)]) : g.Row dst := by
  rintro v w rfl
  simp only [List.mem_cons, Prod.mk.injEq, List.not_mem_nil, or_false] at phases
  obtain ⟨phase, rfl⟩ | ⟨phase, rfl⟩ | ⟨phase, rfl⟩ := phases <;>
  · rw [phase]
    exact ok

theorem row_firstSlot (phase : g.phase = .settle) (first : g.slot = some 0) : g.Row .slotCheck := by
  rintro v w rfl
  rw [phase]
  exact first

theorem row_silent {s : Word} (phase : g.phase = .slotCheck) (read : g.ret.result = some (.word s))
    (silent : ¬ bitSet s g.params.irqBitRxSof = true) : g.Row .slotAdvance := by
  rintro v w rfl
  rw [phase]
  exact ⟨s, read, Bool.eq_false_iff.mpr silent⟩

theorem row_sof {s : Word} (phase : g.phase = .slotCheck) (read : g.ret.result = some (.word s))
    (sof : bitSet s g.params.irqBitRxSof = true) : g.Row .slotRead := by
  rintro v w rfl
  rw [phase]
  exact ⟨s, read, sof⟩

theorem row_accepted (phase : g.phase = .slotRead) (accepts : g.Accepts) : g.Row .slotAdvance := by
  rintro v w rfl
  rw [phase]
  exact accepts

theorem row_nextSlot {k : Nat} (phase : g.phase = .slotAdvance) (slot : g.slot = some (k + 1)) (lt : k + 1 < g.params.nSlots) :
    g.Row .slotCheck := by
  rintro v w rfl
  rw [phase]
  exact ⟨k, slot, lt⟩

theorem row_lastSlot (phase : g.phase = .slotAdvance) (slot : g.slot = some g.params.nSlots) : g.Row .classify := by
  rintro v w rfl
  rw [phase]
  exact slot

end

/-! The pseudocode of a pass follows the rows -/

section
variable {p : Params} {begun : Bool} {ret : Ret} {slot : Option Nat} {ph : InvPhase}

/-- A call whose error aborts the pass. -/
theorem follows_call {i : Instr} {rest : List Micro} (ne : i ≠ pass) (abort : ph ≠ .settle ∧ ph ≠ .classify)
    (next : ∀ begun ret, ret.status = .ok → Follows rest ⟨p, begun, ret, ph, slot⟩) :
    Follows (.call i :: .propagate :: rest) ⟨p, begun, ret, ph, slot⟩ :=
  ⟨ne, fun begun ret => ⟨abort, next begun ret⟩⟩

/-- SlotAdvance (43_inventory.md R244) and the way back to the head of the loop. -/
theorem follows_slotAdvance {k : Nat} (row : Row ⟨p, begun, ret, ph, some k⟩ .slotAdvance) (lt : k < p.nSlots) :
    Follows (slotAdvance p ++ [.slotNext, .slotLoop, .invPhase .classify, .invReturn]) ⟨p, begun, ret, ph, some k⟩ := by
  refine ⟨row, follows_call nofun (by decide) fun _ _ _ => follows_call nofun (by decide) fun _ _ _ =>
    follows_call nofun (by decide) fun _ _ _ => follows_call nofun (by decide) fun _ _ _ =>
    ⟨nofun, fun begun ret => ⟨⟨nofun, nofun⟩, ?_⟩⟩⟩
  have loops : Follows [.slotNext, .slotLoop, .invPhase .classify, .invReturn] ⟨p, begun, ret, .slotAdvance, some k⟩ :=
    fun j e => ⟨.inr ⟨rfl, j, rfl, Option.some.inj e ▸ lt⟩, rfl⟩
  by_cases delay : 0 < p.tSlotMs
  · rw [if_pos delay]
    exact loops
  · rw [if_neg delay]
    exact loops

/-- SlotCheck (43_inventory.md R243), whose start-of-frame test leads to the advance at once or by way of the response. -/
theorem follows_slotBody {k : Nat} (row : Row ⟨p, begun, ret, ph, some k⟩ .slotCheck) (lt : k < p.nSlots) :
    Follows (slotBody p ++ [.invPhase .classify, .invReturn]) ⟨p, begun, ret, ph, some k⟩ := by
  have body : slotBody p ++ [.invPhase .classify, .invReturn] =
    slotCheck ++ (slotAdvance p ++ [.slotNext, .slotLoop, .invPhase .classify, .invReturn]) := by simp [slotBody]
  rw [body]
  refine ⟨row, follows_call nofun (by decide) fun begun ret _ s read => ⟨fun sof => ?_, fun silent => ?_⟩⟩
  · exact ⟨row_sof rfl read sof, fun _ _ accepts => follows_slotAdvance (row_accepted rfl accepts) lt⟩
  · exact follows_slotAdvance (row_silent rfl read silent) lt

/-- A whole pass over one slot or more (43_inventory.md R240). -/
theorem follows_progGetInventory (slots : 0 < p.nSlots) : Follows (progGetInventory p) ⟨p, begun, ret, .idle, slot⟩ :=
  ⟨⟨nofun, nofun⟩, fun hbegun =>
    ⟨row_starts rfl hbegun, follows_call nofun (by decide) fun _ _ ok =>
    ⟨row_prepared ok (by simp), follows_call nofun (by decide) fun _ _ ok =>
    ⟨row_prepared ok (by simp), follows_call nofun (by decide) fun _ _ ok =>
    ⟨row_prepared ok (by simp), .inl ⟨rfl, rfl, slots⟩, rfl⟩⟩⟩⟩⟩

end

/-- At the head of the loop the pass goes on with the next slot or leaves the loop. -/
theorem AtLoop.follows {g : Spot} (loop : g.AtLoop) {k : Nat} (slot : g.slot = some k) :
    (k < g.params.nSlots → Follows (slotBody g.params ++ [.invPhase .classify, .invReturn]) g) ∧
      (¬ k < g.params.nSlots → Follows [.invPhase .classify, .invReturn] g) := by
  obtain ⟨p, begun, ret, ph, _⟩ := g
  cases slot
  obtain ⟨rfl, ⟨⟩, slots⟩ | ⟨rfl, k, ⟨⟩, le⟩ := loop
  · exact ⟨fun lt => follows_slotBody (row_firstSlot rfl rfl) lt, absurd slots⟩
  · refine ⟨fun lt => follows_slotBody (row_nextSlot rfl rfl lt) lt, fun last => ?_⟩
    have all : k + 1 = p.nSlots := Nat.le_antisymm le (Nat.not_lt.mp last)
    exact ⟨row_lastSlot rfl (congrArg some all), rfl⟩

end Spot

/-! ### A sub-operation in progress -/

/-- A step of the pseudocode that only operations other than GET_INVENTORY_16_SLOTS have, and that calls no pass. -/
def Micro.ordinary : Micro → Bool
  | .call .getInventory16Slots => false
  | .invStart | .invPhase _ | .invSlotZero | .slotLoop | .sofTest | .slotRead | .slotFrame | .eofCheck | .slotNext
  | .invReturn => false
  | _ => true

/-- A sub-operation of a pass with what remains of it. -/
structure Frame.Ordinary (f : Frame) : Prop where
  op : f.op ≠ pass
  todo : ∀ m ∈ f.todo, m.ordinary = true

theorem programOf_ordinary (p : Params) {i : Instr} (ne : i ≠ pass) : Frame.Ordinary ⟨i, programOf p i⟩ := by
  refine ⟨ne, List.all_eq_true.mp ?_⟩
  cases i with
  | getInventory16Slots => exact absurd rfl ne
  | _ => rfl

/-- From `v` to `w` the controller stays inside or returns to the operations `fs`, and what the rows of R241 read, but for what is
returned, is left as it was. -/
structure Stays (v w : View) (fs : List Frame) : Prop where
  spot : w.spot = { v.spot with begun := w.c.begun, ret := w.c.ret }
  stack : ∃ inner, w.c.stack = inner ++ fs ∧ (∀ f ∈ inner, f.Ordinary) ∧ (inner = [] → w.c.tePhase = .idle)

/-- A transition from `v` that moves stays inside or returns to the operations `fs`. -/
def Tick.Stays (v : View) (fs : List Frame) : Tick → Prop
  | .moved w => Machine.Stays v w fs
  | .held => True
  | .fault _ => True

section
variable {v u : View} {f : Frame} {fs : List Frame}

theorem Stays.inside (params : u.params = v.params) (phase : u.c.invPhase = v.c.invPhase) (slot : u.c.invSlot = v.c.invSlot)
    (stack : u.c.stack = f :: fs) (ordinary : f.Ordinary) : Stays v u fs :=
  ⟨by simp [View.spot, params, phase, slot], [f], stack, by simpa using ordinary, nofun⟩

/-! The engine -/

theorem pollBusy_stays {level : Level} {stage : WaitStage} {next : View → Tick} (stack : v.c.stack = f :: fs)
    (ordinary : f.Ordinary)
    (hnext : ∀ u : View, u.params = v.params → u.c.invPhase = v.c.invPhase → u.c.invSlot = v.c.invSlot → u.c.stack = f :: fs →
      (next u).Stays v fs) : (pollBusy v level stage next).Stays v fs := by
  obtain ⟨bs, drawn, taken⟩ := sampleBusy_keeps v
  cases h : pollBusy v level stage next with
  | held => trivial
  | fault e => trivial
  | moved w =>
    obtain ⟨-, goesOn⟩ | ⟨-, k, -, ⟨-, rfl⟩ | ⟨-, rfl⟩⟩ := pollBusy_cases h
    · rw [← goesOn, taken]
      exact hnext _ rfl rfl rfl stack
    · rw [taken]
      exact .inside rfl rfl rfl stack ordinary
    · rw [View.timeOut_eq, taken]
      exact .inside rfl rfl rfl stack ordinary

theorem tickEngine_stays (ph : TePhase) (stack : v.c.stack = f :: fs) (ordinary : f.Ordinary) :
    (tickEngine v ph).Stays v fs := by
  cases ph with
  | idle => trivial
  | arb =>
    simp only [tickEngine, tickArb]
    split
    · next op tx n rest fs' call =>
      obtain ⟨rfl, rfl⟩ := List.cons.inj (stack.symm.trans call)
      split
      · exact .inside (f := ⟨op, rest⟩) (by simp [View.grant]) (by simp [View.grant]) (by simp [View.grant])
          (by simp [View.grant]) ⟨ordinary.op, fun m h => ordinary.todo m (List.mem_cons_of_mem _ h)⟩
      · trivial
    · trivial
  | wReadyTx | wAcceptTx | wAcceptRx =>
    simp only [tickEngine]
    exact pollBusy_stays stack ordinary fun u params phase slot stack =>
      .inside (by simpa using params) (by simpa using phase) (by simpa using slot) (by simpa using stack) ordinary
  | wDoneTx =>
    refine pollBusy_stays (next := doneTx) stack ordinary fun u params phase slot stack => ?_
    unfold doneTx
    split
    · trivial
    · exact .inside params phase slot stack ordinary
    · exact .inside (by simpa using params) (by simpa using phase) (by simpa using slot) (by simpa using stack) ordinary
  | wDoneRx =>
    refine pollBusy_stays (next := doneRx) stack ordinary fun u params phase slot stack => ?_
    unfold doneRx
    split
    · trivial
    · exact .inside params phase slot stack ordinary
  | txSetup | txHold | rxSetup | rxHold => exact .inside rfl rfl rfl stack ordinary
  | txBytes =>
    simp only [tickEngine, tickTxBytes]
    split
    · trivial
    · trivial
    · next tx k _ _ =>
      split
      · exact .inside rfl rfl rfl stack ordinary
      · next b _ =>
        obtain ⟨ds, drawn, sl, exchanged⟩ := exchange_keeps v b
        rw [exchanged]
        exact .inside rfl rfl rfl stack ordinary
  | rxBytes =>
    simp only [tickEngine, tickRxBytes]
    split
    · trivial
    · trivial
    · split
      · obtain ⟨ds, drawn, sl, exchanged⟩ := exchange_keeps v v.params.readFillByte
        rw [exchanged]
        exact .inside rfl rfl rfl stack ordinary
      · exact .inside rfl rfl rfl stack ordinary

end

/-! The pseudocode -/

/-- In `u`, reached from `v`, the sub-operation `op` has `rest` left and no transaction runs. -/
structure View.Goes (v u : View) (op : Instr) (rest : List Micro) (fs : List Frame) : Prop where
  params : u.params = v.params
  invPhase : u.c.invPhase = v.c.invPhase
  invSlot : u.c.invSlot = v.c.invSlot
  stack : u.c.stack = ⟨op, rest⟩ :: fs
  idle : u.c.tePhase = .idle
  ordinary : Frame.Ordinary ⟨op, rest⟩

namespace View.Goes

variable {v u : View} {fs : List Frame} {op : Instr} {rest : List Micro}

theorem stays (h : v.Goes u op rest fs) : Stays v u fs := .inside h.params h.invPhase h.invSlot h.stack h.ordinary

theorem prepend (h : v.Goes u op rest fs) {ms : List Micro} (ordinary : ∀ m ∈ ms, m.ordinary = true) :
    Stays v (u.prepend ms) fs := by
  have prepended : u.prepend ms = u.at op (ms ++ rest) fs := by simp only [View.prepend, h.stack, View.at]
  rw [prepended]
  exact .inside h.params h.invPhase h.invSlot rfl
    ⟨h.ordinary.op, fun m hm => (List.mem_append.mp hm).elim (ordinary m) (h.ordinary.todo m)⟩

theorem call (h : v.Goes u op rest fs) {i : Instr} (ne : i ≠ pass) : Stays v (u.startOp i (programOf u.params i)) fs :=
  ⟨by simp [View.startOp, View.spot, h.params, h.invPhase, h.invSlot], [⟨i, programOf u.params i⟩, ⟨op, rest⟩],
    by simp [View.startOp, h.stack], by simp [programOf_ordinary _ ne, h.ordinary], nofun⟩

theorem endOp (h : v.Goes u op rest fs) (st : Status) (r : Option Result) : Stays v (u.endOp st r) fs := by
  rw [endOp_eq h.stack h.ordinary.op]
  exact ⟨by simp [View.spot, h.params, h.invPhase, h.invSlot], [], rfl, nofun, fun _ => h.idle⟩

theorem raise (h : v.Goes u op rest fs) (e : Status) : Stays v (u.raise e) fs := by
  simpa only [View.raise, h.stack] using h.endOp e (failureResult op)

/-- One step of the pseudocode of a sub-operation. -/
theorem microStep {m : Micro} (h : v.Goes u op rest fs) (called : v.c.stack = ⟨op, m :: rest⟩ :: fs)
    (ordinary : m.ordinary = true) : (microStep v u op m).Stays v fs := by
  cases m with
  | invStart | invPhase | invSlotZero | slotLoop | sofTest | slotRead | slotFrame | eofCheck | slotNext | invReturn =>
    cases ordinary
  | initCheck | rangeCheck | propagate =>
    simp only [Machine.microStep]
    split
    · exact h.stays
    · exact h.raise _
  | transact tx n =>
    simp only [Machine.microStep]
    split
    · exact h.raise _
    · exact .inside rfl rfl rfl called ⟨h.ordinary.op, List.forall_mem_cons.mpr ⟨ordinary, h.ordinary.todo⟩⟩
  | call i => exact h.call fun e => by rw [e] at ordinary; cases ordinary
  | irqPoll bit stage k => exact h.prepend (by simp [Micro.ordinary])
  | irqTest bit stage k =>
    simp only [Machine.microStep, irqTest]
    split
    · split
      · exact h.stays
      · split
        · exact raise (u := { u with c := { u.c with timeoutStage := some stage } }) { h with } _
        · exact h.prepend (by simp [Micro.ordinary])
    · trivial
  | setRst | deselect =>
    exact .inside (by simpa using h.params) (by simpa using h.invPhase) (by simpa using h.invSlot) (by simpa using h.stack)
      h.ordinary
  | setBegun | delay => exact .inside h.params h.invPhase h.invSlot h.stack h.ordinary
  | stateCheck =>
    simp only [Machine.microStep, stateCheck]
    split
    · exact h.raise _
    · split
      · split
        · exact h.stays
        · exact h.raise _
      · trivial
  | returnTrue => exact h.endOp _ _
  | returnBytes =>
    simp only [Machine.microStep, Machine.returnBytes]
    split
    · exact h.endOp _ _
    · trivial
  | returnRegister =>
    simp only [Machine.microStep, Machine.returnRegister]
    split
    · exact h.endOp _ _
    · trivial
  | returnWord =>
    simp only [Machine.microStep, Machine.returnWord]
    split
    · exact h.endOp _ _
    · trivial
  | returnState =>
    simp only [Machine.microStep, Machine.returnState]
    split
    · split
      · exact endOp (u := { u with c := { u.c with tsFallback := false } }) { h with } _ _
      · trivial
    · exact endOp (u := { u with c := { u.c with tsFallback := true } }) { h with } _ _

end View.Goes

/-- A transition inside a sub-operation of a pass stays inside or returns to what called it. -/
theorem tick_stays {v : View} {f : Frame} {fs : List Frame} (stack : v.c.stack = f :: fs) (ordinary : f.Ordinary) :
    (tick v).Stays v fs := by
  by_cases idle : v.c.tePhase = .idle
  · obtain ⟨op, todo⟩ := f
    obtain ⟨ne, remains⟩ := ordinary
    cases todo with
    | nil =>
      rw [tick_end idle stack]
      exact View.Goes.endOp (u := v) ⟨rfl, rfl, rfl, stack, idle, ne, remains⟩ _ _
    | cons m rest =>
      obtain ⟨first, others⟩ := List.forall_mem_cons.mp remains
      rw [tick_step idle stack]
      exact View.Goes.microStep ⟨rfl, rfl, rfl, rfl, idle, ne, others⟩ stack first
  · rw [tick_engine rfl idle]
    exact tickEngine_stays _ stack ordinary

/-! ### A pass in progress -/

/-- Where a controller is during a pass: at its end, between two sub-operations, or inside one, with `todo` left of the pass. A
sub-operation may return anything. -/
inductive View.OnTable (v : View) : Prop where
  | ended : v.c.tePhase = .idle → v.c.stack = [] → OnTable v
  | between {todo : List Micro} : v.c.tePhase = .idle → v.c.stack = [⟨pass, todo⟩] → v.spot.Follows todo → OnTable v
  | inside {f : Frame} {fs : List Frame} {todo : List Micro} : v.c.stack = f :: (fs ++ [⟨pass, todo⟩]) →
    (∀ g ∈ f :: fs, g.Ordinary) → (∀ begun ret, Spot.Follows todo { v.spot with begun := begun, ret := ret }) → OnTable v

/-- A transition from `v` that moves keeps the controller on the table and is a row of it if it changes INV_PHASE. -/
def Tick.KeepsTable (v : View) : Tick → Prop
  | .moved w => w.OnTable ∧ (w.c.invPhase ≠ v.c.invPhase → inventoryRow v w v.c.invPhase w.c.invPhase)
  | .held => True
  | .fault _ => True

/-- Inside a sub-operation. -/
theorem tick_keepsTable_inside {v : View} {f : Frame} {fs : List Frame} {todo : List Micro}
    (stack : v.c.stack = f :: (fs ++ [⟨pass, todo⟩])) (ordinary : ∀ g ∈ f :: fs, g.Ordinary)
    (follows : ∀ begun ret, Spot.Follows todo { v.spot with begun := begun, ret := ret }) : (tick v).KeepsTable v := by
  obtain ⟨first, others⟩ := List.forall_mem_cons.mp ordinary
  have stays := tick_stays stack first
  cases h : tick v with
  | held => trivial
  | fault e => trivial
  | moved w =>
    rw [h] at stays
    obtain ⟨spot, inner, stack', ordinary', rests⟩ := stays
    refine ⟨?_, fun ne => absurd (congrArg Spot.phase spot) ne⟩
    rw [← List.append_assoc] at stack'
    have all : ∀ g ∈ inner ++ fs, g.Ordinary := fun g hg => (List.mem_append.mp hg).elim (ordinary' g) (others g)
    cases remain : inner ++ fs with
    | nil =>
      rw [remain] at stack'
      exact .between (rests (List.append_eq_nil_iff.mp remain).1) stack' (spot ▸ follows _ _)
    | cons f' fs' =>
      rw [remain] at stack' all
      exact .inside stack' all fun begun ret => spot ▸ follows begun ret

section
variable {v : View} {rest : List Micro}

/-- A step after which the pass goes on in the same phase, the engine at rest. -/
theorem keepsTable_between {w : View} {todo : List Micro} (idle : w.c.tePhase = .idle) (stack : w.c.stack = [⟨pass, todo⟩])
    (follows : w.spot.Follows todo) (same : w.c.invPhase = v.c.invPhase) : (Tick.moved w).KeepsTable v :=
  ⟨.between idle stack follows, fun ne => absurd same ne⟩

/-- An error that ends the pass. -/
theorem keepsTable_raise (idle : v.c.tePhase = .idle) (abort : v.spot.MayAbort) {e : Status} (ne : e ≠ .ok) :
    (Tick.moved ((v.at pass rest []).raise e)).KeepsTable v := by
  rw [raise_pass]
  refine ⟨.ended idle rfl, fun changed => ?_⟩
  have aborted : (v.aborted e).c.stack = [] ∧ (v.aborted e).c.result = some (.inventory .failed 0 []) ∧
    ∃ e', (v.aborted e).c.status = some e' ∧ e' ≠ .ok := ⟨rfl, rfl, e, rfl, ne⟩
  obtain ⟨notSettle, notClassify⟩ := abort
  show inventoryRow v (v.aborted e) v.c.invPhase .idle
  cases phase : v.c.invPhase with
  | idle => exact absurd phase.symm changed
  | settle => exact absurd phase notSettle
  | classify => exact absurd phase notClassify
  | _ => exact aborted

/-- A step of the pass itself. -/
theorem microStep_keepsTable {m : Micro} (idle : v.c.tePhase = .idle) (follows : v.spot.Follows (m :: rest)) :
    (microStep v (v.at pass rest []) pass m).KeepsTable v := by
  cases m with
  | rangeCheck | transact | irqPoll | irqTest | setRst | deselect | setBegun | stateCheck | returnTrue | returnBytes
  | returnRegister | returnWord | returnState => exact follows.elim
  | initCheck =>
    obtain ⟨abort, next⟩ := follows
    simp only [microStep]
    split
    · next begun => exact keepsTable_between idle rfl (next begun) rfl
    · exact keepsTable_raise idle abort nofun
  | invStart | delay | invSlotZero => exact keepsTable_between idle rfl follows rfl
  | invPhase ph =>
    obtain ⟨row, next⟩ := follows
    exact ⟨.between idle rfl next, fun _ => row v _ rfl⟩
  | call i =>
    obtain ⟨ne, next⟩ := follows
    refine ⟨.inside (f := ⟨i, programOf v.params i⟩) (fs := []) (todo := rest) (by simp [View.startOp, View.at])
      (List.forall_mem_singleton.mpr (programOf_ordinary _ ne)) ?_,
      fun changed => absurd (by simp [View.startOp, View.at]) changed⟩
    simpa [View.startOp, View.at, View.spot] using next
  | propagate =>
    obtain ⟨abort, next⟩ := follows
    simp only [microStep]
    split
    · next ok => exact keepsTable_between idle rfl (next ok) rfl
    · next error => exact keepsTable_raise idle abort error
  | slotLoop =>
    obtain ⟨loop, rfl⟩ := follows
    simp only [microStep, slotLoop]
    split
    · trivial
    · next k slot =>
      obtain ⟨goesOn, leaves⟩ := loop.follows slot
      split
      · next more => exact keepsTable_between idle rfl (goesOn more) rfl
      · next last => exact keepsTable_between idle rfl (leaves last) rfl
  | sofTest =>
    simp only [microStep, sofTest]
    split
    · next s read =>
      obtain ⟨responds, passes⟩ := follows s read
      split
      · next sof =>
        obtain ⟨row, next⟩ := responds sof
        exact keepsTable_between idle rfl
          ⟨row, nofun, fun _ _ => ⟨⟨nofun, nofun⟩, fun _ => ⟨⟨nofun, nofun⟩, next⟩⟩⟩ rfl
      · next silent => exact keepsTable_between idle rfl (passes silent) rfl
    · trivial
  | slotRead =>
    obtain ⟨abort, next⟩ := follows
    simp only [microStep, slotRead]
    split
    · exact keepsTable_between idle rfl ⟨nofun, fun begun ret => ⟨abort, next begun ret⟩⟩ rfl
    · trivial
  | slotFrame =>
    obtain ⟨abort, next⟩ := follows
    simp only [microStep, slotFrame]
    split
    · next ok =>
      split
      · exact keepsTable_between idle rfl (next (.inl ok)) rfl
      all_goals trivial
    · next error =>
      split
      · next range => exact keepsTable_between idle rfl (next (.inr range)) rfl
      · exact keepsTable_raise idle abort error
  | eofCheck =>
    obtain ⟨abort, next⟩ := follows
    simp only [microStep]
    split
    · exact keepsTable_raise idle abort nofun
    · exact keepsTable_between idle rfl next rfl
  | slotNext =>
    simp only [microStep]
    split
    · trivial
    · next k slot => exact keepsTable_between idle rfl (follows k slot) rfl
  | invReturn =>
    have phase : v.c.invPhase = .classify := follows
    simp only [microStep, invReturn]
    split
    · trivial
    · trivial
    · refine ⟨.ended idle rfl, fun _ => ?_⟩
      rw [phase]
      exact ⟨rfl, rfl⟩

end

/-- Every transition during a pass, whatever the other controllers do meanwhile. -/
theorem View.OnTable.tick {v : View} (onTable : v.OnTable) : (Machine.tick v).KeepsTable v := by
  cases onTable with
  | ended idle stack =>
    rw [tick_nothing idle stack]
    trivial
  | inside stack ordinary follows => exact tick_keepsTable_inside stack ordinary follows
  | @between todo idle stack follows =>
    cases todo with
    | nil => exact follows.elim
    | cons m rest =>
      rw [tick_step idle stack]
      exact microStep_keepsTable idle follows

theorem InPass.onTable {p : Params} (slots : 0 < p.nSlots) {v : View} (inPass : InPass p v) : v.OnTable := by
  induction inPass with
  | starts params tePhase invPhase stack =>
    subst params
    refine .between tePhase stack ?_
    unfold View.spot
    rw [invPhase]
    exact Spot.follows_progGetInventory slots
  | @moves v w _ moved onTable =>
    have keeps := onTable.tick
    rw [moved] at keeps
    exact keeps.1
  | others b _ onTable =>
    cases onTable with
    | ended idle stack => exact .ended idle stack
    | between idle stack follows => exact .between idle stack follows
    | inside stack ordinary follows => exact .inside stack ordinary follows

/-- Settles O60: a pass starts where its pseudocode follows the rows (`Spot.follows_progGetInventory`), and every transition
keeps it there (`View.OnTable.tick`). -/
theorem inventoryPhasesFollowTheTable : Obligations.InventoryPhasesFollowTheTable := by
  intro p v w slots inPass moved changed
  have keeps := (inPass.onTable slots).tick
  rw [moved] at keeps
  exact keeps.2 changed

end Sys2Proof.Machine
end

section
/-! The statements about results, errors, waits and turns (60_exceptions.md): what an operation that ended returned, which waits
`TIMEOUT_STAGE` names, the grant of the bus, the debug trace, and where a turn may end. -/

namespace Sys2Proof.Machine

/-! ### Booleans -/

/-- An operation that returns a boolean ends with `true` or with an error's `false` (60_exceptions.md R272). -/
theorem EndsWith.bool {op : Instr} {st : Status} {r : Option Result} (ends : EndsWith op st r) (kind : resultKind op = .bool)
    (error : errorResult op = some (.bool false)) : ∃ b, r = some (.bool b) ∧ (b = true ↔ st = .ok) := by
  obtain ⟨value, failure⟩ := ends
  by_cases ok : st = .ok
  · have fits := value ok
    rw [kind] at fits
    match r, fits with
    | some (.bool true), _ => exact ⟨true, rfl, iff_of_true rfl ok⟩
  · exact ⟨false, (failure ok).trans error, iff_of_false Bool.false_ne_true ok⟩

/-- Settles O44: the operation ended with a result of its kind or with the one of its error
(`endedOperationsReturnTheirKind`). -/
theorem booleanIsTrueExactlyWhenOk : Obligations.BooleanIsTrueExactlyWhenOk := by
  intro s h v w op todo fs inv hv stack moved gone returnsBool
  obtain ⟨st, r, status, result, -, ends⟩ := endedOperationsReturnTheirKind s h v w op todo fs inv hv stack moved gone
  have boolean : resultKind op = .bool ∧ errorResult op = some (.bool false) := by
    obtain ⟨_, _, rfl⟩ | ⟨_, _, rfl⟩ | rfl | rfl | rfl | rfl := returnsBool <;> exact ⟨rfl, rfl⟩
  obtain ⟨b, value, iff⟩ := EndsWith.bool ends boolean.1 boolean.2
  exact ⟨st, b, status, result.trans value, iff⟩

/-! ### Errors -/

/-- What an error does to the operation it ends (60_exceptions.md R271). -/
theorem raise_at (v : View) (op : Instr) (rest : List Micro) (fs : List Frame) (e : Status) :
    (v.at op rest fs).raise e = { v with
      c := { clearInventory op v.c with
        status := some e, result := errorResult op, ret := ⟨e, errorResult op⟩, stack := fs
        op := if fs = [] then none else v.c.op }
      bus := { v.bus with log := v.bus.log ++ [.opEnd v.id e (errorResult op)] } } := by
  simp only [View.raise, View.endOp, View.at, View.record, failureResult_eq, clearInventory]
  split <;> rfl

/-- Settles O46: the `?` raises the error returned to it (`raise_at`). -/
theorem errorEndsTheOperation : Obligations.ErrorEndsTheOperation := by
  rintro v op rest fs e phase stack rfl error
  rw [tick_step phase stack, ← raise_at v op rest fs]
  exact if_neg error

/-! ### Which waits TIMEOUT_STAGE names -/

@[simp] theorem clearInventory_timeoutStage (i : Instr) (c : Handle) : (clearInventory i c).timeoutStage = c.timeoutStage := by
  unfold clearInventory
  split <;> rfl

@[simp] theorem View.endOp_timeoutStage (v : View) (st : Status) (r : Option Result) :
    (v.endOp st r).c.timeoutStage = v.c.timeoutStage := by
  unfold View.endOp
  split <;> simp

@[simp] theorem View.raise_timeoutStage (v : View) (e : Status) : (v.raise e).c.timeoutStage = v.c.timeoutStage := by
  unfold View.raise
  split <;> simp

@[simp] theorem View.prepend_timeoutStage (v : View) (ms : List Micro) : (v.prepend ms).c.timeoutStage = v.c.timeoutStage := by
  unfold View.prepend
  split <;> rfl

@[simp] theorem View.startOp_timeoutStage (v : View) (op : Instr) (prog : List Micro) :
    (v.startOp op prog).c.timeoutStage = v.c.timeoutStage := by
  simp [View.startOp]

@[simp] theorem View.at_timeoutStage (v : View) (op : Instr) (todo : List Micro) (fs : List Frame) :
    (v.at op todo fs).c.timeoutStage = v.c.timeoutStage := rfl

@[simp] theorem View.finish_timeoutStage (v : View) (st : Status) (rx : List Byte) :
    (v.finish st rx).c.timeoutStage = v.c.timeoutStage := rfl

@[simp] theorem View.exchange_timeoutStage (v : View) (o : Byte) : (v.exchange o).2.c.timeoutStage = v.c.timeoutStage := by
  obtain ⟨ds, drawn, slots, h⟩ := exchange_keeps v o
  rw [h]

/-- The wait in progress in `v` has run out in `w` and is named there (60_exceptions.md R273). -/
def View.WaitRanOut (v w : View) : Prop :=
  w.c.ret.status = .deviceNotResponding ∧
    ((∃ level stage, awaited v.c.tePhase = some (level, stage) ∧ w.c.timeoutStage = some stage) ∨
      (∃ op bit stage k rest fs, v.c.tePhase = .idle ∧ v.c.stack = ⟨op, .irqTest bit stage k :: rest⟩ :: fs ∧
        w.c.timeoutStage = some stage))

/-- A transition from `v` that moves leaves `TIMEOUT_STAGE` alone. -/
def Tick.KeepsStage (v : View) : Tick → Prop
  | .moved w => w.c.timeoutStage = v.c.timeoutStage
  | .held => True
  | .fault _ => True

/-- A transition from `v` that moves leaves `TIMEOUT_STAGE` alone or is the end of a wait that has run out. -/
def Tick.NamesWait (v : View) : Tick → Prop
  | .moved w => w.c.timeoutStage = v.c.timeoutStage ∨ v.WaitRanOut w
  | .held => True
  | .fault _ => True

@[simp] theorem Tick.keepsStage_moved (v w : View) : (Tick.moved w).KeepsStage v ↔ w.c.timeoutStage = v.c.timeoutStage := Iff.rfl

@[simp] theorem Tick.keepsStage_fault (v : View) (f : Fault) : (Tick.fault f).KeepsStage v := trivial

theorem Tick.KeepsStage.namesWait {v : View} {t : Tick} (h : t.KeepsStage v) : t.NamesWait v := by
  cases t with
  | moved w => exact .inl h
  | held => trivial
  | fault f => trivial

section
variable {v : View}

/-! The engine -/

/-- A busy wait that runs out is named by its phase. -/
theorem pollBusy_namesWait {level : Level} {stage : WaitStage} {next : View → Tick}
    (waits : awaited v.c.tePhase = some (level, stage))
    (hnext : ∀ u : View, u.c.timeoutStage = v.c.timeoutStage → (next u).KeepsStage v) :
    (pollBusy v level stage next).NamesWait v := by
  obtain ⟨bs, drawn, taken⟩ := sampleBusy_keeps v
  cases h : pollBusy v level stage next with
  | held => trivial
  | fault f => trivial
  | moved w =>
    obtain ⟨-, goesOn⟩ | ⟨-, k, -, ⟨-, rfl⟩ | ⟨-, rfl⟩⟩ := pollBusy_cases h
    · rw [← goesOn]
      exact (hnext _ (by rw [taken])).namesWait
    · left
      rw [taken]
    · right
      rw [View.timeOut_eq]
      exact ⟨rfl, .inl ⟨level, stage, waits, rfl⟩⟩

theorem doneTx_keepsStage {u : View} (same : u.c.timeoutStage = v.c.timeoutStage) : (doneTx u).KeepsStage v := by
  unfold doneTx
  split <;> simp [same]

theorem doneRx_keepsStage {u : View} (same : u.c.timeoutStage = v.c.timeoutStage) : (doneRx u).KeepsStage v := by
  unfold doneRx
  split <;> simp [same]

theorem tickArb_keepsStage : (tickArb v).KeepsStage v := by
  unfold tickArb
  split
  · split
    · simp [View.grant]
    · trivial
  · trivial

theorem tickTxBytes_keepsStage : (tickTxBytes v).KeepsStage v := by
  unfold tickTxBytes
  split
  · trivial
  · trivial
  · split <;> simp

theorem tickRxBytes_keepsStage : (tickRxBytes v).KeepsStage v := by
  unfold tickRxBytes
  split
  · trivial
  · trivial
  · split <;> simp

/-- Of the transitions of the engine only a sample of a busy wait can name a wait. -/
theorem tickEngine_namesWait {ph : TePhase} (phase : v.c.tePhase = ph) : (tickEngine v ph).NamesWait v := by
  have waits {level : Level} {stage : WaitStage} (h : awaited ph = some (level, stage)) :
      awaited v.c.tePhase = some (level, stage) := phase ▸ h
  cases ph with
  | idle => trivial
  | arb => exact tickArb_keepsStage.namesWait
  | wReadyTx | wAcceptTx | wAcceptRx =>
    simp only [tickEngine]
    exact pollBusy_namesWait (waits rfl) fun u same => by simpa using same
  | wDoneTx => exact pollBusy_namesWait (waits rfl) fun u => doneTx_keepsStage
  | wDoneRx => exact pollBusy_namesWait (waits rfl) fun u => doneRx_keepsStage
  | txSetup | txHold | rxSetup | rxHold => exact .inl rfl
  | txBytes => exact tickTxBytes_keepsStage.namesWait
  | rxBytes => exact tickRxBytes_keepsStage.namesWait

/-! The pseudocode -/

/-- Of the steps of the pseudocode only the test of an IRQ wait can name a wait. -/
theorem microStep_keepsStage {op : Instr} {m : Micro} {rest : List Micro} {fs : List Frame}
    (noTest : ∀ bit stage k, m ≠ .irqTest bit stage k) : (microStep v (v.at op rest fs) op m).KeepsStage v := by
  cases m with
  | irqTest bit stage k => exact absurd rfl (noTest bit stage k)
  | call | irqPoll | setRst | deselect | setBegun | delay | returnTrue | invStart | invPhase | invSlotZero => simp [microStep]
  | initCheck | rangeCheck | transact | propagate | eofCheck | slotNext => simp only [microStep]; split <;> simp
  | returnBytes => simp only [microStep, returnBytes]; split <;> simp
  | returnRegister => simp only [microStep, returnRegister]; split <;> simp
  | returnWord => simp only [microStep, returnWord]; split <;> simp
  | slotRead => simp only [microStep, slotRead]; split <;> simp
  | invReturn => simp only [microStep, invReturn]; split <;> simp
  | stateCheck =>
    simp only [microStep, stateCheck]
    split
    · simp
    · split
      · split <;> simp
      · simp
  | returnState =>
    simp only [microStep, returnState]
    split
    · split <;> simp
    · simp
  | slotLoop =>
    simp only [microStep, slotLoop]
    split
    · simp
    · split <;> simp
  | sofTest =>
    simp only [microStep, sofTest]
    split
    · split <;> simp
    · simp
  | slotFrame =>
    simp only [microStep, slotFrame]
    split
    · split <;> simp
    · split <;> simp

/-- An IRQ wait that runs out is named by its name. -/
theorem irqTest_namesWait {op : Instr} {bit : Fin 32} {stage : WaitStage} {k : Nat} {rest : List Micro} {fs : List Frame}
    (phase : v.c.tePhase = .idle) (stack : v.c.stack = ⟨op, .irqTest bit stage k :: rest⟩ :: fs) :
    (irqTest (v.at op rest fs) bit stage k).NamesWait v := by
  unfold irqTest
  split
  · split
    · exact .inl rfl
    · split
      · exact .inr ⟨rfl, .inr ⟨op, bit, stage, k, rest, fs, phase, stack, by simp⟩⟩
      · exact .inl (by simp)
  · trivial

theorem tick_namesWait (v : View) : (tick v).NamesWait v := by
  by_cases phase : v.c.tePhase = .idle
  · cases stack : v.c.stack with
    | nil => rw [tick_nothing phase stack]; trivial
    | cons f fs =>
      obtain ⟨op, _ | ⟨m, rest⟩⟩ := f
      · rw [tick_end phase stack]
        exact .inl (by simp)
      · rw [tick_step phase stack]
        cases m with
        | irqTest bit stage k => exact irqTest_namesWait phase stack
        | _ => exact (microStep_keepsStage (by simp)).namesWait
  · rw [tick_engine rfl phase]
    exact tickEngine_namesWait rfl

end

/-- Settles O47: every transition leaves the register alone or is the end of a wait that has run out (`tick_namesWait`). -/
theorem timeoutStageNamesTheWait : Obligations.TimeoutStageNamesTheWait := by
  intro v w moved changed
  have names := tick_namesWait v
  rw [moved] at names
  exact names.resolve_left changed

/-! ### The grant of the bus -/

/-- Settles O42: the arbiter looks at the owner alone, and the grant's trace record is that of `debug_eq`. -/
theorem busIsGrantedWhenFree : Obligations.BusIsGrantedWhenFree := by
  intro v op tx n rest fs phase stack
  rw [tick_engine phase (by decide)]
  refine ⟨fun owner owned => ?_, fun free => ?_⟩
  · simp only [tickEngine, tickArb, stack, owned, reduceCtorEq, if_false]
  · simp only [tickEngine, tickArb, stack, free, if_true, View.grant, debug_eq]
    rfl

/-! ### The debug trace -/

/-- The trace is disabled and discarded. -/
def Unread.untraced : Unread where
  params := silent
  log := id
  slots := id
  trace := fun _ => []
  params_silent := fun _ => rfl
  log_append := fun _ _ => rfl
  slots_append := fun _ _ => rfl
  trace_append := fun _ _ _ => rfl

/-- Settles O57: a turn carries along that no trace is kept (`Unread.run_view`). -/
theorem debugTraceChangesNothing : Obligations.DebugTraceChangesNothing := by
  intro q v quiet
  have h : run q (Unread.untraced.view v) = _ := Unread.untraced.run_view q v
  rw [show quiet v = Unread.untraced.view v from rfl, h]
  cases run q v <;> rfl

/-! ### Where a turn may end -/

/-- A turn of one transition, of a controller that has an operation in progress: that transition is all the step does. -/
theorem step_oneTransition {s : State} {h : Nat} {ts : List Turn} {c c' : Handle} {b : Shared} (sched : s.sched = ⟨h, 1⟩ :: ts)
    (here : s.handles[h]? = some c) (busy : c.op ≠ none)
    (moved : tick ⟨h, s.params, c, s.shared⟩ = .moved ⟨h, s.params, c', b⟩) :
    step s = .next { s with sched := ts, now := ⟨h, 1⟩, handles := s.handles.set h c', shared := b } := by
  obtain ⟨op, busy⟩ := Option.ne_none_iff_exists'.mp busy
  rw [step, State.takeTurn_scheduled sched, turnStep_goes_on here busy]
  simp only [State.runTurn, run, moved, State.put]

/-- A sample that is not the awaited level and is not the last one allowed: it is counted and the wait goes on. -/
theorem pollBusy_goesOn {v : View} {level : Level} {stage : WaitStage} {next : View → Tick} {k : Nat}
    (sample : v.sampleBusy.1 ≠ level) (cnt : v.c.pollCnt = some k)
    (more : limitReached v.params.pollLimitBusy (k + 1) = false) :
    pollBusy v level stage next = .moved { v with c := { v.sampleBusy.2.c with pollCnt := some (k + 1) } } := by
  obtain ⟨bs, drawn, taken⟩ := sampleBusy_keeps v
  simp only [pollBusy, if_neg sample, cnt, more, Bool.false_eq_true, if_false, taken]

/-- Settles O58: in each case the turn's one transition (`step_oneTransition`) is the failed sample (`pollBusy_goesOn`), the failed
read or the delay. -/
theorem suspensionPoints : Obligations.SuspensionPoints := by
  intro s h ts c sched here busy v suspended
  have engine {c' : Handle} {b : Shared} {ph : TePhase} (phase : c.tePhase = ph) (ne : ph ≠ .idle)
      (moved : tickEngine v ph = .moved ⟨h, s.params, c', b⟩) :=
    step_oneTransition sched here busy ((tick_engine phase ne).trans moved)
  have noRecord : s.shared = { s.shared with log := s.shared.log ++ [] } := by rw [List.append_nil]
  refine ⟨fun level stage k waits cnt more sample => ?_, fun phase => ?_, fun phase => ?_, fun phase => ?_, fun phase => ?_,
    fun op d rest fs phase stack => ?_, fun op bit stage k value rest fs phase stack read unset more => ?_⟩
  · obtain ⟨ne, next, polls⟩ := awaited_polls waits
    refine engine rfl ne ?_
    rw [polls, pollBusy_goesOn sample cnt more, ← noRecord]
  · exact engine phase nofun rfl
  · exact engine phase nofun rfl
  · exact engine phase nofun rfl
  · exact engine phase nofun rfl
  · exact step_oneTransition sched here busy ((tick_step phase stack).trans rfl)
  · refine step_oneTransition sched here busy ?_
    rw [tick_step phase stack, ← noRecord]
    simp only [microStep, irqTest, View.at, read, bitSet, unset, more, Bool.false_eq_true, if_false, View.prepend]
    rfl

end Sys2Proof.Machine
end

section
/-! The statements about the ends of transactions and passes and about the separation of the handles (70_reset_and_hazards.md R302,
R305): which registers return to no value, and what a step leaves alone. -/

namespace Sys2Proof.Machine

/-! ### The end of a transaction -/

/-- A transition that moves leaves the engine busy or is the `Finish` of its transaction (40_transaction_engine.md R120). -/
def Tick.BusyOrFinishes : Tick → Prop
  | .moved w => w.c.tePhase ≠ .idle ∨ ∃ (u : View) (st : Status) (rx : List Byte), w = u.finish st rx
  | .held => True
  | .fault _ => True

/-- A busy wait goes on, gives way to what `next` says, or finishes the transaction when it runs out (R129). -/
theorem pollBusy_busyOrFinishes {v : View} {level : Level} {stage : WaitStage} {next : View → Tick} (busy : v.c.tePhase ≠ .idle)
    (hnext : ∀ u : View, (next u).BusyOrFinishes) : (pollBusy v level stage next).BusyOrFinishes := by
  cases h : pollBusy v level stage next with
  | held => trivial
  | fault f => trivial
  | moved w =>
    obtain ⟨-, goesOn⟩ | ⟨-, k, -, ⟨-, rfl⟩ | ⟨-, rfl⟩⟩ := pollBusy_cases h
    · exact goesOn ▸ hnext _
    · obtain ⟨bs, drawn, taken⟩ := sampleBusy_keeps v
      left
      rw [taken]
      exact busy
    · exact .inr ⟨_, _, _, rfl⟩

/-- Every transition of the engine: it becomes idle by `Finish` alone. -/
theorem tickEngine_busyOrFinishes {v : View} {ph : TePhase} (phase : v.c.tePhase = ph) : (tickEngine v ph).BusyOrFinishes := by
  cases ph with
  | idle => trivial
  | arb =>
    simp only [tickEngine, tickArb]
    split
    · split
      · exact .inl (by simp [View.grant])
      · trivial
    · trivial
  | wReadyTx | wAcceptTx | wAcceptRx =>
    simp only [tickEngine]
    exact pollBusy_busyOrFinishes (by simp [phase]) fun u => Or.inl (by simp)
  | wDoneTx =>
    refine pollBusy_busyOrFinishes (next := doneTx) (by simp [phase]) fun u => ?_
    unfold doneTx
    split
    · trivial
    · exact .inr ⟨_, _, _, rfl⟩
    · exact .inl (by simp)
  | wDoneRx =>
    refine pollBusy_busyOrFinishes (next := doneRx) (by simp [phase]) fun u => ?_
    unfold doneRx
    split
    · trivial
    · exact .inr ⟨_, _, _, rfl⟩
  | txSetup | txHold | rxSetup | rxHold => exact .inl (by simp)
  | txBytes =>
    simp only [tickEngine, tickTxBytes]
    split
    · trivial
    · trivial
    · split
      · exact .inl (by simp)
      · exact .inl (by simp [phase])
  | rxBytes =>
    simp only [tickEngine, tickRxBytes]
    split
    · trivial
    · trivial
    · split
      · exact .inl (by simp [phase])
      · exact .inl (by simp)

/-- `Finish` leaves no value in the registers of the transaction. -/
theorem View.finish_noValue (v : View) (st : Status) (rx : List Byte) :
    (v.finish st rx).c.txBuf = none ∧ (v.finish st rx).c.txIdx = none ∧ (v.finish st rx).c.rxLen = none ∧
      (v.finish st rx).c.rxBuf = none ∧ (v.finish st rx).c.pollCnt = none :=
  ⟨rfl, rfl, rfl, rfl, rfl⟩

/-! ### The end of an operation -/

/-- A transition that moves leaves operation `op` in progress, inside of those of `fs`, or is its end. -/
def Tick.LeavesOrReturns (op : Instr) (fs : List Frame) : Tick → Prop
  | .moved w => fs.length < w.c.stack.length ∨
      ∃ (u : View) (todo : List Micro) (st : Status) (r : Option Result), u.c.stack = ⟨op, todo⟩ :: fs ∧ w = u.endOp st r
  | .held => True
  | .fault _ => True

theorem Tick.Deep.leavesOrReturns {op : Instr} {fs : List Frame} {t : Tick} (h : t.Deep (fs.length + 1)) :
    t.LeavesOrReturns op fs := by
  cases t with
  | moved w => exact .inl h
  | held => trivial
  | fault f => trivial

section
variable {v u : View} {op : Instr} {m : Micro} {todo rest : List Micro} {fs : List Frame}

theorem moved_leaves (stack : u.c.stack = ⟨op, rest⟩ :: fs) : (Tick.moved u).LeavesOrReturns op fs := .inl (by simp [stack])

theorem prepend_leaves (stack : u.c.stack = ⟨op, rest⟩ :: fs) (ms : List Micro) :
    (Tick.moved (u.prepend ms)).LeavesOrReturns op fs := .inl (by simp [View.prepend, stack])

theorem endOp_returns (stack : u.c.stack = ⟨op, rest⟩ :: fs) (st : Status) (r : Option Result) :
    (Tick.moved (u.endOp st r)).LeavesOrReturns op fs := .inr ⟨u, rest, st, r, stack, rfl⟩

theorem raise_returns (stack : u.c.stack = ⟨op, rest⟩ :: fs) (e : Status) : (Tick.moved (u.raise e)).LeavesOrReturns op fs := by
  simpa only [View.raise, stack] using endOp_returns stack e (failureResult op)

theorem microStep_leavesOrReturns (stack : v.c.stack = ⟨op, m :: rest⟩ :: fs) :
    (microStep v (v.at op rest fs) op m).LeavesOrReturns op fs := by
  have stack' : (v.at op rest fs).c.stack = ⟨op, rest⟩ :: fs := rfl
  generalize v.at op rest fs = u at stack'
  have leaves := moved_leaves stack'
  have returns := endOp_returns stack'
  have raises := raise_returns stack'
  have prepends := prepend_leaves stack'
  cases m with
  | initCheck | rangeCheck | propagate => simp only [microStep]; split; exacts [leaves, raises _]
  | eofCheck => simp only [microStep]; split; exacts [raises _, leaves]
  | transact tx n => simp only [microStep]; split; exacts [raises _, moved_leaves (u := v.enter .arb) stack]
  | call i => exact .inl (by simp [View.startOp, stack'])
  | irqPoll bit stage k => exact prepends _
  | setRst | deselect => exact moved_leaves (by simpa using stack')
  | setBegun | delay | invStart | invPhase | invSlotZero => exact moved_leaves stack'
  | returnTrue => exact returns _ _
  | returnBytes => simp only [microStep, returnBytes]; split; exacts [returns _ _, trivial]
  | returnRegister => simp only [microStep, returnRegister]; split; exacts [returns _ _, trivial]
  | returnWord => simp only [microStep, returnWord]; split; exacts [returns _ _, trivial]
  | slotRead => simp only [microStep, slotRead]; split; exacts [prepends _, trivial]
  | slotNext => simp only [microStep]; split; exacts [trivial, moved_leaves stack']
  | invReturn => simp only [microStep, invReturn]; split; exacts [trivial, trivial, returns _ _]
  | irqTest bit stage k =>
    simp only [microStep, irqTest]
    split
    · split
      · exact leaves
      · split
        · exact raise_returns (u := { u with c := { u.c with timeoutStage := some stage } }) stack' _
        · exact prepends _
    · trivial
  | stateCheck =>
    simp only [microStep, stateCheck]
    split
    · exact raises _
    · split
      · split; exacts [leaves, raises _]
      · trivial
  | returnState =>
    simp only [microStep, returnState]
    split
    · split
      · exact endOp_returns (u := { u with c := { u.c with tsFallback := false } }) stack' _ _
      · trivial
    · exact endOp_returns (u := { u with c := { u.c with tsFallback := true } }) stack' _ _
  | slotLoop =>
    simp only [microStep, slotLoop]
    split
    · trivial
    · split; exacts [prepends _, leaves]
  | sofTest =>
    simp only [microStep, sofTest]
    split
    · split; exacts [prepends _, leaves]
    · trivial
  | slotFrame =>
    simp only [microStep, slotFrame]
    split
    · split
      · exact moved_leaves stack'
      · trivial
      · trivial
      · trivial
    · split; exacts [leaves, raises _]

/-- Every transition, from any state: an operation leaves the control stack by its end alone. -/
theorem tick_leavesOrReturns (stack : v.c.stack = ⟨op, todo⟩ :: fs) : (tick v).LeavesOrReturns op fs := by
  by_cases phase : v.c.tePhase = .idle
  · cases todo with
    | nil =>
      rw [tick_end phase stack]
      exact endOp_returns stack _ _
    | cons m rest =>
      rw [tick_step phase stack]
      exact microStep_leavesOrReturns stack
  · rw [tick_engine rfl phase]
    have deep := tickEngine_deep v v.c.tePhase
    rw [stack] at deep
    exact deep.leavesOrReturns

/-- The end of a pass leaves no value in its registers and its phase idle, whatever the status. -/
theorem endOp_pass_noValue (stack : u.c.stack = ⟨pass, todo⟩ :: fs) (st : Status) (r : Option Result) :
    (u.endOp st r).c.invPhase = .idle ∧ (u.endOp st r).c.invSlot = none ∧ (u.endOp st r).c.invCount = none ∧
      (u.endOp st r).c.invFrames = none := by
  simp [View.endOp, stack, clearInventory]

end

/-! ### The start of a pass -/

/-- A turn of as many transitions as lead from the start of an instruction to `w` ends there. -/
theorem exec_turn {s : State} {c : Handle} {i : Instr} {w : View} {k : Nat} (ready : Ready s c)
    (turn : s.now.quantum = k)
    (run : Reaches k ((s.issued c (operationOf i)).startOp (operationOf i) (programOf s.params (operationOf i))) w) :
    exec i s = .next (s.put w) := by
  have ends := run 0
  simp only [State.issued, Nat.add_zero] at ends
  rw [exec_eq_issue]
  simp only [issue, ready.view, ready.noOp, if_true, State.runTurn, turn, ends, Machine.run]

/-- The first two transitions of a pass are the initialisation check and the emptying of its frames and its count
(43_inventory.md R240). -/
theorem pass_starts {v : View} (calm : v.Calm) : Reaches 2 (v.startOp pass (progGetInventory v.params))
    ((v.inv v.c.invPhase v.c.invSlot (some 0) (some [])).mid pass ((progGetInventory v.params).drop 2) v.begins) := by
  rw [startOp_mid]
  exact (mid_init calm).trans (mid_step calm rfl)

/-- Settles O43: a transaction ends by `Finish` alone (`tickEngine_busyOrFinishes`) and a pass by the end of its operation alone
(`tick_leavesOrReturns`), which both clear their registers; the second transition of a pass empties its frames and its count
(`pass_starts`). -/
theorem registersReturnToNoValue : Obligations.RegistersReturnToNoValue := by
  refine ⟨fun v w moved busy idle => ?_, fun v w todo fs moved stack gone => ?_, fun s c ready turn => ?_⟩
  · have outcome := tickEngine_busyOrFinishes (v := v) rfl
    rw [← tick_engine rfl busy, moved] at outcome
    obtain ⟨u, st, rx, rfl⟩ := outcome.resolve_left (absurd idle)
    exact u.finish_noValue st rx
  · have outcome := tick_leavesOrReturns stack
    rw [moved] at outcome
    have popped : ¬ fs.length < w.c.stack.length := by rw [gone]; exact Nat.lt_irrefl _
    obtain ⟨u, todo', st, r, stack', rfl⟩ := outcome.resolve_left popped
    exact endOp_pass_noValue stack' st r
  · have starts := pass_starts (ready.calm pass)
    have within : s.now.handle < s.handles.length := (List.getElem?_eq_some_iff.mp ready.here).1
    exact ⟨_, _, exec_turn ready turn starts, List.getElem?_set_self within, rfl, rfl⟩

/-! ### The other handles -/

/-- Settles O49: no controller moves, or the one whose turn it is does and is put back in its place (`Moves.handle_other`). -/
theorem otherHandlesUntouched : Obligations.OtherHandlesUntouched := by
  intro s t step
  obtain rests | ⟨c, v, w, moves⟩ := step_cases step
  · exact ⟨rests.params, by rw [rests.handles], fun h _ => by rw [rests.handles]⟩
  · exact ⟨moves.params, by rw [moves.handles, List.length_set], fun h ne => moves.handle_other ne⟩

end Sys2Proof.Machine
end
